-- ==== Sys2Proof/Word.lean ====
section
/-!
DEFINITION. The value types of the block (spec/00_scope.md R9: all quantities are unsigned; `uN` is an unsigned
integer of `N` bits).
-/
namespace Sys2Proof

/-- `u8`: a byte of a ring, of a frame or of a configuration string. -/
abbrev Byte := BitVec 8

/-- `u16`: a host register (R20), the data of a host access (R91), a wire word (R96), a delay counter (R32). -/
abbrev Word := BitVec 16

/-- `u9`: one entry of the RAM window (R60). -/
abbrev RamWord := BitVec 9

/-- `u13`: the word address of a host RAM access (R94). -/
abbrev RamAddr := BitVec 13

end Sys2Proof
end

