-- ==== Sys2Proof/Config.lean ====
section
/-!
DEFINITION. What the source fixes (constants), and what it leaves to the implementation (the parameters of
spec/00_scope.md R8). R8 asks that a model keep the open parameters as arguments: they form the plain record `Params`,
which State carries and which no operation writes, so that a claim over all states is a claim over all parameter values.
-/
namespace Sys2Proof

/-- `FRAME_BYTES`, fixed (R8, R95). -/
@[simp] abbrev frameBytes : Nat := 1024

/-- `RAM_WORDS` (R8, R60; conflict C1). -/
@[simp] abbrev ramWords : Nat := 8192

/-- `TICKS_PER_WORD`, fixed (R8). -/
@[simp] abbrev ticksPerWord : Nat := 12

/-- `IRQ_HOLD`, fixed (R8, R185). -/
@[simp] abbrev irqHoldLoad : Nat := 4

/-- The eight 16-bit host registers `x[0]` to `x[7]`, in the order of R20. -/
structure Regs where
  status   : Word
  mode     : Word
  control  : Word
  start    : Word
  rxSize   : Word
  txSize   : Word
  rxOffset : Word
  txOffset : Word
deriving DecidableEq, Repr

/-- `RING_VIEW` (R8, R31): whether a side may see an older value of the other side's cursor. -/
inductive RingView where
  | stale
  | sc
deriving DecidableEq, Repr

/-- The open and default parameters of R8. -/
structure Params where
  /-- `RING_N`, the capacity of each ring in bytes (both rings have the same one, D43). -/
  ringN     : Nat
  /-- `STATUS_SYNC_BIT`, OPEN, 0 or 1 (D26). -/
  syncBit   : Fin 2
  /-- `IRQ_FOLLOW` (conflict C4, D23). -/
  irqFollow : Bool
  /-- `RING_VIEW` (D6). -/
  ringView  : RingView
  /-- `REG_RESET[0..7]`, OPEN, each within its mask (D27). -/
  regReset  : Regs
deriving DecidableEq, Repr

/-- All eight registers 0: the smoke-test value of `REG_RESET` (D27).
DESIGN CHOICE (log entry 4), unsafe: the spec leaves the reset values open. -/
def Regs.zero : Regs :=
  { status := 0, mode := 0, control := 0, start := 0, rxSize := 0, txSize := 0, rxOffset := 0, txOffset := 0 }

/-- The parameter values of `State.reset`: the defaults of R8 where it gives one (`RING_N`, `IRQ_FOLLOW`,
`RING_VIEW` for the model).
DESIGN CHOICE (log entries 3 and 4), unsafe: `STATUS_SYNC_BIT` and `REG_RESET` are OPEN in R8. -/
def Params.default : Params :=
  { ringN := 524288, syncBit := 0, irqFollow := true, ringView := .stale, regReset := Regs.zero }

end Sys2Proof
end

