-- ==== Sys2Proof/Syntax.lean ====
section
/-!
DEFINITION. The operations of the block: one constructor of `Instr` per row of spec/opcode_table.json
(spec/30_encoding.md R90, R91, R101), and the operation word that spells an operation.
-/
namespace Sys2Proof

/-- The two ring instances (R11); `op[3]` of a `Q` code (R91). -/
inductive RingId where
  | rxq
  | txq
deriving DecidableEq, Repr

/-- The two sides of a ring (R120); the `side` operand of `RB_USED` and `RB_FREE` (R91). -/
inductive Side where
  | writer
  | reader
deriving DecidableEq, Repr

/-- The two network roles (R13); `op[2]` of a `V` code (R91). -/
inductive Role where
  | rx
  | tx
deriving DecidableEq, Repr

/-- The state of a role (R33); `op[1:0]` of a `V` code (R91), whose value 3 is reserved. -/
inductive RoleState where
  | idle
  | pending
  | connected
deriving DecidableEq, Repr

/-- The operations. In the host register operations `m` is the mirror bit `a[3]` of the window address, which selects
one of the two copies of the register file and has no effect (R92). Strings are sequences of bytes (R212). -/
inductive Instr where
  | rdStatus    (m : Bool)
  | rdMode      (m : Bool)
  | rdControl   (m : Bool)
  | rdStart     (m : Bool)
  | rdRxSize    (m : Bool)
  | rdTxSize    (m : Bool)
  | rdRxOffset  (m : Bool)
  | rdTxOffset  (m : Bool)
  | wrStatus    (m : Bool) (d : Word)
  | wrMode      (m : Bool) (d : Word)
  | wrControl   (m : Bool) (d : Word)
  | wrStart     (m : Bool) (d : Word)
  | wrRxSize    (m : Bool) (d : Word)
  | wrTxSize    (m : Bool) (d : Word)
  | wrRxOffset  (m : Bool) (d : Word)
  | wrTxOffset  (m : Bool) (d : Word)
  | rdRam       (addr : RamAddr)
  | wrRam       (addr : RamAddr) (d : Word)
  | tick
  | reset       (localHost localPort remoteHost remotePort : List Byte) (forward : Bool)
  | stop
  | rbWrite     (q : RingId) (bytes : List Byte)
  | rbRead      (q : RingId) (len : Nat)
  | rbPeek      (q : RingId) (len : Nat)
  | rbConsume   (q : RingId) (n : Nat)
  | rbUsed      (q : RingId) (side : Side)
  | rbFree      (q : RingId) (side : Side)
  | rbClear     (q : RingId)
  | ltConnected
  | ltReceive   (size : Nat)
  | ltSend      (bytes : List Byte)
  | envConn     (role : Role) (state : RoleState)
deriving DecidableEq, Repr

/-- One operand value as it is presented with the code byte. R90: operands are values, not bit fields. A number
stands for `u16`, `u13`, naturals, `side` and bool operands, a sequence for byte sequences and strings; the decoder
checks it against the width R91 gives the operand. DESIGN CHOICE (log entry 2), safe. -/
inductive Operand where
  | num (n : Nat)
  | seq (bytes : List Byte)
deriving DecidableEq, Repr

/-- R90: an operation word is one code byte followed by the operands its format names. -/
structure OpWord where
  code     : BitVec 8
  operands : List Operand
deriving DecidableEq, Repr

end Sys2Proof
end

