-- ==== Sys2Proof/Machine/State.lean ====
section
/-!
DEFINITION. The whole state of the block (spec/10_state.md), as plain data, the ways an operation can stop, and the
state right after `RESET` (R41). The model's own fields (the operation stream, the inputs of the current operation,
the result port) stand last.
-/
namespace Sys2Proof.Machine

/-- A sparse memory of `k`-bit entries: address and contents, in the canonical form `Memory.wf`. For `k = 8` its
elements are `Host.Cell`s. -/
abbrev Memory (k : Nat) := List (Nat × BitVec k)

/-- One ring (R30, R31): storage, write cursor, read cursor, the reader side's view `wv` of `w`, the writer side's view
`rv` of `r`. The capacity is the parameter `ringN`. -/
structure Ring where
  buf : Memory 8
  w   : Nat
  r   : Nat
  wv  : Nat
  rv  : Nat
deriving DecidableEq, Repr

/-- The agents of R12. -/
inductive Agent where
  /-- The foreground: host accesses, `TICK`, `RESET`, `STOP`. -/
  | fg
  /-- The background: the other side of each ring, the role states. -/
  | bg
  /-- The interrupt consumer, which only observes. -/
  | ic
deriving DecidableEq, Repr

/-- The result codes of R104. -/
inductive ResultCode where
  | ok
  | wouldBlock
  | overflow
  | notConnected
deriving DecidableEq, Repr

/-- A value an operation returns (column "result out" of R91). -/
inductive Value where
  | none
  | word (v : Word)
  | nat (n : Nat)
  | bytes (b : List Byte)
  | bool (b : Bool)
deriving DecidableEq, Repr

/-- What an operation returns to its caller: `st` for the `Q` and `T` operations (R104), and a value. -/
structure Result where
  st    : Option ResultCode
  value : Value
deriving DecidableEq, Repr

/-- A resolved endpoint address as the environment's resolver gave it, uninterpreted bytes; `none` when the host or
port could not be resolved (R221). -/
abbrev Address := Option (List Byte)

/-- The Endpoint of R37: a resolved local bind address and a resolved remote connect address. -/
structure Endpoint where
  bind    : Address
  connect : Address
deriving DecidableEq, Repr

/-- The operations agent `BG` may issue (R245), each tied to its side as U1 asks: it writes `RXQ`, it reads, peeks and
consumes `TXQ`, it counts from its own side of either ring. -/
inductive BgOp where
  | write (bytes : List Byte)
  | read (len : Nat)
  | peek (len : Nat)
  | consume (n : Nat)
  | used (q : RingId)
  | free (q : RingId)
  | clear (q : RingId)
  | envConn (role : Role) (state : RoleState)
deriving DecidableEq, Repr

/-- A background operation that falls inside a tick (R182), with its own choice of view (R128). -/
structure MidOp where
  op  : BgOp
  lag : Nat
deriving DecidableEq, Repr

/-- The non-deterministic inputs of one operation (R42): free values, on which nothing is known.
`lagW`, `lagR`: by how many bytes the cursor value the writer (reader) side observes is older than the newest one,
cut off at the value the side saw last (R128; U14). `mid`: the background operations that fall between the transmit
pass and the receive pass of this operation, if it is a `TICK` (R182). `resolved`: what the environment's resolver
answers, if it is a `RESET` (R210). DESIGN CHOICE (log entries 7, 8, 16), safe: every value is allowed. -/
structure StepInput where
  lagW     : Nat
  lagR     : Nat
  mid      : List MidOp
  resolved : Endpoint
deriving DecidableEq, Repr

/-- One operation as an agent issues it: who, which operation word, and the inputs that accompany it. -/
structure Issue where
  agent : Agent
  word  : OpWord
  inp   : StepInput
deriving DecidableEq, Repr

/-- The state of the block. -/
structure State where
  /-- The parameters of R8, written by no operation. -/
  par       : Params
  /-- The register file `x[0..7]` (R20). -/
  x         : Regs
  /-- The RAM window (R38, R60). -/
  ram       : Memory 9
  /-- The inbound ring (R11). -/
  rxq       : Ring
  /-- The outbound ring (R11). -/
  txq       : Ring
  /-- Ticks before a transmit attempt may occur (R32). -/
  txBlock   : Word
  /-- Ticks before the current transmit counts as complete (R32). -/
  txDelay   : Word
  /-- Ticks before the next receive pass (R32). -/
  rxDelay   : Word
  /-- The interrupt hold counter (R32), 0 to 4. -/
  irqHold   : Nat
  /-- The interrupt latch, which is the level of the line `IRQ` (R35). -/
  irqLatch  : Bool
  /-- The receive role state (R33). -/
  rxConn    : RoleState
  /-- The transmit role state (R33). -/
  txConn    : RoleState
  /-- `LINK_ID` (R37). -/
  linkId    : Byte
  /-- `FORWARD` (R37), only `false` admitted (R213). -/
  forward   : Bool
  /-- The Endpoint (R37). -/
  endpoint  : Endpoint
  /-- The levels passed to `notify`, oldest first (R40). -/
  irqEvents : List Bool
  /-- How often `LT_SEND` scheduled a drain pass (R40). -/
  drainKicks : Nat
  /-- Whether agent `BG` runs: from `RESET` to `STOP` (R211, R247). -/
  bgRunning : Bool
  /-- The result of the last operation (R91), the model's own port (log entry 9). -/
  out       : Result
  /-- The results the background operations inside the last tick returned, oldest first (log entry 8). -/
  midOut    : List Result
  /-- The inputs of the current operation, the model's own field (log entries 7, 8, 16). -/
  inp       : StepInput
  /-- The operations still to come, next one first, the model's own field (R223, R247; log entry 1). -/
  pending   : List Issue
deriving DecidableEq, Repr

/-- Faults. The block has none: "There is no fatal error class in this core" (R230, R221), its result signals are
returned values and not stops, and an address outside a space cannot be expressed (R70, R94). So no constructor. Safe
(log entry 24). -/
inductive Fault where
deriving DecidableEq, Repr

/-- Refusals: the uses the spec gives no meaning (R10 `refuse`, R235). -/
inductive Refusal where
  /-- Raised by exec's arm of an operation that has no meaning yet; no arm raises it. Safe. -/
  | notModelled (mnemonic : String)
  /-- Raised by step when the code byte is reserved (R102, U5). Safe. -/
  | reservedCode (code : BitVec 8)
  /-- Raised by step when the operands are not those the format names (R91). Safe. -/
  | badOperands (code : BitVec 8)
  /-- Raised by step and by `RESET` when a string operand is not ASCII (U8, D31). Safe. -/
  | nonAscii
  /-- Raised by step when an agent issues an operation it does not own (R120, R235, R245, U1): `refuse(wrong_side)`.
  Safe. -/
  | wrongSide
  /-- Raised by step, and by `TICK` for an operation inside it, when `BG` issues an operation after `STOP` (R211).
  Safe. -/
  | bgStopped
  /-- Raised by `RB_CONSUME`, and by `TICK` for one inside it, when it asks for more than the reader side sees
  (R124, U2, D9): `refuse(consume_beyond_used)`. Safe. -/
  | consumeBeyondUsed
  /-- Raised by `RESET` with `fwd = true` (R210, R213, U4, D32): `refuse(forward_mode)`. Safe. -/
  | forwardMode
deriving DecidableEq, Repr

/-- An empty ring with nothing listed in its storage (R41). -/
def Ring.empty : Ring := { buf := [], w := 0, r := 0, wv := 0, rv := 0 }

/-- The result of an operation that returns nothing. -/
def Result.nothing : Result := { st := none, value := .none }

/-- The inputs with every choice at its plainest: newest cursors, no background operation inside a tick, nothing
resolved. -/
def StepInput.plain : StepInput := { lagW := 0, lagR := 0, mid := [], resolved := { bind := none, connect := none } }

/-- The state right after a `RESET` (R41, R210): counters 0, latch false, rings empty, roles `Idle`, traces empty.
DESIGN CHOICE, unsafe: the values of the open parameters (log entry 3), `REG_RESET = 0` (log entry 4), the RAM contents
(log entry 5: every entry reads 0), `LINK_ID = 0x3a`, which R212 gives for empty endpoint strings, and an unresolved
Endpoint (log entries 15, 16). -/
def State.reset : State :=
  { par := Params.default
    x := Params.default.regReset
    ram := []
    rxq := Ring.empty
    txq := Ring.empty
    txBlock := 0
    txDelay := 0
    rxDelay := 0
    irqHold := 0
    irqLatch := false
    rxConn := .idle
    txConn := .idle
    linkId := 0x3a
    forward := false
    endpoint := { bind := none, connect := none }
    irqEvents := []
    drainKicks := 0
    bgRunning := true
    out := Result.nothing
    midOut := []
    inp := StepInput.plain
    pending := [] }

end Sys2Proof.Machine
end

