-- ==== Sys2Proof/Machine/Flags.lean ====
section
/-!
DEFINITION. The boolean status items (spec/10_state.md R36): the stored sync bit, the computed STATUS bits 2 and 3, the
halt bit, the interrupt line, and the MODE policy (spec/43_tick_engine.md R184).
-/
namespace Sys2Proof.Machine

/-- `1 << STATUS_SYNC_BIT` (R21). -/
def syncMask (p : Params) : Word := 1#16 <<< p.syncBit.val

/-- `RXSIZE == 0`. -/
def rxDone (x : Regs) : Bool := x.rxSize == 0

/-- `TXSIZE == 0`. -/
def txDone (x : Regs) : Bool := x.txSize == 0

/-- The stored sync bit, `(x[0] >> STATUS_SYNC_BIT) & 1` (R181). -/
def syncFlag (p : Params) (x : Regs) : Bool := x.status.getLsbD p.syncBit.val

/-- CONTROL bit 0, halt (R23). -/
def haltFlag (x : Regs) : Bool := x.control.getLsbD 0

/-- MODE bit 0 clear: the no-sync packing variant (R22, R189). -/
def noSyncFlag (x : Regs) : Bool := !x.mode.getLsbD 0

/-- What a host read of STATUS returns: the stored bits, bit 2 set if TXSIZE is 0, bit 3 set if RXSIZE is 0 (R151). -/
def statusValue (x : Regs) : Word :=
  x.status ||| (if txDone x then 0x0004 else 0) ||| (if rxDone x then 0x0008 else 0)

/-- The MODE policy table (R184). -/
def policy (m : Nat) (rx0 tx0 sy : Bool) : Bool :=
  match m with
  | 0 | 1 | 2 | 3 => rx0 || tx0
  | 4 | 5 => rx0 || sy
  | 6 | 7 => rx0
  | 8 | 9 | 10 | 11 => tx0
  | 12 | 13 => sy
  | _ => false

/-- The policy of a state, over the stored values (R184, D37); `m = x[1] & 0xf`. -/
def policyNow (s : State) : Bool :=
  policy (s.x.mode &&& 0x000f).toNat (rxDone s.x) (txDone s.x) (syncFlag s.par s.x)

/-- The level of the line `IRQ` (R35). -/
def State.irq (s : State) : Bool := s.irqLatch

end Sys2Proof.Machine
end

