-- ==== Sys2Proof/Machine/Memory.lean ====
section
/-!
DEFINITION. The sparse memories: the RAM window (spec/20_memory.md R60, R61) and the ring storage (R64).
-/
namespace Sys2Proof.Machine.Memory

/-- What an unlisted address reads as: 0. DESIGN CHOICE (log entries 5 and 6), unsafe for the RAM window, whose contents
before the first write the spec leaves unspecified (R41); unobservable in ring storage (R39). -/
def fill {k : Nat} : BitVec k := 0#k

/-- Read one entry. -/
def read {k : Nat} (m : Memory k) (a : Nat) : BitVec k :=
  match m with
  | [] => fill
  | (b, v) :: rest => if b = a then v else read rest a

/-- Write one entry, keeping the list sorted and free of entries that equal `fill`. -/
def write {k : Nat} (m : Memory k) (a : Nat) (v : BitVec k) : Memory k :=
  match m with
  | [] => if v = fill then [] else [(a, v)]
  | (b, u) :: rest =>
    if a < b then (if v = fill then (b, u) :: rest else (a, v) :: (b, u) :: rest)
    else if a = b then (if v = fill then rest else (a, v) :: rest)
    else (b, u) :: write rest a v

/-- The canonical form from address `lo` on: addresses strictly rising and below `limit`, no entry equal to `fill`. -/
def wfFrom {k : Nat} (lo limit : Nat) : Memory k → Bool
  | [] => true
  | (a, v) :: rest => decide (lo ≤ a) && decide (a < limit) && decide (v ≠ fill) && wfFrom (a + 1) limit rest

/-- The canonical form of a memory with addresses `0 .. limit - 1`. -/
def wf {k : Nat} (limit : Nat) (m : Memory k) : Bool := wfFrom 0 limit m

end Sys2Proof.Machine.Memory
end

