-- ==== Sys2Proof/Machine/Operands.lean ====
section
/-!
DEFINITION. How each operand becomes a value (spec/30_encoding.md R100): register write data, RAM addresses and data,
delays, wire words, the frame (R95 to R99).
-/
namespace Sys2Proof.Machine

/-! ### Register write data (R93) -/

/-- The write mask of MODE, `0x000f`. -/
def maskMode (d : Word) : Word := d &&& 0x000f
/-- The write mask of CONTROL, `0x0003`. -/
def maskControl (d : Word) : Word := d &&& 0x0003
/-- The write mask of START, `0x0003`. -/
def maskStart (d : Word) : Word := d &&& 0x0003
/-- The write mask of RXSIZE and TXSIZE, `0x00ff`. -/
def maskSize (d : Word) : Word := d &&& 0x00ff
/-- The write mask of RXOFFSET and TXOFFSET, `0x1fff`. -/
def maskOffset (d : Word) : Word := d &&& 0x1fff

/-! ### RAM data and addresses (R61, R63) -/

/-- `v & 0x01ff`, what a RAM write stores (R61). -/
def ramData (v : Word) : RamWord := v.setWidth 9

/-- `zext_16`, what a RAM read returns (R61). -/
def ramValue (v : RamWord) : Word := v.setWidth 16

/-- The RAM address of transmit word `i`: `(TXOFFSET + i) & 0x1fff` (R63). -/
def txAddr (txOffset : Word) (i : Nat) : Nat := (txOffset.toNat + i) % 0x2000

/-- The RAM address of receive word `i`: `0x1000 | ((RXOFFSET + i) & 0x0fff)` (R63). -/
def rxAddr (rxOffset : Word) (i : Nat) : Nat := 0x1000 + (rxOffset.toNat + i) % 0x1000

/-- `value * 12`, the ticks of delay of `n` words (R100). -/
def delayOf (n : Nat) : Word := BitVec.ofNat 16 (n * ticksPerWord)

/-! ### The frame (R95 to R99, R189) -/

/-- A word big-endian: high byte, then low byte (R68, R96). -/
def wordBytes (w : Word) : List Byte := [w.extractLsb' 8 8, w.extractLsb' 0 8]

/-- Transmit word `i` (R189): the RAM word, masked to its low byte in the no-sync variant. -/
def txWord (nosync : Bool) (ram : Memory 9) (txOffset : Word) (i : Nat) : Word :=
  let wd := ramValue (Memory.read ram (txAddr txOffset i))
  if nosync then wd &&& 0x00ff else wd

/-- The payload bytes `0 .. 2n-1` before the last-byte mark (R96, R189). -/
def payload (nosync : Bool) (ram : Memory 9) (txOffset : Word) (n : Nat) : List Byte :=
  (List.range n).flatMap fun i => wordBytes (txWord nosync ram txOffset i)

/-- `if nosync: f[2n-1] = f[2n-1] | 0x01` (R189). -/
def markEnd (nosync : Bool) (n : Nat) (bytes : List Byte) : List Byte :=
  if nosync then bytes.modify (2 * n - 1) (fun b => b ||| 0x01) else bytes

/-- The frame of `n` words: payload, zero padding up to byte 1021, link identifier, word count (R97, R98, R189). -/
def buildFrame (nosync : Bool) (linkId : Byte) (ram : Memory 9) (txOffset : Word) (n : Nat) : List Byte :=
  markEnd nosync n (payload nosync ram txOffset n) ++ List.replicate (1022 - 2 * n) 0x00 ++
    [linkId, BitVec.ofNat 8 n]

/-- Byte `i` of a frame. -/
def frameByte (f : List Byte) (i : Nat) : Byte := f.getD i 0

/-- The word count of a received frame, `f[1023]` (R192). -/
def frameCount (f : List Byte) : Nat := (frameByte f 1023).toNat

/-- Wire word `i`: `(f[2i] << 8) | f[2i+1]` (R96, R193). -/
def rxWord (f : List Byte) (i : Nat) : Word := frameByte f (2 * i) ++ frameByte f (2 * i + 1)

/-- The RAM after unpacking `n` words of a frame (R193). -/
def unpackRam (f : List Byte) (rxOffset : Word) (n : Nat) (ram : Memory 9) : Memory 9 :=
  (List.range n).foldl (fun m i => Memory.write m (rxAddr rxOffset i) (ramData (rxWord f i))) ram

/-- Whether any of the `n` unpacked words has bit 8 set (R193). -/
def unpackSync (f : List Byte) (n : Nat) : Bool :=
  (List.range n).any fun i => (rxWord f i).getLsbD 8

/-! ### The link identifier (R212) -/

/-- `LinkId(rh, rp)`: the exclusive-or of the bytes of `rh ++ ":" ++ rp`, from 0. -/
def linkIdOf (remoteHost remotePort : List Byte) : Byte :=
  (remoteHost ++ [0x3a] ++ remotePort).foldl (fun id b => id ^^^ b) 0x00

end Sys2Proof.Machine
end

