-- ==== Sys2Proof/Machine/Ring.lean ====
section
/-!
DEFINITION. The ring buffer on its own (spec/40_ringbuffer.md). `n` is the capacity `q.N`, `v` is `RING_VIEW`, `lag` the
choice of view of R128. Every operation is one atomic step (R129).
-/
namespace Sys2Proof.Machine

/-- A result signal (R230). -/
def Result.signal (c : ResultCode) : Result := { st := some c, value := .none }

/-- The result `(Ok, value)`. -/
def Result.okWith (v : Value) : Result := { st := some .ok, value := v }

namespace Ring

/-- `(b - a) mod n` for cursors `a`, `b` below `n`: how far `b` is ahead of `a`. -/
def dist (n a b : Nat) : Nat := (b + n - a) % n

/-- `used(q) = (q.w - q.r) mod q.N` (R11, R30). -/
def used (n : Nat) (q : Ring) : Nat := dist n q.r q.w

/-- `free(q) = q.N - 1 - used(q)` (R11). -/
def free (n : Nat) (q : Ring) : Nat := n - 1 - used n q

/-- What a side computes from its own cursor and its view of the other (R125): the writer `(w - rv) mod N`, the reader
`(wv - r) mod N`. -/
def usedBy (n : Nat) (side : Side) (q : Ring) : Nat :=
  match side with
  | .writer => dist n q.rv q.w
  | .reader => dist n q.r q.wv

/-- `N - 1` less `usedBy` (R126, R121's `free_w`). -/
def freeBy (n : Nat) (side : Side) (q : Ring) : Nat := n - 1 - usedBy n side q

/-- The value an acquire load returns (R77, R128): under `sc` the newest; under `stale` the newest or an older one,
`lag` bytes back, but never older than `view`, what the same side saw last. -/
def observe (n : Nat) (v : RingView) (lag view newest : Nat) : Nat :=
  match v with
  | .sc => newest
  | .stale => (newest + n - min lag (dist n view newest)) % n

/-- The view refresh that begins every operation of a side (R128). -/
def refresh (n : Nat) (v : RingView) (lag : Nat) (side : Side) (q : Ring) : Ring :=
  match side with
  | .writer => { q with rv := observe n v lag q.rv q.r }
  | .reader => { q with wv := observe n v lag q.wv q.w }

/-- The release store of the write cursor (R76). Under `sc` the reader side's view follows at once (R31; log
entry 18). -/
def publishW (v : RingView) (w : Nat) (q : Ring) : Ring :=
  { q with w := w, wv := match v with | .sc => w | .stale => q.wv }

/-- The release store of the read cursor (R76). Under `sc` the writer side's view follows at once (R31; log
entry 18). -/
def publishR (v : RingView) (r : Nat) (q : Ring) : Ring :=
  { q with r := r, rv := match v with | .sc => r | .stale => q.rv }

/-- `q.buf[(i + j) mod N] <- bytes[j]` for `j` from 0 (R121, R64). -/
def putBytes (n : Nat) (buf : Memory 8) (i : Nat) (bytes : List Byte) : Memory 8 :=
  match bytes with
  | [] => buf
  | b :: rest => putBytes n (Memory.write buf (i % n) b) (i + 1) rest

/-- `q.buf[(i + j) mod N]` for `j` in `0 .. len - 1` (R122). -/
def getBytes (n : Nat) (buf : Memory 8) (i len : Nat) : List Byte :=
  (List.range len).map fun j => Memory.read buf ((i + j) % n)

/-- `RB_WRITE` (R121). -/
def write (n : Nat) (v : RingView) (lag : Nat) (bytes : List Byte) (q : Ring) : Ring × Result :=
  let q1 := refresh n v lag .writer q
  if freeBy n .writer q1 < bytes.length then (q1, Result.signal .overflow)
  else
    (publishW v ((q1.w + bytes.length) % n) { q1 with buf := putBytes n q1.buf q1.w bytes },
      Result.okWith (.nat bytes.length))

/-- `RB_PEEK` (R123): as `RB_READ` without the store to `q.r`. -/
def peek (n : Nat) (v : RingView) (lag len : Nat) (q : Ring) : Ring × Result :=
  let q1 := refresh n v lag .reader q
  if usedBy n .reader q1 < len then (q1, Result.signal .wouldBlock)
  else (q1, Result.okWith (.bytes (getBytes n q1.buf q1.r len)))

/-- `RB_READ` (R122). -/
def read (n : Nat) (v : RingView) (lag len : Nat) (q : Ring) : Ring × Result :=
  let q1 := refresh n v lag .reader q
  if usedBy n .reader q1 < len then (q1, Result.signal .wouldBlock)
  else (publishR v ((q1.r + len) % n) q1, Result.okWith (.bytes (getBytes n q1.buf q1.r len)))

/-- `RB_CONSUME` (R124); `none` is `refuse(consume_beyond_used)`. The refresh R124 allows is made, with a free lag, so
that the view left by a preceding peek is among the choices (log entry 12). -/
def consume (n : Nat) (v : RingView) (lag k : Nat) (q : Ring) : Option (Ring × Result) :=
  let q1 := refresh n v lag .reader q
  if usedBy n .reader q1 < k then none
  else some (publishR v ((q1.r + k) % n) q1, Result.okWith .none)

/-- `RB_USED` (R125). -/
def countUsed (n : Nat) (v : RingView) (lag : Nat) (side : Side) (q : Ring) : Ring × Result :=
  let q1 := refresh n v lag side q
  (q1, Result.okWith (.nat (usedBy n side q1)))

/-- `RB_FREE` (R126). -/
def countFree (n : Nat) (v : RingView) (lag : Nat) (side : Side) (q : Ring) : Ring × Result :=
  let q1 := refresh n v lag side q
  (q1, Result.okWith (.nat (freeBy n side q1)))

/-- `RB_CLEAR` (R127): both cursors and both views 0, the storage left as it is. One atomic step (D11; log entry 17). -/
def clear (q : Ring) : Ring := { q with w := 0, r := 0, wv := 0, rv := 0 }

/-- The bytes waiting in a ring, oldest first: those at `[r, w)` (R30, R130). -/
def contents (n : Nat) (q : Ring) : List Byte := getBytes n q.buf q.r (used n q)

/-- The ring invariants of R30, R31 and R131: cursors and views below `N`, both views behind the cursors they follow,
the storage in canonical form. -/
def wf (n : Nat) (q : Ring) : Bool :=
  decide (q.w < n) && decide (q.r < n) && decide (q.wv < n) && decide (q.rv < n) &&
    decide (dist n q.r q.wv ≤ dist n q.r q.w) && decide (dist n q.r q.w ≤ dist n q.rv q.w) &&
    Memory.wf n q.buf

end Ring
end Sys2Proof.Machine
end

