-- ==== Sys2Proof/Machine/Ops.lean ====
section
/-!
DEFINITION. The operations the meanings share: the result port, rings of the state, the notification, the interrupt's
assertion and acknowledge (the block's analogue of taking an exception and returning from one, spec/60_exceptions.md
R240, R242), the ring and transport operations on the state (spec/40_ringbuffer.md, spec/41_link_transport.md), role
states, ownership (R245).
-/
namespace Sys2Proof.Machine

/-- Return a result to the caller (R91). -/
def State.ret (r : Result) (s : State) : State := { s with out := r }

/-- Return a 16-bit value. -/
def State.retWord (v : Word) (s : State) : State := s.ret { st := none, value := .word v }

/-- End an operation that returns nothing. -/
def State.done (s : State) : State := s.ret Result.nothing

/-- A ring of the state. -/
def State.ring (s : State) : RingId → Ring
  | .rxq => s.rxq
  | .txq => s.txq

/-- Replace a ring of the state. -/
def State.setRing (q : RingId) (r : Ring) (s : State) : State :=
  match q with
  | .rxq => { s with rxq := r }
  | .txq => { s with txq := r }

/-- The state of a role (R33). -/
def State.conn (s : State) : Role → RoleState
  | .rx => s.rxConn
  | .tx => s.txConn

/-- Set the state of a role (R217). -/
def State.setConn (role : Role) (c : RoleState) (s : State) : State :=
  match role with
  | .rx => { s with rxConn := c }
  | .tx => { s with txConn := c }

/-- The view choice of a side in the current operation (R128). -/
def State.lag (s : State) : Side → Nat
  | .writer => s.inp.lagW
  | .reader => s.inp.lagR

/-! ### The interrupt -/

/-- `notify(level)` (R10, R40). -/
def notify (level : Bool) (s : State) : State := { s with irqEvents := s.irqEvents ++ [level] }

/-- `ClearLatch()` (R183): notifies exactly when the level changes. -/
def clearLatch (s : State) : State :=
  if s.irqLatch then notify false { s with irqLatch := false } else s

/-- `UpdateLatch(a)` (R185), under both values of `IRQ_FOLLOW`. -/
def updateLatch (a : Bool) (s : State) : State :=
  if s.par.irqFollow then
    if a != s.irqLatch then notify a { s with irqHold := irqHoldLoad, irqLatch := a } else s
  else if a && !s.irqLatch then notify true { s with irqHold := irqHoldLoad, irqLatch := true }
  else s

/-- An assertion (R240, the analogue of trap entry): MODE is forced to `0x000f` (R186), and the latch, the hold counter
and the notification follow R185. Nothing else changes. -/
def assertInterrupt (s : State) : State :=
  updateLatch true { s with x := { s.x with mode := 0x000f } }

/-- The acknowledge (R161, R242, the analogue of trap return): STATUS and the latch are cleared and the consumer is
notified, unconditionally; the hold counter is left as it is. -/
def acknowledge (s : State) : State :=
  notify false { s with x := { s.x with status := 0 }, irqLatch := false }

/-! ### Ring operations on the state -/

/-- Store what a ring operation leaves of ring `q`. -/
def applyRing (q : RingId) (p : Ring × Result) (s : State) : State × Result := (s.setRing q p.1, p.2)

/-- `RB_WRITE q, bytes` (R121). -/
def rbWrite (q : RingId) (lag : Nat) (bytes : List Byte) (s : State) : State × Result :=
  applyRing q ((s.ring q).write s.par.ringN s.par.ringView lag bytes) s

/-- `RB_READ q, len` (R122). -/
def rbRead (q : RingId) (lag len : Nat) (s : State) : State × Result :=
  applyRing q ((s.ring q).read s.par.ringN s.par.ringView lag len) s

/-- `RB_PEEK q, len` (R123). -/
def rbPeek (q : RingId) (lag len : Nat) (s : State) : State × Result :=
  applyRing q ((s.ring q).peek s.par.ringN s.par.ringView lag len) s

/-- `RB_CONSUME q, n` (R124); `none` is `refuse(consume_beyond_used)`. -/
def rbConsume (q : RingId) (lag n : Nat) (s : State) : Option (State × Result) :=
  match (s.ring q).consume s.par.ringN s.par.ringView lag n with
  | some p => some (applyRing q p s)
  | none => none

/-- `RB_USED q, side` (R125). -/
def rbUsed (q : RingId) (lag : Nat) (side : Side) (s : State) : State × Result :=
  applyRing q ((s.ring q).countUsed s.par.ringN s.par.ringView lag side) s

/-- `RB_FREE q, side` (R126). -/
def rbFree (q : RingId) (lag : Nat) (side : Side) (s : State) : State × Result :=
  applyRing q ((s.ring q).countFree s.par.ringN s.par.ringView lag side) s

/-- `RB_CLEAR q` (R127). -/
def rbClear (q : RingId) (s : State) : State := s.setRing q (s.ring q).clear

/-! ### Transport operations on the state -/

/-- `LT_CONNECTED` (R141): both roles connected. -/
def ltConnected (s : State) : Bool := s.rxConn == .connected && s.txConn == .connected

/-- `LT_RECEIVE size` (R142): the role test first; the ring's `WouldBlock` becomes a count of 0, the empty sequence. -/
def ltReceive (lag size : Nat) (s : State) : State × Result :=
  if s.rxConn = .connected then
    let p := rbRead .rxq lag size s
    if p.2.st = some .wouldBlock then (p.1, Result.okWith (.bytes [])) else p
  else (s, Result.signal .notConnected)

/-- `LT_SEND bytes` (R143): the role test first; the emptiness test in the writer's view, after the refresh and before
the write (D14; log entry 19); a drain pass is scheduled only when the write succeeded and the ring was empty. -/
def ltSend (lag : Nat) (bytes : List Byte) (s : State) : State × Result :=
  if s.txConn = .connected then
    let wasEmpty := (s.txq.refresh s.par.ringN s.par.ringView lag .writer).usedBy s.par.ringN .writer == 0
    let p := rbWrite .txq lag bytes s
    if p.2.st = some .ok ∧ wasEmpty = true then ({ p.1 with drainKicks := p.1.drainKicks + 1 }, p.2) else p
  else (s, Result.signal .notConnected)

/-! ### Background operations inside a tick (R182) -/

/-- The side of ring `q` that agent `BG` is (R120). -/
def bgSide : RingId → Side
  | .rxq => .writer
  | .txq => .reader

/-- One background operation, with the effect its own rule gives it. -/
def runBgOp (m : MidOp) (s : State) : Except Refusal (State × Result) :=
  match m.op with
  | .write bytes => .ok (rbWrite .rxq m.lag bytes s)
  | .read len => .ok (rbRead .txq m.lag len s)
  | .peek len => .ok (rbPeek .txq m.lag len s)
  | .consume n =>
    match rbConsume .txq m.lag n s with
    | some p => .ok p
    | none => .error .consumeBeyondUsed
  | .used q => .ok (rbUsed q m.lag (bgSide q) s)
  | .free q => .ok (rbFree q m.lag (bgSide q) s)
  | .clear q => .ok (rbClear q s, Result.okWith .none)
  | .envConn role c => .ok (s.setConn role c, Result.nothing)

/-- The background operations of a list, in order, each result kept for `BG`. After `STOP` the background has no step
(R211). -/
def runMid (l : List MidOp) (s : State) : Except Refusal State :=
  match l with
  | [] => .ok s
  | m :: rest =>
    if s.bgRunning then
      match runBgOp m s with
      | .ok p => runMid rest { p.1 with midOut := p.1.midOut ++ [p.2] }
      | .error e => .error e
    else .error .bgStopped

/-! ### Ownership (R120, R245) -/

/-- The one agent that may issue an operation: `FG` the `H`, `M`, `E` and `T` operations and its sides of the rings, `BG`
the other sides, `RB_CLEAR` and `ENV_CONN` (R245; log entry 10). -/
def owner : Instr → Agent
  | .rdStatus _ | .rdMode _ | .rdControl _ | .rdStart _ => .fg
  | .rdRxSize _ | .rdTxSize _ | .rdRxOffset _ | .rdTxOffset _ => .fg
  | .wrStatus _ _ | .wrMode _ _ | .wrControl _ _ | .wrStart _ _ => .fg
  | .wrRxSize _ _ | .wrTxSize _ _ | .wrRxOffset _ _ | .wrTxOffset _ _ => .fg
  | .rdRam _ | .wrRam _ _ => .fg
  | .tick | .reset _ _ _ _ _ | .stop => .fg
  | .rbWrite .rxq _ => .bg
  | .rbWrite .txq _ => .fg
  | .rbRead .rxq _ | .rbPeek .rxq _ | .rbConsume .rxq _ => .fg
  | .rbRead .txq _ | .rbPeek .txq _ | .rbConsume .txq _ => .bg
  | .rbUsed .rxq .writer | .rbFree .rxq .writer => .bg
  | .rbUsed .rxq .reader | .rbFree .rxq .reader => .fg
  | .rbUsed .txq .writer | .rbFree .txq .writer => .fg
  | .rbUsed .txq .reader | .rbFree .txq .reader => .bg
  | .rbClear _ => .bg
  | .ltConnected | .ltReceive _ | .ltSend _ => .fg
  | .envConn _ _ => .bg

/-- Why an issued operation is not admitted: the wrong agent (R120, R235), or the background after `STOP` (R211). -/
def admission (a : Agent) (i : Instr) (s : State) : Option Refusal :=
  if a = owner i then
    if a = .bg ∧ s.bgRunning = false then some .bgStopped else none
  else some .wrongSide

end Sys2Proof.Machine
end

