-- ==== Sys2Proof/Machine/HostPort.lean ====
section
/-!
DEFINITION. The `H` and `M` operations (spec/42_host_access.md). The mirror bit is an operand without effect (R92,
R150). No host access raises a signal (R150).
-/
namespace Sys2Proof.Machine

/-! ### Register reads -/

/-- `RD_STATUS` (R151). -/
def execRdStatus (_m : Bool) (s : State) : Host.Outcome State Fault Refusal :=
  .next (s.retWord (statusValue s.x))

/-- `RD_MODE` (R152). -/
def execRdMode (_m : Bool) (s : State) : Host.Outcome State Fault Refusal :=
  .next (s.retWord s.x.mode)

/-- `RD_CONTROL` (R153). -/
def execRdControl (_m : Bool) (s : State) : Host.Outcome State Fault Refusal :=
  .next (s.retWord s.x.control)

/-- `RD_START` (R154). -/
def execRdStart (_m : Bool) (s : State) : Host.Outcome State Fault Refusal :=
  .next (s.retWord s.x.start)

/-- `RD_RXSIZE` (R155). -/
def execRdRxSize (_m : Bool) (s : State) : Host.Outcome State Fault Refusal :=
  .next (s.retWord s.x.rxSize)

/-- `RD_TXSIZE` (R156). -/
def execRdTxSize (_m : Bool) (s : State) : Host.Outcome State Fault Refusal :=
  .next (s.retWord s.x.txSize)

/-- `RD_RXOFFSET` (R157): bit 12 forced in the value returned, the stored value unchanged. -/
def execRdRxOffset (_m : Bool) (s : State) : Host.Outcome State Fault Refusal :=
  .next (s.retWord (s.x.rxOffset ||| 0x1000))

/-- `RD_TXOFFSET` (R158). -/
def execRdTxOffset (_m : Bool) (s : State) : Host.Outcome State Fault Refusal :=
  .next (s.retWord s.x.txOffset)

/-! ### Register writes -/

/-- `WR_STATUS d` (R161): the data is discarded. -/
def execWrStatus (_m : Bool) (_d : Word) (s : State) : Host.Outcome State Fault Refusal :=
  .next (acknowledge s).done

/-- `WR_MODE d` (R162). -/
def execWrMode (_m : Bool) (d : Word) (s : State) : Host.Outcome State Fault Refusal :=
  .next { s with x := { s.x with mode := maskMode d } }.done

/-- `WR_CONTROL d` (R163). -/
def execWrControl (_m : Bool) (d : Word) (s : State) : Host.Outcome State Fault Refusal :=
  .next { s with x := { s.x with control := maskControl d } }.done

/-- `WR_START d` (R164). -/
def execWrStart (_m : Bool) (d : Word) (s : State) : Host.Outcome State Fault Refusal :=
  .next { s with x := { s.x with start := maskStart d } }.done

/-- `WR_RXSIZE d` (R165). -/
def execWrRxSize (_m : Bool) (d : Word) (s : State) : Host.Outcome State Fault Refusal :=
  .next { s with x := { s.x with rxSize := maskSize d } }.done

/-- `WR_TXSIZE d` (R166): the masked value also loads `txBlock` with 12 ticks a word. -/
def execWrTxSize (_m : Bool) (d : Word) (s : State) : Host.Outcome State Fault Refusal :=
  .next { s with x := { s.x with txSize := maskSize d }, txBlock := delayOf (maskSize d).toNat }.done

/-- `WR_RXOFFSET d` (R167). -/
def execWrRxOffset (_m : Bool) (d : Word) (s : State) : Host.Outcome State Fault Refusal :=
  .next { s with x := { s.x with rxOffset := maskOffset d } }.done

/-- `WR_TXOFFSET d` (R168). -/
def execWrTxOffset (_m : Bool) (d : Word) (s : State) : Host.Outcome State Fault Refusal :=
  .next { s with x := { s.x with txOffset := maskOffset d } }.done

/-! ### RAM accesses -/

/-- `RD_RAM addr` (R169). -/
def execRdRam (addr : RamAddr) (s : State) : Host.Outcome State Fault Refusal :=
  .next (s.retWord (ramValue (Memory.read s.ram addr.toNat)))

/-- `WR_RAM addr, d` (R170). -/
def execWrRam (addr : RamAddr) (d : Word) (s : State) : Host.Outcome State Fault Refusal :=
  .next { s with ram := Memory.write s.ram addr.toNat (ramData d) }.done

end Sys2Proof.Machine
end

