-- ==== Sys2Proof/WellFormed.lean ====
section
/-!
DEFINITION. What the operand types do not say by themselves: the four strings of `RESET` are ASCII
(spec/44_lifecycle_env.md R212; 93_implementation_defined.md U8).
-/
namespace Sys2Proof

/-- An ASCII string: every byte below `0x80`. -/
def isAscii (s : List Byte) : Bool :=
  s.all fun b => b.toNat < 0x80

/-- The well-formed operations. Every other operand is well formed by its type; `forward = true` is a well-formed
operand that the meaning of `RESET` refuses (R213). -/
def Instr.wf : Instr → Bool
  | .reset lh lp rh rp _ => isAscii lh && isAscii lp && isAscii rh && isAscii rp
  | .rdStatus _ | .rdMode _ | .rdControl _ | .rdStart _ | .rdRxSize _ | .rdTxSize _ | .rdRxOffset _ | .rdTxOffset _ => true
  | .wrStatus _ _ | .wrMode _ _ | .wrControl _ _ | .wrStart _ _ => true
  | .wrRxSize _ _ | .wrTxSize _ _ | .wrRxOffset _ _ | .wrTxOffset _ _ => true
  | .rdRam _ | .wrRam _ _ | .tick | .stop => true
  | .rbWrite _ _ | .rbRead _ _ | .rbPeek _ _ | .rbConsume _ _ | .rbUsed _ _ | .rbFree _ _ | .rbClear _ => true
  | .ltConnected | .ltReceive _ | .ltSend _ | .envConn _ _ => true

end Sys2Proof
end

