-- ==== Sys2Proof/Machine/Lifecycle.lean ====
section
/-!
DEFINITION. `RESET`, `STOP` and `ENV_CONN` (spec/44_lifecycle_env.md).
-/
namespace Sys2Proof.Machine

/-- The state after a `RESET` that is not refused (R210, R41): the RAM and the ring storage are left as they are, the
background runs again. -/
def resetState (remoteHost remotePort : List Byte) (fwd : Bool) (s : State) : State :=
  { s with
    x := s.par.regReset
    txBlock := 0
    txDelay := 0
    rxDelay := 0
    irqHold := 0
    irqLatch := false
    rxq := s.rxq.clear
    txq := s.txq.clear
    linkId := linkIdOf remoteHost remotePort
    forward := fwd
    endpoint := s.inp.resolved
    rxConn := .idle
    txConn := .idle
    irqEvents := []
    drainKicks := 0
    bgRunning := true }

/-- `RESET lh, lp, rh, rp, fwd` (R210): refused for strings that are not ASCII (D31, U8) and for `fwd = true` (R213,
D32). The local and remote strings reach the Endpoint through the environment's resolver, whose answer is the free value
`inp.resolved` (log entry 16). -/
def execReset (localHost localPort remoteHost remotePort : List Byte) (forward : Bool) (s : State) :
    Host.Outcome State Fault Refusal :=
  if isAscii localHost && isAscii localPort && isAscii remoteHost && isAscii remotePort then
    if forward then .refused .forwardMode
    else .next (resetState remoteHost remotePort forward s).done
  else .refused .nonAscii

/-- `STOP` (R211): roles to `Idle`, the background has no further step, everything else kept. -/
def execStop (s : State) : Host.Outcome State Fault Refusal :=
  .next { s with rxConn := .idle, txConn := .idle, bgRunning := false }.done

/-- `ENV_CONN role, state` (R217). -/
def execEnvConn (role : Role) (state : RoleState) (s : State) : Host.Outcome State Fault Refusal :=
  .next (s.setConn role state).done

end Sys2Proof.Machine
end

