-- ==== Sys2Proof/Machine/RingPort.lean ====
section
/-!
DEFINITION. The `Q` operations (spec/40_ringbuffer.md). Each begins with the view refresh of its side, whose choice is
the free value `lag` of the current inputs (R128).
-/
namespace Sys2Proof.Machine

/-- End an operation with a state and the result it returns. -/
def finish (p : State × Result) : Host.Outcome State Fault Refusal := .next (p.1.ret p.2)

/-- `RB_WRITE q, bytes` (R121). -/
def execRbWrite (q : RingId) (bytes : List Byte) (s : State) : Host.Outcome State Fault Refusal :=
  finish (rbWrite q (s.lag .writer) bytes s)

/-- `RB_READ q, len` (R122). -/
def execRbRead (q : RingId) (len : Nat) (s : State) : Host.Outcome State Fault Refusal :=
  finish (rbRead q (s.lag .reader) len s)

/-- `RB_PEEK q, len` (R123). -/
def execRbPeek (q : RingId) (len : Nat) (s : State) : Host.Outcome State Fault Refusal :=
  finish (rbPeek q (s.lag .reader) len s)

/-- `RB_CONSUME q, n` (R124): refused when `n` is more than the reader side sees (U2, D9). -/
def execRbConsume (q : RingId) (n : Nat) (s : State) : Host.Outcome State Fault Refusal :=
  match rbConsume q (s.lag .reader) n s with
  | some p => finish p
  | none => .refused .consumeBeyondUsed

/-- `RB_USED q, side` (R125). -/
def execRbUsed (q : RingId) (side : Side) (s : State) : Host.Outcome State Fault Refusal :=
  finish (rbUsed q (s.lag side) side s)

/-- `RB_FREE q, side` (R126). -/
def execRbFree (q : RingId) (side : Side) (s : State) : Host.Outcome State Fault Refusal :=
  finish (rbFree q (s.lag side) side s)

/-- `RB_CLEAR q` (R127). The result code is `Ok`, as for every `Q` operation (R104; log entry 9). -/
def execRbClear (q : RingId) (s : State) : Host.Outcome State Fault Refusal :=
  finish (rbClear q s, Result.okWith .none)

end Sys2Proof.Machine
end

