-- ==== Sys2Proof/Machine/Tick.lean ====
section
/-!
DEFINITION. `TICK` (spec/43_tick_engine.md R181): the seven steps in order, each seeing the state the steps before it
left.
-/
namespace Sys2Proof.Machine

/-- Step 1, the hold counter (R183). -/
def tickHold (s : State) : State :=
  if s.irqHold = 0 then s
  else
    let s1 := { s with irqHold := s.irqHold - 1 }
    if s1.irqHold = 0 then clearLatch s1 else s1

/-- Step 2, the policy, MODE and the latch (R184, R185, R186). -/
def tickPolicy (s : State) : State :=
  if policyNow s then assertInterrupt s else updateLatch false s

/-- Step 3 (R187). -/
def tickTxBlock (s : State) : State :=
  if s.txBlock = 0 then s else { s with txBlock := s.txBlock - 1 }

/-- Step 4 (R187): TXSIZE is cleared in the tick in which `txDelay` reaches 0. -/
def tickTxDelay (s : State) : State :=
  if s.txDelay = 0 then s
  else
    let s1 := { s with txDelay := s.txDelay - 1 }
    if s1.txDelay = 0 then { s1 with x := { s1.x with txSize := 0 } } else s1

/-- Step 5 (R187). -/
def tickRxDelay (s : State) : State :=
  if s.rxDelay = 0 then s else { s with rxDelay := s.rxDelay - 1 }

/-- The frame a transmit pass builds from a state (R189). -/
def txFrame (s : State) : List Byte :=
  buildFrame (noSyncFlag s.x) s.linkId s.ram s.x.txOffset s.x.txSize.toNat

/-- The transmit pass (R188, R190): nothing when halted or when TXSIZE is 0; `txDelay` is loaded only when the send
succeeded, and a failed send changes nothing but the writer side's view (R230). -/
def transmitPass (s : State) : State :=
  if haltFlag s.x = true ∨ s.x.txSize = 0 then s
  else
    let p := ltSend (s.lag .writer) (txFrame s) s
    if p.2.st = some .ok then { p.1 with txDelay := delayOf s.x.txSize.toNat } else p.1

/-- Step 6 (R188). -/
def tickTransmit (s : State) : State :=
  if s.txBlock = 0 ∧ s.txDelay = 0 then transmitPass s else s

/-- Unpacking a received frame and the register update (R193). -/
def unpackFrame (f : List Byte) (s : State) : State :=
  let n := frameCount f
  { s with
    ram := unpackRam f s.x.rxOffset n s.ram
    x := { s.x with
      status := if unpackSync f n then s.x.status ||| syncMask s.par else s.x.status
      rxSize := (s.x.rxSize - BitVec.ofNat 16 n) &&& 0x00ff
      rxOffset := (s.x.rxOffset + BitVec.ofNat 16 n) &&& 0x0fff }
    rxDelay := delayOf n }

/-- The receive pass (R191, R192): at most one frame; `NotConnected` and the count 0 make it a no-op. -/
def receivePass (s : State) : State :=
  let p := ltReceive (s.lag .reader) frameBytes s
  match p.2.value with
  | .bytes [] => p.1
  | .bytes f => unpackFrame f p.1
  | _ => p.1

/-- Step 7 (R191). -/
def tickReceive (s : State) : State :=
  if s.rxDelay = 0 then receivePass s else s

/-- Steps 1 to 6 of a tick. -/
def tickBefore (s : State) : State :=
  tickTransmit (tickRxDelay (tickTxDelay (tickTxBlock (tickPolicy (tickHold s)))))

/-- `TICK` (R181). Background operations may fall between the transmit pass and the receive pass (R182): they are the
inputs `mid` of the tick, and a tick is refused only if one of them is (log entry 8). -/
def execTick (s : State) : Host.Outcome State Fault Refusal :=
  match runMid s.inp.mid (tickBefore { s with midOut := [] }) with
  | .ok s1 => .next (tickReceive s1).done
  | .error e => .refused e

end Sys2Proof.Machine
end

