-- ==== Sys2Proof/Machine/Transport.lean ====
section
/-!
DEFINITION. The `T` operations (spec/41_link_transport.md), all issued by `FG` and none waiting (R140).
-/
namespace Sys2Proof.Machine

/-- `LT_CONNECTED` (R141). -/
def execLtConnected (s : State) : Host.Outcome State Fault Refusal :=
  finish (s, Result.okWith (.bool (ltConnected s)))

/-- `LT_RECEIVE size` (R142). -/
def execLtReceive (size : Nat) (s : State) : Host.Outcome State Fault Refusal :=
  finish (ltReceive (s.lag .reader) size s)

/-- `LT_SEND bytes` (R143). -/
def execLtSend (bytes : List Byte) (s : State) : Host.Outcome State Fault Refusal :=
  finish (ltSend (s.lag .writer) bytes s)

end Sys2Proof.Machine
end

