-- ==== Sys2Proof/Machine/Dispatch.lean ====
section
/-!
DEFINITION. One arm per operation.
-/
namespace Sys2Proof.Machine

def exec (i : Instr) (s : State) : Host.Outcome State Fault Refusal :=
  match i with
  | .rdStatus m => Sys2Proof.Machine.execRdStatus m s
  | .rdMode m => Sys2Proof.Machine.execRdMode m s
  | .rdControl m => Sys2Proof.Machine.execRdControl m s
  | .rdStart m => Sys2Proof.Machine.execRdStart m s
  | .rdRxSize m => Sys2Proof.Machine.execRdRxSize m s
  | .rdTxSize m => Sys2Proof.Machine.execRdTxSize m s
  | .rdRxOffset m => Sys2Proof.Machine.execRdRxOffset m s
  | .rdTxOffset m => Sys2Proof.Machine.execRdTxOffset m s
  | .wrStatus m d => Sys2Proof.Machine.execWrStatus m d s
  | .wrMode m d => Sys2Proof.Machine.execWrMode m d s
  | .wrControl m d => Sys2Proof.Machine.execWrControl m d s
  | .wrStart m d => Sys2Proof.Machine.execWrStart m d s
  | .wrRxSize m d => Sys2Proof.Machine.execWrRxSize m d s
  | .wrTxSize m d => Sys2Proof.Machine.execWrTxSize m d s
  | .wrRxOffset m d => Sys2Proof.Machine.execWrRxOffset m d s
  | .wrTxOffset m d => Sys2Proof.Machine.execWrTxOffset m d s
  | .rdRam addr => Sys2Proof.Machine.execRdRam addr s
  | .wrRam addr d => Sys2Proof.Machine.execWrRam addr d s
  | .tick => Sys2Proof.Machine.execTick s
  | .reset lh lp rh rp fwd => Sys2Proof.Machine.execReset lh lp rh rp fwd s
  | .stop => Sys2Proof.Machine.execStop s
  | .rbWrite q bytes => Sys2Proof.Machine.execRbWrite q bytes s
  | .rbRead q len => Sys2Proof.Machine.execRbRead q len s
  | .rbPeek q len => Sys2Proof.Machine.execRbPeek q len s
  | .rbConsume q n => Sys2Proof.Machine.execRbConsume q n s
  | .rbUsed q side => Sys2Proof.Machine.execRbUsed q side s
  | .rbFree q side => Sys2Proof.Machine.execRbFree q side s
  | .rbClear q => Sys2Proof.Machine.execRbClear q s
  | .ltConnected => Sys2Proof.Machine.execLtConnected s
  | .ltReceive size => Sys2Proof.Machine.execLtReceive size s
  | .ltSend bytes => Sys2Proof.Machine.execLtSend bytes s
  | .envConn role state => Sys2Proof.Machine.execEnvConn role state s

end Sys2Proof.Machine
end

