-- ==== Sys2Proof/Decode.lean ====
section
/-!
DEFINITION. The decoder and the encoder (spec/30_encoding.md R90 to R92, R101, R102). The decoder is total on any code
byte with any operand list and rejects by name; the encoder is written from the code column of R101.
-/
namespace Sys2Proof

/-- Why an operation word spells no operation. -/
inductive DecodeError where
  /-- R102: a reserved operation code (`refuse(reserved_code)`), the reserved ring function 7 and the reserved role
  state 3 among them. -/
  | reservedCode
  /-- R90, R91: the operands are not the ones the format names (number, kind or width). -/
  | badOperands
  /-- U8, D31: a string operand of `RESET` is not ASCII. -/
  | nonAscii
deriving DecidableEq, Repr

/-! ### Fields of the code byte (R91) -/

/-- `op[7:4]`, the format. -/
def formatField (op : BitVec 8) : Nat := op.toNat / 16

/-- `op[3:0]`. -/
def lowField (op : BitVec 8) : Nat := op.toNat % 16

/-- `op[3]`: the mirror bit of an `H` code, the ring of a `Q` code. -/
def bit3 (op : BitVec 8) : Bool := op.getLsbD 3

/-- `op[2:0]`: the register number of an `H` code, the function of a `Q` code. -/
def low3 (op : BitVec 8) : Nat := op.toNat % 8

/-- Bit 3 of a `Q` code: 0 is `RXQ`, 1 is `TXQ` (R91). -/
def ringOf (b : Bool) : RingId := if b then .txq else .rxq

/-- Bit 2 of a `V` code: 0 is the receive role, 1 the transmit role (R91). -/
def roleOf (b : Bool) : Role := if b then .tx else .rx

/-! ### Operand values (R91, R94) -/

/-- A `u16` operand. -/
def wordOperand (n : Nat) : Except DecodeError Word :=
  if n < 65536 then .ok (BitVec.ofNat 16 n) else .error .badOperands

/-- A `u13` operand (R94). -/
def addrOperand (n : Nat) : Except DecodeError RamAddr :=
  if n < 8192 then .ok (BitVec.ofNat 13 n) else .error .badOperands

/-- The `side` operand: 0 writer side, 1 reader side (R91). -/
def sideOperand : Nat → Except DecodeError Side
  | 0 => .ok .writer
  | 1 => .ok .reader
  | _ => .error .badOperands

/-- A bool operand, 0 or 1. -/
def boolOperand : Nat → Except DecodeError Bool
  | 0 => .ok false
  | 1 => .ok true
  | _ => .error .badOperands

/-- Apply a constructor to an operand that may be out of its range. -/
def withOperand {α : Type} (v : Except DecodeError α) (f : α → Instr) : Except DecodeError Instr :=
  match v with
  | .ok a => .ok (f a)
  | .error e => .error e

/-! ### The formats -/

/-- Format `H`, read: `op[7:4] = 0000` (R91), register `k` (R92, R93). -/
def decodeHostRead (m : Bool) (k : Nat) (ops : List Operand) : Except DecodeError Instr :=
  match ops with
  | [] =>
    match k with
    | 0 => .ok (.rdStatus m)
    | 1 => .ok (.rdMode m)
    | 2 => .ok (.rdControl m)
    | 3 => .ok (.rdStart m)
    | 4 => .ok (.rdRxSize m)
    | 5 => .ok (.rdTxSize m)
    | 6 => .ok (.rdRxOffset m)
    | 7 => .ok (.rdTxOffset m)
    | _ => .error .reservedCode
  | _ => .error .badOperands

/-- Format `H`, write: `op[7:4] = 0001`, operand `d`. -/
def decodeHostWrite (m : Bool) (k : Nat) (ops : List Operand) : Except DecodeError Instr :=
  match ops with
  | [.num d] =>
    match k with
    | 0 => withOperand (wordOperand d) (.wrStatus m)
    | 1 => withOperand (wordOperand d) (.wrMode m)
    | 2 => withOperand (wordOperand d) (.wrControl m)
    | 3 => withOperand (wordOperand d) (.wrStart m)
    | 4 => withOperand (wordOperand d) (.wrRxSize m)
    | 5 => withOperand (wordOperand d) (.wrTxSize m)
    | 6 => withOperand (wordOperand d) (.wrRxOffset m)
    | 7 => withOperand (wordOperand d) (.wrTxOffset m)
    | _ => .error .reservedCode
  | _ => .error .badOperands

/-- Format `M`: `op[7:4] = 0010`, `op[3:1] = 000`, `op[0] = rw`. -/
def decodeRam (lo : Nat) (ops : List Operand) : Except DecodeError Instr :=
  match lo with
  | 0 =>
    match ops with
    | [.num a] => withOperand (addrOperand a) .rdRam
    | _ => .error .badOperands
  | 1 =>
    match ops with
    | [.num a, .num d] =>
      match addrOperand a with
      | .ok addr => withOperand (wordOperand d) (.wrRam addr)
      | .error e => .error e
    | _ => .error .badOperands
  | _ => .error .reservedCode

/-- The operands of `RESET` (R210): four strings and a bool. -/
def decodeReset (ops : List Operand) : Except DecodeError Instr :=
  match ops with
  | [.seq lh, .seq lp, .seq rh, .seq rp, .num fwd] =>
    if isAscii lh && isAscii lp && isAscii rh && isAscii rp then
      withOperand (boolOperand fwd) (.reset lh lp rh rp)
    else .error .nonAscii
  | _ => .error .badOperands

/-- Format `E`: `op[7:4] = 0011`. -/
def decodeEvent (lo : Nat) (ops : List Operand) : Except DecodeError Instr :=
  match lo with
  | 0 => if ops = [] then .ok .tick else .error .badOperands
  | 1 => decodeReset ops
  | 2 => if ops = [] then .ok .stop else .error .badOperands
  | _ => .error .reservedCode

/-- Format `Q`: `op[7:4] = 0100`, `op[3] = q`, `op[2:0] = f`, function 7 reserved. -/
def decodeRing (q : RingId) (f : Nat) (ops : List Operand) : Except DecodeError Instr :=
  match f with
  | 0 => match ops with
    | [.seq bytes] => .ok (.rbWrite q bytes)
    | _ => .error .badOperands
  | 1 => match ops with
    | [.num len] => .ok (.rbRead q len)
    | _ => .error .badOperands
  | 2 => match ops with
    | [.num len] => .ok (.rbPeek q len)
    | _ => .error .badOperands
  | 3 => match ops with
    | [.num n] => .ok (.rbConsume q n)
    | _ => .error .badOperands
  | 4 => match ops with
    | [.num side] => withOperand (sideOperand side) (.rbUsed q)
    | _ => .error .badOperands
  | 5 => match ops with
    | [.num side] => withOperand (sideOperand side) (.rbFree q)
    | _ => .error .badOperands
  | 6 => if ops = [] then .ok (.rbClear q) else .error .badOperands
  | _ => .error .reservedCode

/-- Format `T`: `op[7:4] = 0101`. -/
def decodeTransport (lo : Nat) (ops : List Operand) : Except DecodeError Instr :=
  match lo with
  | 0 => if ops = [] then .ok .ltConnected else .error .badOperands
  | 1 => match ops with
    | [.num size] => .ok (.ltReceive size)
    | _ => .error .badOperands
  | 2 => match ops with
    | [.seq bytes] => .ok (.ltSend bytes)
    | _ => .error .badOperands
  | _ => .error .reservedCode

/-- Format `V`: `op[7:4] = 0110`, `op[3] = 0`, `op[2] = role`, `op[1:0] = state`, state 3 reserved. -/
def decodeEnv (lo : Nat) (ops : List Operand) : Except DecodeError Instr :=
  if ops = [] then
    match lo with
    | 0 => .ok (.envConn .rx .idle)
    | 1 => .ok (.envConn .rx .pending)
    | 2 => .ok (.envConn .rx .connected)
    | 4 => .ok (.envConn .tx .idle)
    | 5 => .ok (.envConn .tx .pending)
    | 6 => .ok (.envConn .tx .connected)
    | _ => .error .reservedCode
  else if lo = 3 ∨ 7 ≤ lo then .error .reservedCode
  else .error .badOperands

/-- The decoder (R90): `op[7:4]` gives the format, then the fields of that format. Formats `0111` to `1111` are
reserved (R102). -/
def decode (w : OpWord) : Except DecodeError Instr :=
  match formatField w.code with
  | 0 => decodeHostRead (bit3 w.code) (low3 w.code) w.operands
  | 1 => decodeHostWrite (bit3 w.code) (low3 w.code) w.operands
  | 2 => decodeRam (lowField w.code) w.operands
  | 3 => decodeEvent (lowField w.code) w.operands
  | 4 => decodeRing (ringOf (bit3 w.code)) (low3 w.code) w.operands
  | 5 => decodeTransport (lowField w.code) w.operands
  | 6 => decodeEnv (lowField w.code) w.operands
  | _ => .error .reservedCode

/-! ### The encoder -/

/-- The code of an `H` operation: base `0x00` (read) or `0x10` (write), mirror bit 8, register number. -/
def hostCode (base : BitVec 8) (m : Bool) (k : BitVec 8) : BitVec 8 :=
  base ||| (if m then 0x08 else 0x00) ||| k

/-- The code of a `Q` operation: `0x40`, ring bit 8, function. -/
def ringCode (q : RingId) (f : BitVec 8) : BitVec 8 :=
  0x40 ||| (match q with | .rxq => 0x00 | .txq => 0x08) ||| f

/-- The code of `ENV_CONN`: `0x60`, role bit 4, state (R91). -/
def envCode (role : Role) (state : RoleState) : BitVec 8 :=
  0x60 ||| (match role with | .rx => 0x00 | .tx => 0x04) |||
    (match state with | .idle => 0x00 | .pending => 0x01 | .connected => 0x02)

/-- The number of a `side` operand (R91). -/
def sideCode : Side → Nat
  | .writer => 0
  | .reader => 1

/-- The operation word of an operation (R91, R101). -/
def encode : Instr → OpWord
  | .rdStatus m => ⟨hostCode 0x00 m 0, []⟩
  | .rdMode m => ⟨hostCode 0x00 m 1, []⟩
  | .rdControl m => ⟨hostCode 0x00 m 2, []⟩
  | .rdStart m => ⟨hostCode 0x00 m 3, []⟩
  | .rdRxSize m => ⟨hostCode 0x00 m 4, []⟩
  | .rdTxSize m => ⟨hostCode 0x00 m 5, []⟩
  | .rdRxOffset m => ⟨hostCode 0x00 m 6, []⟩
  | .rdTxOffset m => ⟨hostCode 0x00 m 7, []⟩
  | .wrStatus m d => ⟨hostCode 0x10 m 0, [.num d.toNat]⟩
  | .wrMode m d => ⟨hostCode 0x10 m 1, [.num d.toNat]⟩
  | .wrControl m d => ⟨hostCode 0x10 m 2, [.num d.toNat]⟩
  | .wrStart m d => ⟨hostCode 0x10 m 3, [.num d.toNat]⟩
  | .wrRxSize m d => ⟨hostCode 0x10 m 4, [.num d.toNat]⟩
  | .wrTxSize m d => ⟨hostCode 0x10 m 5, [.num d.toNat]⟩
  | .wrRxOffset m d => ⟨hostCode 0x10 m 6, [.num d.toNat]⟩
  | .wrTxOffset m d => ⟨hostCode 0x10 m 7, [.num d.toNat]⟩
  | .rdRam addr => ⟨0x20, [.num addr.toNat]⟩
  | .wrRam addr d => ⟨0x21, [.num addr.toNat, .num d.toNat]⟩
  | .tick => ⟨0x30, []⟩
  | .reset lh lp rh rp fwd => ⟨0x31, [.seq lh, .seq lp, .seq rh, .seq rp, .num fwd.toNat]⟩
  | .stop => ⟨0x32, []⟩
  | .rbWrite q bytes => ⟨ringCode q 0, [.seq bytes]⟩
  | .rbRead q len => ⟨ringCode q 1, [.num len]⟩
  | .rbPeek q len => ⟨ringCode q 2, [.num len]⟩
  | .rbConsume q n => ⟨ringCode q 3, [.num n]⟩
  | .rbUsed q side => ⟨ringCode q 4, [.num (sideCode side)]⟩
  | .rbFree q side => ⟨ringCode q 5, [.num (sideCode side)]⟩
  | .rbClear q => ⟨ringCode q 6, []⟩
  | .ltConnected => ⟨0x50, []⟩
  | .ltReceive size => ⟨0x51, [.num size]⟩
  | .ltSend bytes => ⟨0x52, [.seq bytes]⟩
  | .envConn role state => ⟨envCode role state, []⟩

/-! ### The opcode table -/

/-- One row of spec/opcode_table.json: the code byte `op` belongs to the row when `op &&& mask = pattern`. -/
structure OpcodeRow where
  mnemonic : String
  pattern  : BitVec 8
  mask     : BitVec 8
deriving DecidableEq, Repr

/-- The row of an operation: mnemonic, match and mask of spec/opcode_table.json. -/
def opcodeRow : Instr → OpcodeRow
  | .rdStatus _ => ⟨"RD_STATUS", 0x00, 0xf7⟩
  | .rdMode _ => ⟨"RD_MODE", 0x01, 0xf7⟩
  | .rdControl _ => ⟨"RD_CONTROL", 0x02, 0xf7⟩
  | .rdStart _ => ⟨"RD_START", 0x03, 0xf7⟩
  | .rdRxSize _ => ⟨"RD_RXSIZE", 0x04, 0xf7⟩
  | .rdTxSize _ => ⟨"RD_TXSIZE", 0x05, 0xf7⟩
  | .rdRxOffset _ => ⟨"RD_RXOFFSET", 0x06, 0xf7⟩
  | .rdTxOffset _ => ⟨"RD_TXOFFSET", 0x07, 0xf7⟩
  | .wrStatus _ _ => ⟨"WR_STATUS", 0x10, 0xf7⟩
  | .wrMode _ _ => ⟨"WR_MODE", 0x11, 0xf7⟩
  | .wrControl _ _ => ⟨"WR_CONTROL", 0x12, 0xf7⟩
  | .wrStart _ _ => ⟨"WR_START", 0x13, 0xf7⟩
  | .wrRxSize _ _ => ⟨"WR_RXSIZE", 0x14, 0xf7⟩
  | .wrTxSize _ _ => ⟨"WR_TXSIZE", 0x15, 0xf7⟩
  | .wrRxOffset _ _ => ⟨"WR_RXOFFSET", 0x16, 0xf7⟩
  | .wrTxOffset _ _ => ⟨"WR_TXOFFSET", 0x17, 0xf7⟩
  | .rdRam _ => ⟨"RD_RAM", 0x20, 0xff⟩
  | .wrRam _ _ => ⟨"WR_RAM", 0x21, 0xff⟩
  | .tick => ⟨"TICK", 0x30, 0xff⟩
  | .reset _ _ _ _ _ => ⟨"RESET", 0x31, 0xff⟩
  | .stop => ⟨"STOP", 0x32, 0xff⟩
  | .rbWrite _ _ => ⟨"RB_WRITE", 0x40, 0xf7⟩
  | .rbRead _ _ => ⟨"RB_READ", 0x41, 0xf7⟩
  | .rbPeek _ _ => ⟨"RB_PEEK", 0x42, 0xf7⟩
  | .rbConsume _ _ => ⟨"RB_CONSUME", 0x43, 0xf7⟩
  | .rbUsed _ _ => ⟨"RB_USED", 0x44, 0xf7⟩
  | .rbFree _ _ => ⟨"RB_FREE", 0x45, 0xf7⟩
  | .rbClear _ => ⟨"RB_CLEAR", 0x46, 0xf7⟩
  | .ltConnected => ⟨"LT_CONNECTED", 0x50, 0xff⟩
  | .ltReceive _ => ⟨"LT_RECEIVE", 0x51, 0xff⟩
  | .ltSend _ => ⟨"LT_SEND", 0x52, 0xff⟩
  | .envConn _ _ => ⟨"ENV_CONN", 0x60, 0xf8⟩

/-! ### A word of the opcode table -/

/-- The operands of a code byte, all zero: number 0, the empty sequence, the empty string. The table gives operands
no bits (R90), so this is what its one-byte words stand for (log entry 2). -/
def zeroOperands (op : BitVec 8) : List Operand :=
  match formatField op, lowField op with
  | 1, _ => [.num 0]
  | 2, 0 => [.num 0]
  | 2, 1 => [.num 0, .num 0]
  | 3, 1 => [.seq [], .seq [], .seq [], .seq [], .num 0]
  | 4, lo => match lo % 8 with
    | 0 => [.seq []]
    | 6 => []
    | 7 => []
    | _ => [.num 0]
  | 5, 1 => [.num 0]
  | 5, 2 => [.seq []]
  | _, _ => []

/-- The operation word of a code byte with zero operands. -/
def tableWord (op : BitVec 8) : OpWord := ⟨op, zeroOperands op⟩

/-- The operation the decoder reads from a table word `w` of `nbits` bits. The code is one byte (R90): a longer word
is read only if the bits above the byte, which stand for operand words, are zero. -/
def decodeTableWord (nbits w : Nat) : Option Instr :=
  if 8 ≤ nbits ∧ w < 256 then
    match decode (tableWord (BitVec.ofNat 8 w)) with
    | .ok i => some i
    | .error _ => none
  else none

end Sys2Proof
end

