-- ==== Sys2Proof/Machine/Issue.lean ====
section
/-!
DEFINITION. How the next operation reaches the block. The block fetches nothing and has no program counter (R34, R84,
R247): the agents issue operations, and `pending` lists them in the order in which they are issued (log entry 1).
-/
namespace Sys2Proof.Machine

/-- Take the next issue: its inputs become the inputs of the current operation (R42). -/
def State.take (iss : Issue) (rest : List Issue) (s : State) : State :=
  { s with inp := iss.inp, pending := rest }

/-- The refusal that reports a decoding error. -/
def refusalOf (w : OpWord) : DecodeError → Refusal
  | .reservedCode => .reservedCode w.code
  | .badOperands => .badOperands w.code
  | .nonAscii => .nonAscii

/-- The operation of an issue in a state: decoded (R90), then admitted only to the agent that owns it (R120, R245) and
to a background that runs (R211). -/
def admitted (iss : Issue) (s : State) : Except Refusal Instr :=
  match decode iss.word with
  | .error e => .error (refusalOf iss.word e)
  | .ok i =>
    match admission iss.agent i s with
    | some r => .error r
    | none => .ok i

/-- The issue of a table word: the word with zero operands, issued by the agent that owns its operation. -/
def tableIssue (op : BitVec 8) : Issue :=
  { agent := match decode (tableWord op) with
      | .ok i => owner i
      | .error _ => .fg
    word := tableWord op
    inp := StepInput.plain }

end Sys2Proof.Machine
end

