-- ==== Sys2Proof/Machine/Step.lean ====
section
/-!
DEFINITION. One step: the next operation in the order of issue, decoded, admitted and performed.
-/
namespace Sys2Proof.Machine

/-- One step. With no operation to come the block stands still: between operations nothing happens (R34; log
entry 26). -/
def step (s : State) : Host.Outcome State Fault Refusal :=
  match s.pending with
  | [] => .next s
  | iss :: rest =>
    match admitted iss (s.take iss rest) with
    | .ok i => exec i (s.take iss rest)
    | .error r => .refused r

/-- `s` with the operation of table word `w` as the next one issued, by the agent that owns it (log entry 1). -/
def State.withFetchWord (s : State) (_nbits w : Nat) : State :=
  { s with pending := tableIssue (BitVec.ofNat 8 w) :: s.pending }

end Sys2Proof.Machine
end

