-- ==== Sys2Proof/Machine/Pseudo.lean ====
section
/-!
DEFINITION. The pseudo-operations of spec/30_encoding.md R107, as the issues they expand to, and the frame notation.
-/
namespace Sys2Proof.Machine

/-- An operation issued by the agent that owns it, with the inputs given. -/
def issueOf (inp : StepInput) (i : Instr) : Issue := { agent := owner i, word := encode i, inp := inp }

/-- `TICKS k`, one tick for each of the inputs. -/
def ticksIssues (inps : List StepInput) : List Issue := inps.map fun inp => issueOf inp .tick

/-- `RD_REG a`: the `H` operation with code `0x00 | a`. -/
def rdRegIssue (inp : StepInput) (a : BitVec 4) : Issue :=
  { agent := .fg, word := ⟨0x00#8 ||| a.setWidth 8, []⟩, inp := inp }

/-- `WR_REG a, d`: the `H` operation with code `0x10 | a`. -/
def wrRegIssue (inp : StepInput) (a : BitVec 4) (d : Word) : Issue :=
  { agent := .fg, word := ⟨0x10#8 ||| a.setWidth 8, [.num d.toNat]⟩, inp := inp }

/-- `FRAME(id, n; w0, w1, ...)`: the listed words big-endian, zeros up to byte 1021, identifier, count. -/
def frameOf (id : Byte) (n : Nat) (words : List Word) : List Byte :=
  words.flatMap wordBytes ++ List.replicate (1022 - 2 * words.length) 0x00 ++ [id, BitVec.ofNat 8 n]

/-- `BG_PUSH bytes`. -/
def bgPush (inp : StepInput) (bytes : List Byte) : Issue := issueOf inp (.rbWrite .rxq bytes)

/-- `BG_POP len`. -/
def bgPop (inp : StepInput) (len : Nat) : Issue := issueOf inp (.rbRead .txq len)

/-- `BG_DROP_RX`, the receive-role disconnect of R219. -/
def bgDropRx (inp : StepInput) : List Issue :=
  [issueOf inp (.envConn .rx .idle), issueOf inp (.rbClear .rxq), issueOf inp (.envConn .rx .pending)]

/-- `BG_DROP_TX`, the transmit-role write error of R220. -/
def bgDropTx (inp : StepInput) : List Issue :=
  [issueOf inp (.envConn .tx .idle), issueOf inp (.rbClear .txq), issueOf inp (.envConn .tx .pending)]

/-- `LINK_UP`. -/
def linkUp (inp : StepInput) : List Issue :=
  [issueOf inp (.envConn .rx .connected), issueOf inp (.envConn .tx .connected)]

end Sys2Proof.Machine
end

