-- ==== Sys2Proof/Safety.lean ====
section
/-!
DEFINITION. What the statements speak of: legal parameters (spec/00_scope.md R8), the invariant of the state (R20, R21,
R30 to R32, R131), runs of operations with their inputs, the byte history of a ring (R130), the fairness of infinite
runs (R87), and the environment's contract (R214 to R220), which the model does not enforce.
-/
namespace Sys2Proof

open Sys2Proof.Machine

/-! ### The invariant -/

/-- Every register within its mask (R20); STATUS stores nothing but the sync bit (R21). -/
structure Regs.Within (p : Params) (x : Regs) : Prop where
  status   : x.status = 0 ∨ x.status = syncMask p
  mode     : x.mode.toNat ≤ 0x000f
  control  : x.control.toNat ≤ 0x0003
  start    : x.start.toNat ≤ 0x0003
  rxSize   : x.rxSize.toNat ≤ 0x00ff
  txSize   : x.txSize.toNat ≤ 0x00ff
  rxOffset : x.rxOffset.toNat ≤ 0x1fff
  txOffset : x.txOffset.toNat ≤ 0x1fff

/-- Legal parameters (R8): `RING_N >= 1025`, each `REG_RESET[k]` within its mask. -/
structure Params.Legal (p : Params) : Prop where
  ringN    : 1025 ≤ p.ringN
  regReset : Regs.Within p p.regReset

namespace Machine

/-- Under `RING_VIEW = sc` the views are the cursors (R31). -/
def Ring.ViewsAgree (v : RingView) (q : Ring) : Prop := v = .sc → q.wv = q.w ∧ q.rv = q.r

/-- The invariant of the state. -/
structure State.Inv (s : State) : Prop where
  par      : s.par.Legal
  regs     : Regs.Within s.par s.x
  ram      : Memory.wf ramWords s.ram = true
  rxq      : s.rxq.wf s.par.ringN = true
  txq      : s.txq.wf s.par.ringN = true
  rxViews  : s.rxq.ViewsAgree s.par.ringView
  txViews  : s.txq.ViewsAgree s.par.ringView
  txBlock  : s.txBlock.toNat ≤ 3060
  txDelay  : s.txDelay.toNat ≤ 3060
  rxDelay  : s.rxDelay.toNat ≤ 3060
  irqHold  : s.irqHold ≤ 4
  forward  : s.forward = false
  stopped  : s.bgRunning = false → s.rxConn = .idle ∧ s.txConn = .idle

/-! ### Runs -/

/-- The operations of a list performed in order, each with its own inputs; the first stop ends the run. -/
def runOps (l : List (Instr × StepInput)) (s : State) : Host.Outcome State Fault Refusal :=
  match l with
  | [] => .next s
  | (i, inp) :: rest =>
    match exec i { s with inp := inp } with
    | .next t => runOps rest t
    | .fault f => .fault f
    | .refused r => .refused r

/-- One `TICK` for each of the inputs. -/
def runTicks (inps : List StepInput) (s : State) : Host.Outcome State Fault Refusal :=
  runOps (inps.map fun inp => (.tick, inp)) s

/-- Inputs of a tick inside which no background operation falls. -/
def StepInput.Quiet (inp : StepInput) : Prop := inp.mid = []

/-- A background operation the model never refuses while the background runs: any but `RB_CONSUME` (R124). -/
def BgOp.neverRefused : BgOp → Bool
  | .consume _ => false
  | _ => true

/-- The operation a background operation inside a tick is, when it is issued on its own (R182, R245). -/
def BgOp.instr : BgOp → Instr
  | .write bytes => .rbWrite .rxq bytes
  | .read len => .rbRead .txq len
  | .peek len => .rbPeek .txq len
  | .consume n => .rbConsume .txq n
  | .used q => .rbUsed q (bgSide q)
  | .free q => .rbFree q (bgSide q)
  | .clear q => .rbClear q
  | .envConn role c => .envConn role c

/-- The next step stops neither by fault nor by refusal. -/
def State.SafeStep (s : State) : Prop := ∃ t, step s = .next t

/-- A run of `k` steps that never stops. -/
def State.SafeFor : Nat → State → Prop
  | 0, _ => True
  | k + 1, s => ∃ t, step s = .next t ∧ State.SafeFor k t

/-! ### The byte history of a ring (R130) -/

/-- The bytes a ring accepted and the bytes it gave out since its last clear. -/
structure History where
  accepted : List Byte
  given    : List Byte
deriving DecidableEq, Repr

/-- The bytes of a result. -/
def Result.bytes (r : Result) : List Byte :=
  match r.value with
  | .bytes b => b
  | _ => []

/-- The ring accepts bytes. -/
def History.accept (h : History) (b : List Byte) : History := { h with accepted := h.accepted ++ b }

/-- The ring gives bytes out. -/
def History.give (h : History) (b : List Byte) : History := { h with given := h.given ++ b }

/-- The ring gives out, unseen, the next `n` of the bytes it accepted. -/
def History.skip (h : History) (n : Nat) : History := h.give ((h.accepted.drop h.given.length).take n)

/-- A fresh history, after a clear. -/
def History.fresh : History := { accepted := [], given := [] }

/-- How one background operation inside a tick, with the result it returned, extends the history of ring `q`. -/
def History.note (q : RingId) (h : History) (p : MidOp × Result) : History :=
  match p.1.op with
  | .write bytes => if q = .rxq ∧ p.2.st = some .ok then h.accept bytes else h
  | .read _ => if q = .txq ∧ p.2.st = some .ok then h.give p.2.bytes else h
  | .consume n => if q = .txq then h.skip n else h
  | .clear q' => if q' = q then History.fresh else h
  | .peek _ | .used _ | .free _ | .envConn _ _ => h

/-- The bytes the tick from `s` to `t` queued on `TXQ`: the frame of R189 if `txDelay` was loaded, which only a send that
succeeded does (R190), else none. The packing variant follows MODE after step 2 (R186). -/
def frameQueued (s t : State) : List Byte :=
  if s.txDelay = 0 ∧ t.txDelay ≠ 0 then
    buildFrame (if policyNow s then false else !s.x.mode.getLsbD 0) s.linkId s.ram s.x.txOffset s.x.txSize.toNat
  else []

/-- Whether the tick from `s` to `t` took a frame from `RXQ`: the read cursor stands elsewhere than where the tick, or a
clear inside it, had it. -/
def frameTaken (s t : State) : Bool :=
  t.rxq.r != (if s.inp.mid.any (fun m => m.op == .clear .rxq) then 0 else s.rxq.r)

/-- How a tick from `s` to `t` extends the history of ring `q`: what it queued, then what the background operations
inside it did (R182), then the frame it took. -/
def History.tick (q : RingId) (h : History) (s t : State) : History :=
  let h1 := if q = .txq then h.accept (frameQueued s t) else h
  let h2 := (s.inp.mid.zip t.midOut).foldl (History.note q) h1
  if q = .rxq ∧ frameTaken s t = true then h2.skip frameBytes else h2

/-- How operation `i`, performed from `s` and answering `t`, extends the history of ring `q`: bytes of a write or send
that returned `Ok`; bytes of a read or receive that returned `Ok`; bytes skipped by a consume; a fresh history after a
clear or a reset; for a `TICK`, `History.tick`. -/
def History.extend (q : RingId) (h : History) (i : Instr) (s t : State) : History :=
  match i with
  | .rbWrite q' bytes => if q' = q ∧ t.out.st = some .ok then h.accept bytes else h
  | .rbRead q' _ => if q' = q ∧ t.out.st = some .ok then h.give t.out.bytes else h
  | .rbConsume q' n => if q' = q then h.give (((s.ring q).contents s.par.ringN).take n) else h
  | .rbClear q' => if q' = q then History.fresh else h
  | .reset _ _ _ _ _ => History.fresh
  | .ltReceive _ => if q = .rxq ∧ t.out.st = some .ok then h.give t.out.bytes else h
  | .ltSend bytes => if q = .txq ∧ t.out.st = some .ok then h.accept bytes else h
  | .tick => h.tick q s t
  | _ => h

/-- The final state and the history of ring `q` over a list of operations none of which stops. -/
def runHistory (q : RingId) (l : List (Instr × StepInput)) (s : State) (h : History) : Option (State × History) :=
  match l with
  | [] => some (s, h)
  | (i, inp) :: rest =>
    match exec i { s with inp := inp } with
    | .next t => runHistory q rest t (h.extend q i { s with inp := inp } t)
    | .fault _ => none
    | .refused _ => none

/-! ### Which operations move a cursor (R131) -/

/-- Whether a background operation may move the write cursor of ring `q`. -/
def BgOp.movesWriteCursor (q : RingId) : BgOp → Bool
  | .write _ => q == .rxq
  | .clear q' => q' == q
  | .read _ | .peek _ | .consume _ | .used _ | .free _ | .envConn _ _ => false

/-- Whether a background operation may move the read cursor of ring `q`. -/
def BgOp.movesReadCursor (q : RingId) : BgOp → Bool
  | .read _ | .consume _ => q == .txq
  | .clear q' => q' == q
  | .write _ | .peek _ | .used _ | .free _ | .envConn _ _ => false

/-- Whether an operation with its inputs may move the write cursor of ring `q`: a write or send, a clear (R131), and a tick
that may do one of them. -/
def movesWriteCursor (q : RingId) (inp : StepInput) (i : Instr) : Bool :=
  match i with
  | .rbWrite q' _ => q' == q
  | .rbClear q' => q' == q
  | .ltSend _ => q == .txq
  | .tick => q == .txq || inp.mid.any fun m => m.op.movesWriteCursor q
  | .reset _ _ _ _ _ => true
  | _ => false

/-- Whether an operation with its inputs may move the read cursor of ring `q`: a read, consume or receive, a clear (R131),
and a tick that may do one of them. -/
def movesReadCursor (q : RingId) (inp : StepInput) (i : Instr) : Bool :=
  match i with
  | .rbRead q' _ => q' == q
  | .rbConsume q' _ => q' == q
  | .rbClear q' => q' == q
  | .ltReceive _ => q == .rxq
  | .tick => q == .rxq || inp.mid.any fun m => m.op.movesReadCursor q
  | .reset _ _ _ _ _ => true
  | _ => false

/-! ### Fairness (spec/20_memory.md R87)

R87 is an assumption on infinite runs: if a side performs ring operations infinitely often, every cursor value the other
side published is eventually observed. No safety statement uses it (log entry 22). -/

/-- An infinite run: operation `op k` with its inputs takes `st k` to `st (k + 1)`, and an operation of the background is
performed only while the background runs (R211). -/
def IsRun (op : Nat → Instr × StepInput) (st : Nat → State) : Prop :=
  ∀ k, exec (op k).1 { st k with inp := (op k).2 } = .next (st (k + 1)) ∧
    (owner (op k).1 = .bg → (st k).bgRunning = true)

/-- The view a side holds of the other side's cursor (R31). -/
def Ring.view (side : Side) (q : Ring) : Nat :=
  match side with
  | .writer => q.rv
  | .reader => q.wv

/-- The cursor a side observes, as last published. -/
def Ring.published (side : Side) (q : Ring) : Nat :=
  match side with
  | .writer => q.r
  | .reader => q.w

/-- How many bytes a side's view lies behind the cursor it follows. -/
def Ring.behind (n : Nat) (side : Side) (q : Ring) : Nat := dist n (q.view side) (q.published side)

/-- Whether an operation performed on its own is a ring operation of a side of ring `q`, and so refreshes its view
(R120, R128). -/
def ringActs (q : RingId) (side : Side) : Instr → Bool
  | .rbWrite q' _ => q' == q && side == .writer
  | .rbRead q' _ | .rbPeek q' _ | .rbConsume q' _ => q' == q && side == .reader
  | .rbUsed q' d | .rbFree q' d => q' == q && d == side
  | _ => false

/-- Whether operation `i` with inputs `inp`, performed from `s` and answering `t`, performs a ring operation of a side of
ring `q`: on its own, through the transport while the role is connected (R142, R143), in a pass of a tick (R188, R191),
or as a background operation inside a tick (R182). Step 7 sees the role state the tick leaves. -/
def Acts (q : RingId) (side : Side) (i : Instr) (inp : StepInput) (s t : State) : Prop :=
  match i with
  | .ltReceive _ => q = .rxq ∧ side = .reader ∧ s.rxConn = .connected
  | .ltSend _ => q = .txq ∧ side = .writer ∧ s.txConn = .connected
  | .tick =>
    (∃ m ∈ inp.mid, ringActs q side m.op.instr = true) ∨
    (q = .rxq ∧ side = .reader ∧ s.rxDelay.toNat ≤ 1 ∧ t.rxConn = .connected) ∨
    (q = .txq ∧ side = .writer ∧ s.txBlock.toNat ≤ 1 ∧ s.txDelay = 0 ∧ s.x.control.getLsbD 0 = false ∧ s.x.txSize ≠ 0 ∧
      s.txConn = .connected)
  | i => ringActs q side i = true

/-- Whether operation `i` with inputs `inp` clears ring `q`. -/
def clearsRing (q : RingId) (inp : StepInput) (i : Instr) : Bool :=
  match i with
  | .rbClear q' => q' == q
  | .tick => inp.mid.any fun m => m.op == .clear q
  | .reset _ _ _ _ _ => true
  | _ => false

/-- How many bytes a side's view of ring `q` moves forward in the `k` steps from `st j` on. -/
def viewAdvance (q : RingId) (side : Side) (st : Nat → State) (j : Nat) : Nat → Nat
  | 0 => 0
  | k + 1 => viewAdvance q side st j k +
      Ring.dist (st (j + k)).par.ringN (((st (j + k)).ring q).view side) (((st (j + k + 1)).ring q).view side)

/-- Weak fairness (R87): if a side of a ring acts infinitely often, then from every moment on its view comes to move over
all the bytes by which it then lay behind the published cursor, unless the ring is cleared first. Cursors are positions
modulo `N`, so "observed" is counted in bytes moved over. -/
def Fair (op : Nat → Instr × StepInput) (st : Nat → State) : Prop :=
  ∀ (q : RingId) (side : Side),
    (∀ j, ∃ k, j ≤ k ∧ Acts q side (op k).1 (op k).2 (st k) (st (k + 1))) →
    ∀ j, ∃ k, ((st j).ring q).behind (st j).par.ringN side ≤ viewAdvance q side st j k ∨
      ∃ i, j ≤ i ∧ i < j + k ∧ clearsRing q (op i).2 (op i).1 = true

/-! ### The environment's contract, not enforced by the model (log entry 23) -/

end Machine

/-- The role of a ring (R214, R215): `RXQ` belongs to the receive role, `TXQ` to the transmit role. -/
def RingId.role : RingId → Role
  | .rxq => .rx
  | .txq => .tx

/-- The moves of the two role machines (R219, R220). -/
def RoleState.contractMove : RoleState → RoleState → Bool
  | .idle, .pending => true
  | .pending, .pending => true
  | .pending, .connected => true
  | .connected, .idle => true
  | _, _ => false

namespace Machine

/-- Whether an operation of `BG` keeps the contract: it writes `RXQ` and drains `TXQ` only while that role is connected
(R214, R215), clears a ring only once its role has left `Connected` (R216, R245), and moves a role as R219 and R220
say. -/
def keepsContract (i : Instr) (s : State) : Bool :=
  match i with
  | .rbWrite .rxq _ => s.rxConn == .connected
  | .rbRead .txq _ => s.txConn == .connected
  | .rbPeek .txq _ => s.txConn == .connected
  | .rbConsume .txq _ => s.txConn == .connected
  | .rbClear q => s.conn q.role != .connected
  | .envConn role c => (s.conn role).contractMove c
  | _ => true

end Machine
end Sys2Proof
end

