-- ==== Sys2Proof/Certificates/Slice0/Obligations.lean ====
section
/-!
DEFINITION. The statements for the provers. A conclusion `exec i s = .next t` with `t` written as `s` with some fields
replaced says the whole frame: every field not named is that of `s`. `Ring.dist N a b` is `(b - a) mod N`. `Inv` is the
invariant of Safety.lean, which every step keeps (`StepKeepsTheInvariant`) and the reset state has
(`ResetStateHasTheInvariant`).
-/

open Sys2Proof Sys2Proof.Machine

/-! ### Host register accesses (spec/42_host_access.md) -/

/-- R151 to R158: each register read returns the value of the register map, for both mirrors, and changes nothing but
the result port. -/
def Obligations.HostReadsReturnTheRegisterMapValue : Prop :=
  ∀ (m : Bool) (s : State),
    exec (.rdStatus m) s = .next { s with out := Result.mk none (.word
      (s.x.status ||| (if s.x.txSize = 0 then 0x0004 else 0) ||| (if s.x.rxSize = 0 then 0x0008 else 0))) } ∧
    exec (.rdMode m) s = .next { s with out := { st := none, value := .word s.x.mode } } ∧
    exec (.rdControl m) s = .next { s with out := { st := none, value := .word s.x.control } } ∧
    exec (.rdStart m) s = .next { s with out := { st := none, value := .word s.x.start } } ∧
    exec (.rdRxSize m) s = .next { s with out := { st := none, value := .word s.x.rxSize } } ∧
    exec (.rdTxSize m) s = .next { s with out := { st := none, value := .word s.x.txSize } } ∧
    exec (.rdRxOffset m) s = .next { s with out := { st := none, value := .word (s.x.rxOffset ||| 0x1000) } } ∧
    exec (.rdTxOffset m) s = .next { s with out := { st := none, value := .word s.x.txOffset } }

/-- R21 with R151: bit by bit, what a STATUS read returns in a state with the invariant. -/
def Obligations.StatusReadBitByBit : Prop :=
  ∀ (m : Bool) (s : State), s.Inv → ∃ v : Word,
    exec (.rdStatus m) s = .next { s with out := { st := none, value := .word v } } ∧
    v.getLsbD 2 = decide (s.x.txSize = 0) ∧
    v.getLsbD 3 = decide (s.x.rxSize = 0) ∧
    v.getLsbD s.par.syncBit.val = s.x.status.getLsbD s.par.syncBit.val ∧
    ∀ k, k ≠ 2 → k ≠ 3 → k ≠ s.par.syncBit.val → v.getLsbD k = false

/-- R159: no host read, of a register or of the RAM, changes any state but the result port; a register read returns no bit
outside the register's mask, and the RXOFFSET read always has bit 12 set, which lies inside its mask. -/
def Obligations.HostReadsStayInsideTheMask : Prop :=
  ∀ (m : Bool) (s : State), s.Inv →
    (∀ p ∈ [(Instr.rdStatus m, 0x000f#16), (.rdMode m, 0x000f#16), (.rdControl m, 0x0003#16), (.rdStart m, 0x0003#16),
        (.rdRxSize m, 0x00ff#16), (.rdTxSize m, 0x00ff#16), (.rdRxOffset m, 0x1fff#16), (.rdTxOffset m, 0x1fff#16)],
      ∃ v : Word, exec p.1 s = .next { s with out := { st := none, value := .word v } } ∧
        v &&& ~~~p.2 = 0 ∧ (p.1 = .rdRxOffset m → v.getLsbD 12 = true)) ∧
    ∀ addr : RamAddr, ∃ v : Word, exec (.rdRam addr) s = .next { s with out := { st := none, value := .word v } }

/-- R162 to R165, R167, R168: the plain register writes store the masked data, both mirrors alike, and do nothing
else. -/
def Obligations.PlainHostWritesStoreMaskedData : Prop :=
  ∀ (m : Bool) (d : Word) (s : State),
    exec (.wrMode m d) s = .next { s with x := { s.x with mode := d &&& 0x000f }, out := Result.nothing } ∧
    exec (.wrControl m d) s = .next { s with x := { s.x with control := d &&& 0x0003 }, out := Result.nothing } ∧
    exec (.wrStart m d) s = .next { s with x := { s.x with start := d &&& 0x0003 }, out := Result.nothing } ∧
    exec (.wrRxSize m d) s = .next { s with x := { s.x with rxSize := d &&& 0x00ff }, out := Result.nothing } ∧
    exec (.wrRxOffset m d) s = .next { s with x := { s.x with rxOffset := d &&& 0x1fff }, out := Result.nothing } ∧
    exec (.wrTxOffset m d) s = .next { s with x := { s.x with txOffset := d &&& 0x1fff }, out := Result.nothing }

/-- R166: a TXSIZE write stores the masked value and loads `txBlock` with 12 times it, whatever `txBlock` held, and
leaves `txDelay` and everything else. -/
def Obligations.TxSizeWriteLoadsTxBlock : Prop :=
  ∀ (m : Bool) (d : Word) (s : State), ∃ b : Word,
    exec (.wrTxSize m d) s =
      .next { s with x := { s.x with txSize := d &&& 0x00ff }, txBlock := b, out := Result.nothing } ∧
    b.toNat = (d.toNat % 256) * 12

/-- R161, R277: a STATUS write stores nothing of its data, clears STATUS and the latch, notifies `false` even when the latch
was already false, and leaves `irqHoldCount` and everything else. That it always notifies and does nothing beside its three
effects is the spec's decision D25. -/
def Obligations.StatusWriteAcknowledges : Prop :=
  ∀ (m : Bool) (d : Word) (s : State),
    exec (.wrStatus m d) s =
      .next { s with x := { s.x with status := 0 }, irqLatch := false, irqEvents := s.irqEvents ++ [false],
                     out := Result.nothing }

/-- R92: window addresses `a` and `a + 8` are the same register, for reads and for writes, side effects included: the
same step follows from either code byte. That the two copies differ in nothing is the spec's own reading of "mirrored" as
full aliasing (R92, marked derived there; D33). -/
def Obligations.MirroredWindowAddressesStepAlike : Prop :=
  ∀ (a : BitVec 4) (d : Word) (inp : StepInput) (rest : List Issue) (s : State),
    step { s with pending := rdRegIssue inp a :: rest } = step { s with pending := rdRegIssue inp (a ^^^ 8) :: rest } ∧
    step { s with pending := wrRegIssue inp a d :: rest } =
      step { s with pending := wrRegIssue inp (a ^^^ 8) d :: rest } ∧
    ∃ t u, step { s with pending := rdRegIssue inp a :: rest } = .next t ∧
      step { s with pending := wrRegIssue inp a d :: rest } = .next u

/-- R170, R61: a RAM write stores the low 9 bits of its data in the entry addressed, and leaves every other entry and
everything else. -/
def Obligations.RamWriteStoresNineBits : Prop :=
  ∀ (addr : RamAddr) (d : Word) (s : State), s.Inv → ∃ ram : Memory 9,
    exec (.wrRam addr d) s = .next { s with ram := ram, out := Result.nothing } ∧
    (Memory.read ram addr.toNat).toNat = d.toNat % 512 ∧
    ∀ a, a ≠ addr.toNat → Memory.read ram a = Memory.read s.ram a

/-- R169: a RAM read returns the entry addressed, zero-extended, and changes nothing else. -/
def Obligations.RamReadReturnsTheEntry : Prop :=
  ∀ (addr : RamAddr) (s : State), ∃ v : Word,
    exec (.rdRam addr) s = .next { s with out := { st := none, value := .word v } } ∧
    v.toNat = (Memory.read s.ram addr.toNat).toNat ∧ v.toNat < 512

/-- R84: a host write to RAM is seen by every later host read: a read of the address just written returns the low 9
bits of the data, at every address of the window. -/
def Obligations.RamReadAfterWrite : Prop :=
  ∀ (addr : RamAddr) (d : Word) (s t : State), s.Inv → exec (.wrRam addr d) s = .next t →
    ∃ v : Word, exec (.rdRam addr) t = .next { t with out := { st := none, value := .word v } } ∧
      v.toNat = d.toNat % 512

/-! ### The ring operations (spec/40_ringbuffer.md) -/

/-- R121: `RB_WRITE`. The writer side's view is refreshed within the bounds of R128; then all the bytes are stored and
the write cursor advances, or nothing is written and the answer is `Overflow`. -/
def Obligations.RingWriteIsAllOrNothing : Prop :=
  ∀ (q : RingId) (bytes : List Byte) (s : State), s.Inv → ∃ (r : Ring) (res : Result),
    exec (.rbWrite q bytes) s = .next ((s.setRing q r).ret res) ∧
    Ring.dist s.par.ringN (s.ring q).r (s.ring q).w ≤ Ring.dist s.par.ringN r.rv (s.ring q).w ∧
    Ring.dist s.par.ringN r.rv (s.ring q).w ≤ Ring.dist s.par.ringN (s.ring q).rv (s.ring q).w ∧
    (s.par.ringView = .sc → r.rv = (s.ring q).r) ∧
    (bytes.length ≤ s.par.ringN - 1 - Ring.dist s.par.ringN r.rv (s.ring q).w →
      res = { st := some .ok, value := .nat bytes.length } ∧
      r.w = ((s.ring q).w + bytes.length) % s.par.ringN ∧ r.r = (s.ring q).r ∧
      (s.par.ringView = .stale → r.wv = (s.ring q).wv) ∧
      (∀ (j : Nat) (h : j < bytes.length),
        Memory.read r.buf (((s.ring q).w + j) % s.par.ringN) = bytes[j]) ∧
      ∀ a, (∀ j < bytes.length, ((s.ring q).w + j) % s.par.ringN ≠ a) →
        Memory.read r.buf a = Memory.read (s.ring q).buf a) ∧
    (s.par.ringN - 1 - Ring.dist s.par.ringN r.rv (s.ring q).w < bytes.length →
      res = { st := some .overflow, value := .none } ∧ r = { s.ring q with rv := r.rv })

/-- R122: `RB_READ`. The reader side's view is refreshed within the bounds of R128; then exactly `len` bytes are returned
and the read cursor advances, or nothing is read and the answer is `WouldBlock`. The storage is left as it is. -/
def Obligations.RingReadIsAllOrNothing : Prop :=
  ∀ (q : RingId) (len : Nat) (s : State), s.Inv → ∃ (r : Ring) (res : Result),
    exec (.rbRead q len) s = .next ((s.setRing q r).ret res) ∧
    Ring.dist s.par.ringN (s.ring q).r (s.ring q).wv ≤ Ring.dist s.par.ringN (s.ring q).r r.wv ∧
    Ring.dist s.par.ringN (s.ring q).r r.wv ≤ Ring.dist s.par.ringN (s.ring q).r (s.ring q).w ∧
    (s.par.ringView = .sc → r.wv = (s.ring q).w) ∧
    r.buf = (s.ring q).buf ∧ r.w = (s.ring q).w ∧
    (len ≤ Ring.dist s.par.ringN (s.ring q).r r.wv →
      res = Result.mk (some .ok) (.bytes
        ((List.range len).map fun j => Memory.read (s.ring q).buf (((s.ring q).r + j) % s.par.ringN))) ∧
      r.r = ((s.ring q).r + len) % s.par.ringN ∧
      (s.par.ringView = .stale → r.rv = (s.ring q).rv)) ∧
    (Ring.dist s.par.ringN (s.ring q).r r.wv < len →
      res = { st := some .wouldBlock, value := .none } ∧ r = { s.ring q with wv := r.wv })

/-- R123: `RB_PEEK` returns what `RB_READ` returns and leaves all but the reader side's view, so that the same peek again
returns the same bytes. -/
def Obligations.RingPeekReturnsWhatReadReturns : Prop :=
  ∀ (q : RingId) (len : Nat) (s : State), s.Inv → ∃ (v : Nat) (r : Ring) (res : Result),
    exec (.rbPeek q len) s = .next ((s.setRing q { s.ring q with wv := v }).ret res) ∧
    exec (.rbRead q len) s = .next ((s.setRing q r).ret res) ∧ r.wv = v ∧
    ∀ inp : StepInput, res.st = some .ok →
      ∃ w : Nat, exec (.rbPeek q len) { (s.setRing q { s.ring q with wv := v }).ret res with inp := inp } =
        .next { (s.setRing q { s.ring q with wv := w }).ret res with inp := inp }

/-- R124, R274: `RB_CONSUME` advances the read cursor over bytes the reader side sees and is refused when it asks for
more; after a peek of at least as many it is never refused. -/
def Obligations.RingConsumeAdvancesOrIsRefused : Prop :=
  ∀ (q : RingId) (n : Nat) (s : State), s.Inv → ∃ v : Nat,
    Ring.dist s.par.ringN (s.ring q).r (s.ring q).wv ≤ Ring.dist s.par.ringN (s.ring q).r v ∧
    Ring.dist s.par.ringN (s.ring q).r v ≤ Ring.dist s.par.ringN (s.ring q).r (s.ring q).w ∧
    (s.par.ringView = .sc → v = (s.ring q).w) ∧
    (n ≤ Ring.dist s.par.ringN (s.ring q).r v → ∃ rv : Nat,
      exec (.rbConsume q n) s = .next ((s.setRing q
        { s.ring q with wv := v, r := ((s.ring q).r + n) % s.par.ringN, rv := rv }).ret
          { st := some .ok, value := .none }) ∧
      (s.par.ringView = .stale → rv = (s.ring q).rv)) ∧
    (Ring.dist s.par.ringN (s.ring q).r v < n → exec (.rbConsume q n) s = .refused .consumeBeyondUsed) ∧
    (n ≤ Ring.dist s.par.ringN (s.ring q).r (s.ring q).wv → ∃ t, exec (.rbConsume q n) s = .next t)

/-- R124: `RB_PEEK q, n` followed by `RB_CONSUME q, n` has the same effect on the ring as `RB_READ q, n`. -/
def Obligations.PeekThenConsumeIsRead : Prop :=
  ∀ (q : RingId) (n : Nat) (s t : State), s.Inv → exec (.rbPeek q n) s = .next t → t.out.st = some .ok →
    ∃ u, exec (.rbConsume q n) t = .next { u with out := { st := some .ok, value := .none } } ∧
      exec (.rbRead q n) s = .next u ∧ u.out = t.out

/-- R125, R126: `RB_USED` and `RB_FREE` answer from the caller's cursor and its view, refreshed within the bounds of R128,
add up to `N - 1` for one side and one view, and change nothing but that view. The result code `Ok` is the model's reading
of R104 (log entry 9). -/
def Obligations.RingCountsAddUp : Prop :=
  ∀ (q : RingId) (side : Side) (s : State), s.Inv → ∃ (r : Ring) (u f : Nat),
    exec (.rbUsed q side) s = .next ((s.setRing q r).ret { st := some .ok, value := .nat u }) ∧
    exec (.rbFree q side) s = .next ((s.setRing q r).ret { st := some .ok, value := .nat f }) ∧
    u + f = s.par.ringN - 1 ∧
    (side = .reader → r = { s.ring q with wv := r.wv } ∧ u = Ring.dist s.par.ringN (s.ring q).r r.wv ∧
      Ring.dist s.par.ringN (s.ring q).r (s.ring q).wv ≤ u ∧ u ≤ Ring.used s.par.ringN (s.ring q)) ∧
    (side = .writer → r = { s.ring q with rv := r.rv } ∧ u = Ring.dist s.par.ringN r.rv (s.ring q).w ∧
      Ring.used s.par.ringN (s.ring q) ≤ u ∧ u ≤ Ring.dist s.par.ringN (s.ring q).rv (s.ring q).w) ∧
    (s.par.ringView = .sc → u = Ring.used s.par.ringN (s.ring q))

/-- R127: `RB_CLEAR` sets both cursors and both views to 0 and leaves the storage, the other ring and everything else.
The result code `Ok` is the model's reading of R104 (log entry 9). -/
def Obligations.RingClearEmptiesTheRing : Prop :=
  ∀ (q : RingId) (s : State),
    exec (.rbClear q) s =
      .next ((s.setRing q { s.ring q with w := 0, r := 0, wv := 0, rv := 0 }).ret { st := some .ok, value := .none }) ∧
    ∀ t, exec (.rbClear q) s = .next t →
      Ring.used s.par.ringN (t.ring q) = 0 ∧ Ring.free s.par.ringN (t.ring q) = s.par.ringN - 1

/-- R230, R231, R232: an operation that answers `WouldBlock`, `Overflow` or `NotConnected` has changed nothing but one view
of one ring and the result port; from a state with the invariant that view is one R128 admits, and with `NotConnected` not
even a view has changed. -/
def Obligations.SignalsChangeNothingButAView : Prop :=
  ∀ (i : Instr) (s t : State) (c : ResultCode), exec i s = .next t → t.out.st = some c → c ≠ .ok →
    t.out.value = .none ∧ (c = .notConnected → t = { s with out := t.out }) ∧
    ∃ (q : RingId) (v : Nat),
      (t = (s.setRing q { s.ring q with wv := v }).ret t.out ∧ (s.Inv →
        Ring.dist s.par.ringN (s.ring q).r (s.ring q).wv ≤ Ring.dist s.par.ringN (s.ring q).r v ∧
        Ring.dist s.par.ringN (s.ring q).r v ≤ Ring.dist s.par.ringN (s.ring q).r (s.ring q).w)) ∨
      (t = (s.setRing q { s.ring q with rv := v }).ret t.out ∧ (s.Inv →
        Ring.dist s.par.ringN (s.ring q).r (s.ring q).w ≤ Ring.dist s.par.ringN v (s.ring q).w ∧
        Ring.dist s.par.ringN v (s.ring q).w ≤ Ring.dist s.par.ringN (s.ring q).rv (s.ring q).w))

/-- R282: a count is a snapshot that is out of date in the safe direction only. Sizing a write by a previous `RB_FREE` of the
writer side never fails, whatever is performed in between that does not itself write, send to or clear the ring, and
whatever view the write takes; sizing a read by a previous `RB_USED` of the reader side never fails, whatever is performed
in between that does not itself read, consume, receive from or clear the ring. The operations in between may be of either
agent, and ticks among them. -/
def Obligations.SizingByASnapshotNeverFails : Prop :=
  ∀ (q : RingId) (l : List (Instr × StepInput)) (inp : StepInput) (s t u : State) (k : Nat), s.Inv →
    t.out.value = .nat k → runOps l t = .next u →
    (exec (.rbFree q .writer) s = .next t → (∀ p ∈ l, movesWriteCursor q p.2 p.1 = false) →
      ∀ bytes : List Byte, bytes.length ≤ k →
        ∃ v, exec (.rbWrite q bytes) { u with inp := inp } = .next v ∧ v.out.st = some .ok) ∧
    (exec (.rbUsed q .reader) s = .next t → (∀ p ∈ l, movesReadCursor q p.2 p.1 = false) →
      ∀ len ≤ k, ∃ v, exec (.rbRead q len) { u with inp := inp } = .next v ∧ v.out.st = some .ok)

/-- R130, FIFO, as a step lemma over state and history, and over runs: if the bytes a ring accepted are those it gave out
followed by those waiting, then so they are after every operation, a `TICK` with background operations inside it among
them, on either ring and under any choice of views. So the bytes given out are always a prefix of those accepted. That a
clear or a reset overlaps no operation of the other side is the model's assumption (log entry 17; R272, U3). -/
def Obligations.RingIsFirstInFirstOut : Prop :=
  ∀ (q : RingId) (s t : State) (h : History), s.Inv →
    h.accepted = h.given ++ (s.ring q).contents s.par.ringN →
    (∀ i : Instr, exec i s = .next t →
      (h.extend q i s t).accepted = (h.extend q i s t).given ++ (t.ring q).contents s.par.ringN ∧
      (h.extend q i s t).accepted.length - (h.extend q i s t).given.length = Ring.used s.par.ringN (t.ring q)) ∧
    ∀ (l : List (Instr × StepInput)) (h' : History), runHistory q l s h = some (t, h') →
      h'.accepted = h'.given ++ (t.ring q).contents s.par.ringN ∧
      h'.accepted.length - h'.given.length = Ring.used s.par.ringN (t.ring q)

/-! ### The transport operations (spec/41_link_transport.md) -/

/-- R141: `LT_CONNECTED` is true only when both roles are connected, and changes no state. -/
def Obligations.ConnectedNeedsBothRoles : Prop :=
  ∀ s : State, exec .ltConnected s = .next { s with
    out := { st := some .ok, value := .bool (decide (s.rxConn = .connected ∧ s.txConn = .connected)) } }

/-- R142: `LT_RECEIVE` answers `NotConnected` before it looks at the ring; else it reads `size` bytes of `RXQ` as
`RB_READ` does, and too few bytes are the count 0 and no signal. -/
def Obligations.ReceivePollsTheInboundRing : Prop :=
  ∀ (size : Nat) (s : State), s.Inv →
    (s.rxConn ≠ .connected →
      exec (.ltReceive size) s = .next { s with out := { st := some .notConnected, value := .none } }) ∧
    (s.rxConn = .connected → ∃ (t : State) (b : List Byte),
      exec (.ltReceive size) s = .next { t with out := { st := some .ok, value := .bytes b } } ∧
      exec (.rbRead .rxq size) s = .next t ∧
      (t.out.st = some .ok → t.out.value = .bytes b ∧ b.length = size) ∧
      (t.out.st ≠ some .ok → b = [] ∧ t.out.st = some .wouldBlock ∧ t.rxq = { s.rxq with wv := t.rxq.wv }))

/-- R143: `LT_SEND` answers `NotConnected` before it looks at the ring; else it writes `TXQ` as `RB_WRITE` does, and
schedules a drain pass exactly when the write succeeded and the ring was empty in the writer side's view. That the test
uses the very view the write uses, one refresh for both, is the model's reading of R143 (log entry 19). -/
def Obligations.SendWritesTheOutboundRing : Prop :=
  ∀ (bytes : List Byte) (s : State), s.Inv →
    (s.txConn ≠ .connected →
      exec (.ltSend bytes) s = .next { s with out := { st := some .notConnected, value := .none } }) ∧
    (s.txConn = .connected → ∃ t : State,
      exec (.rbWrite .txq bytes) s = .next t ∧
      exec (.ltSend bytes) s = .next { t with
        drainKicks := s.drainKicks +
          (if t.out.st = some .ok ∧ Ring.dist s.par.ringN t.txq.rv s.txq.w = 0 then 1 else 0) } ∧
      (t.out = { st := some .ok, value := .nat bytes.length } ∨
        t.out = { st := some .overflow, value := .none } ∧ t.txq = { s.txq with rv := t.txq.rv }))

/-! ### The tick (spec/43_tick_engine.md) -/

/-- A tick completes, and what it never changes: unless a background operation inside it is one the model refuses (a
consume, or any after `STOP`). R62: the lower half of the RAM is unchanged. R182: with no background operation inside it a
tick leaves the role states. -/
def Obligations.TickCompletes : Prop :=
  ∀ s : State, (∀ m ∈ s.inp.mid, m.op.neverRefused = true) → (s.inp.mid = [] ∨ s.bgRunning = true) → ∃ t,
    exec .tick s = .next t ∧ t.par = s.par ∧ t.x.control = s.x.control ∧ t.x.start = s.x.start ∧
    t.x.txOffset = s.x.txOffset ∧ t.linkId = s.linkId ∧ t.forward = s.forward ∧ t.endpoint = s.endpoint ∧
    t.bgRunning = s.bgRunning ∧ t.inp = s.inp ∧ t.pending = s.pending ∧ t.out = Result.nothing ∧
    (∀ a < 0x1000, Memory.read t.ram a = Memory.read s.ram a) ∧ (∃ l, t.irqEvents = s.irqEvents ++ l) ∧
    s.drainKicks ≤ t.drainKicks ∧ (s.inp.mid = [] → t.rxConn = s.rxConn ∧ t.txConn = s.txConn)

/-- R182: a background operation inside a tick has the effect and the result it has on its own. The first clause compares
the two; the second ties it to the tick: where neither pass runs, a tick leaves the rings and the role states that its
background operations leave when they are performed alone, one after the other, keeps the result of each of them, and is
refused where one of them is (a consume beyond what is seen, R124). That the results are kept in `midOut`, and that the
refusal of one of them refuses the tick, is the model's choice (log entry 8). -/
def Obligations.BackgroundOpsInsideATickActAsAlone : Prop :=
  (∀ (m : MidOp) (u : State), u.bgRunning = true →
    match runBgOp m u with
    | .ok p => exec m.op.instr { u with inp := { u.inp with lagW := m.lag, lagR := m.lag } } =
        .next { p.1 with inp := { u.inp with lagW := m.lag, lagR := m.lag }, out := p.2 }
    | .error e => exec m.op.instr { u with inp := { u.inp with lagW := m.lag, lagR := m.lag } } = .refused e) ∧
  ∀ s : State, s.bgRunning = true → 1 < s.rxDelay.toNat →
    (1 < s.txBlock.toNat ∨ s.txDelay.toNat ≠ 0 ∨ s.x.control.getLsbD 0 = true ∨ s.x.txSize = 0) →
    match runOps (s.inp.mid.map fun m => (m.op.instr, { s.inp with lagW := m.lag, lagR := m.lag })) s with
    | .next u => ∃ t, exec .tick s = .next t ∧ t.rxq = u.rxq ∧ t.txq = u.txq ∧ t.rxConn = u.rxConn ∧
        t.txConn = u.txConn ∧ t.midOut.length = s.inp.mid.length ∧
        (s.inp.mid ≠ [] → t.midOut.getLast? = some u.out)
    | .refused e => exec .tick s = .refused e
    | .fault _ => False

/-- R181, R182: background operations inside a tick fall between the transmit pass and the receive pass, by what can be
seen. A write that completes a frame in `RXQ` has it received in the same tick. A read of `TXQ` sees the frame the transmit
pass of that tick queued. A read of `TXQ` makes no room for the transmit pass of that tick: where even the newest view
leaves too little, nothing is sent, however much is read. That the results are kept in `midOut` is the model's choice (log
entry 8). -/
def Obligations.TickRunsBackgroundOpsBetweenThePasses : Prop :=
  (∀ (bytes : List Byte) (lag : Nat) (s : State), s.Inv → s.bgRunning = true →
    s.inp.mid = [{ op := .write bytes, lag := lag }] → s.inp.lagR = 0 → s.rxDelay.toNat ≤ 1 → s.rxConn = .connected →
    bytes.length ≤ s.par.ringN - 1 - Ring.dist s.par.ringN s.rxq.rv s.rxq.w →
    1024 ≤ Ring.used s.par.ringN s.rxq + bytes.length → ∃ t, exec .tick s = .next t ∧
      t.midOut = [{ st := some .ok, value := .nat bytes.length }] ∧
      t.rxq.contents s.par.ringN = (s.rxq.contents s.par.ringN ++ bytes).drop 1024 ∧
      ∀ (f : List Byte) (n : Nat), f = (s.rxq.contents s.par.ringN ++ bytes).take 1024 → n = (f.getD 1023 0).toNat →
        t.x.rxSize.toNat = (256 + s.x.rxSize.toNat - n) % 256 ∧ t.rxDelay.toNat = n * 12 ∧
        ∀ i < n, Memory.read t.ram (0x1000 + (s.x.rxOffset.toNat + i) % 0x1000) =
          BitVec.ofNat 9 ((f.getD (2 * i) 0).toNat * 256 + (f.getD (2 * i + 1) 0).toNat)) ∧
  ∀ (len : Nat) (s : State), s.Inv → s.bgRunning = true → s.inp.mid = [{ op := .read len, lag := 0 }] →
    s.txBlock.toNat ≤ 1 → s.txDelay = 0 → s.x.control.getLsbD 0 = false → s.x.txSize ≠ 0 → s.txConn = .connected →
    (1024 ≤ s.par.ringN - 1 - Ring.dist s.par.ringN s.txq.rv s.txq.w → len ≤ Ring.used s.par.ringN s.txq + 1024 →
      ∀ f : List Byte, f = buildFrame (if policyNow s then false else !s.x.mode.getLsbD 0) s.linkId s.ram s.x.txOffset
          s.x.txSize.toNat → ∃ t, exec .tick s = .next t ∧
        t.midOut = [{ st := some .ok, value := .bytes ((s.txq.contents s.par.ringN ++ f).take len) }] ∧
        t.txq.contents s.par.ringN = (s.txq.contents s.par.ringN ++ f).drop len ∧
        t.txDelay.toNat = s.x.txSize.toNat * 12) ∧
    (s.par.ringN - 1 - Ring.used s.par.ringN s.txq < 1024 → len ≤ Ring.used s.par.ringN s.txq → ∃ t,
      exec .tick s = .next t ∧
        t.midOut = [{ st := some .ok, value := .bytes ((s.txq.contents s.par.ringN).take len) }] ∧
        t.txq.contents s.par.ringN = (s.txq.contents s.par.ringN).drop len ∧
        t.txDelay = 0 ∧ t.x.txSize = s.x.txSize ∧ t.drainKicks = s.drainKicks)

/-- R184, R185, R186: the MODE policy table over the stored values, whatever the latch, the counters and the roles hold. A tick
forces MODE to `0x000f` exactly when the table asserts; and from a latch that is false and a hold counter at 0 it then sets
the latch, loads the hold counter with 4 and notifies `true`, and otherwise leaves all three. Both values of
`IRQ_FOLLOW`. That MODE is forced whenever the policy is true, whether or not the latch changes, is the spec's decision D22,
and that the sync input is the stored STATUS bit is its D37. -/
def Obligations.PolicyTableDecidesAssertion : Prop :=
  ∀ s t : State, s.Inv → exec .tick s = .next t →
    ∀ (m : Nat) (rx0 tx0 sy asserts : Bool), m = s.x.mode.toNat → rx0 = decide (s.x.rxSize = 0) →
      tx0 = decide (s.x.txSize = 0) → sy = s.x.status.getLsbD s.par.syncBit.val →
      asserts = ((decide (m ≤ 3) && (rx0 || tx0)) || (decide (4 ≤ m ∧ m ≤ 5) && (rx0 || sy)) ||
        (decide (6 ≤ m ∧ m ≤ 7) && rx0) || (decide (8 ≤ m ∧ m ≤ 11) && tx0) || (decide (12 ≤ m ∧ m ≤ 13) && sy)) →
      policyNow s = asserts ∧ t.x.mode = (if asserts = true then 0x000f else s.x.mode) ∧
      (s.irqLatch = false → s.irqHold = 0 →
        (asserts = true → t.irqLatch = true ∧ t.irqHold = 4 ∧ t.irqEvents = s.irqEvents ++ [true]) ∧
        (asserts = false → t.irqLatch = false ∧ t.irqHold = 0 ∧ t.irqEvents = s.irqEvents))

/-- R183, R185, R186: the latch, the hold counter and MODE over one tick, from any state. Step 1 counts down and, on reaching
0, drops the latch; step 2 then compares the policy with the latch step 1 left, under either value of `IRQ_FOLLOW` (the
spec's D23 keeps both). That step 1 notifies exactly when the level changes is the spec's decision D24; that MODE is forced
whenever the policy is true, whether or not the latch changes, is its D22. -/
def Obligations.LatchAndHoldOverOneTick : Prop :=
  ∀ s t : State, exec .tick s = .next t →
    ∀ (a l1 : Bool) (e1 : List Bool), a = policyNow s →
      l1 = (if s.irqHold = 1 then false else s.irqLatch) →
      e1 = (if s.irqHold = 1 ∧ s.irqLatch = true then s.irqEvents ++ [false] else s.irqEvents) →
      (s.par.irqFollow = true → t.irqLatch = a ∧ t.irqHold = (if a ≠ l1 then 4 else s.irqHold - 1) ∧
        t.irqEvents = (if a ≠ l1 then e1 ++ [a] else e1)) ∧
      (s.par.irqFollow = false → t.irqLatch = (a || l1) ∧
        t.irqHold = (if a = true ∧ l1 = false then 4 else s.irqHold - 1) ∧
        t.irqEvents = (if a = true ∧ l1 = false then e1 ++ [true] else e1)) ∧
      t.x.mode = (if a = true then 0x000f else s.x.mode)

/-- R187: the delay counters over one tick go down by exactly 1 and stop at 0; TXSIZE is cleared in the tick in which
`txDelay` goes from 1 to 0, and no transmit pass runs in that tick. -/
def Obligations.DelayCountersCountDown : Prop :=
  ∀ s t : State, exec .tick s = .next t →
    t.txBlock.toNat = s.txBlock.toNat - 1 ∧
    (1 < s.txDelay.toNat → t.txDelay.toNat = s.txDelay.toNat - 1 ∧ t.x.txSize = s.x.txSize) ∧
    (s.txDelay.toNat = 1 → t.txDelay.toNat = 0 ∧ t.x.txSize = 0) ∧
    (s.txDelay.toNat = 0 → t.x.txSize = s.x.txSize) ∧
    (1 < s.rxDelay.toNat → t.rxDelay.toNat = s.rxDelay.toNat - 1)

/-- R95, R96, R97, R98, R189: the frame the transmit pass builds, byte by byte, for every word count 1 to 255 and both
packing variants. -/
def Obligations.FrameLayout : Prop :=
  ∀ (nosync : Bool) (id : Byte) (ram : Memory 9) (off : Word) (n : Nat), 1 ≤ n → n ≤ 255 →
    ∀ f : List Byte, f = buildFrame nosync id ram off n →
      f.length = 1024 ∧ frameByte f 1022 = id ∧ (frameByte f 1023).toNat = n ∧
      (∀ k, 2 * n ≤ k → k < 1022 → frameByte f k = 0) ∧
      ∀ i < n, ∀ w : RamWord, w = Memory.read ram ((off.toNat + i) % 8192) →
        (nosync = false → (frameByte f (2 * i)).toNat = w.toNat / 256 ∧
          (frameByte f (2 * i + 1)).toNat = w.toNat % 256) ∧
        (nosync = true → (frameByte f (2 * i)).toNat = 0 ∧
          (frameByte f (2 * i + 1)) = w.setWidth 8 ||| (if i + 1 = n then 0x01 else 0x00))

/-- R99, R193: in the sync-bit variant the receiver unpacks exactly the RAM words the transmitter packed, and the word
count. -/
def Obligations.ReceiverUnpacksWhatWasPacked : Prop :=
  ∀ (id : Byte) (ram : Memory 9) (off : Word) (n : Nat), n ≤ 255 →
    frameCount (buildFrame false id ram off n) = n ∧
    ∀ i < n, ramData (rxWord (buildFrame false id ram off n) i) = Memory.read ram ((off.toNat + i) % 8192)

/-- R188, R190: the transmit pass. With the counters open, halt clear and TXSIZE not 0, a tick sends the frame of R189 if
the transmit role is connected and the writer side sees room for it: `TXQ` gains the frame, `txDelay` becomes 12 ticks a
word, TXSIZE keeps its value; otherwise nothing of the transmit state changes but the writer side's view. The packing
variant follows MODE after step 2 (R186). That the drain-kick test uses the view the write uses is the model's reading of
R143 (log entry 19). No background operation inside the tick. -/
def Obligations.TransmitPassSendsOrRetries : Prop :=
  ∀ s : State, s.Inv → s.inp.mid = [] → s.txBlock.toNat ≤ 1 → s.txDelay = 0 → s.x.control.getLsbD 0 = false →
    s.x.txSize ≠ 0 → ∃ t, exec .tick s = .next t ∧ t.x.txSize = s.x.txSize ∧
      Ring.dist s.par.ringN s.txq.r s.txq.w ≤ Ring.dist s.par.ringN t.txq.rv s.txq.w ∧
      Ring.dist s.par.ringN t.txq.rv s.txq.w ≤ Ring.dist s.par.ringN s.txq.rv s.txq.w ∧
      (s.txConn = .connected ∧ 1024 ≤ s.par.ringN - 1 - Ring.dist s.par.ringN t.txq.rv s.txq.w →
        t.txDelay.toNat = s.x.txSize.toNat * 12 ∧
        t.txq.contents s.par.ringN = s.txq.contents s.par.ringN ++
          buildFrame (if policyNow s then false else !s.x.mode.getLsbD 0) s.linkId s.ram s.x.txOffset s.x.txSize.toNat ∧
        t.txq.w = (s.txq.w + 1024) % s.par.ringN ∧ t.txq.r = s.txq.r ∧
        t.drainKicks = (if Ring.dist s.par.ringN t.txq.rv s.txq.w = 0 then s.drainKicks + 1 else s.drainKicks)) ∧
      (¬(s.txConn = .connected ∧ 1024 ≤ s.par.ringN - 1 - Ring.dist s.par.ringN t.txq.rv s.txq.w) →
        t.txDelay = 0 ∧ t.txq = { s.txq with rv := t.txq.rv } ∧ t.drainKicks = s.drainKicks)

/-- R188: when one of the four conditions fails, no frame is built: `TXQ` and the kicks are untouched by the tick. No
background operation inside the tick. -/
def Obligations.ClosedTransmitGateSendsNothing : Prop :=
  ∀ s : State, s.inp.mid = [] →
    (1 < s.txBlock.toNat ∨ s.txDelay.toNat ≠ 0 ∨ s.x.control.getLsbD 0 = true ∨ s.x.txSize = 0) →
    ∃ t, exec .tick s = .next t ∧ t.txq = s.txq ∧ t.drainKicks = s.drainKicks ∧ t.txDelay.toNat = s.txDelay.toNat - 1

/-- R191, R192, R193: the receive pass. With `rxDelay` at 0 after step 5, a tick takes one frame if the receive role is
connected and the reader side sees 1024 bytes: the words go to the upper RAM half with 9 bits each, the sync bit follows
bit 8 of the words, RXSIZE and RXOFFSET move by the count within their widths, `rxDelay` becomes 12 ticks a word; every
other RAM entry is unchanged. Otherwise nothing of the receive state changes but the reader side's view. No background
operation inside the tick. -/
def Obligations.ReceivePassUnpacksOneFrame : Prop :=
  ∀ s : State, s.Inv → s.inp.mid = [] → s.rxDelay.toNat ≤ 1 → ∃ t, exec .tick s = .next t ∧
    Ring.dist s.par.ringN s.rxq.r s.rxq.wv ≤ Ring.dist s.par.ringN s.rxq.r t.rxq.wv ∧
    Ring.dist s.par.ringN s.rxq.r t.rxq.wv ≤ Ring.dist s.par.ringN s.rxq.r s.rxq.w ∧
    (s.rxConn = .connected ∧ 1024 ≤ Ring.dist s.par.ringN s.rxq.r t.rxq.wv →
      ∀ (f : List Byte) (n : Nat), f = (s.rxq.contents s.par.ringN).take 1024 → n = (f.getD 1023 0).toNat →
        t.rxq.contents s.par.ringN = (s.rxq.contents s.par.ringN).drop 1024 ∧
        t.rxq.r = (s.rxq.r + 1024) % s.par.ringN ∧ t.rxq.w = s.rxq.w ∧
        (∀ i < n, Memory.read t.ram (0x1000 + (s.x.rxOffset.toNat + i) % 0x1000) =
          BitVec.ofNat 9 ((f.getD (2 * i) 0).toNat * 256 + (f.getD (2 * i + 1) 0).toNat)) ∧
        (∀ a, (∀ i < n, 0x1000 + (s.x.rxOffset.toNat + i) % 0x1000 ≠ a) → Memory.read t.ram a = Memory.read s.ram a) ∧
        t.x.status = (if ∃ i < n, (f.getD (2 * i) 0).getLsbD 0 = true then 1#16 <<< s.par.syncBit.val else s.x.status) ∧
        t.x.rxSize.toNat = (256 + s.x.rxSize.toNat - n) % 256 ∧
        t.x.rxOffset.toNat = (s.x.rxOffset.toNat + n) % 4096 ∧
        t.rxDelay.toNat = n * 12) ∧
    (¬(s.rxConn = .connected ∧ 1024 ≤ Ring.dist s.par.ringN s.rxq.r t.rxq.wv) →
      t.ram = s.ram ∧ t.rxq = { s.rxq with wv := t.rxq.wv } ∧ t.x.status = s.x.status ∧ t.x.rxSize = s.x.rxSize ∧
      t.x.rxOffset = s.x.rxOffset ∧ t.rxDelay = 0)

/-- R191, R193: while `rxDelay` is above 0 after step 5 no frame is taken: `RXQ`, the RAM and the receive registers are
untouched by the tick. No background operation inside the tick. -/
def Obligations.RunningReceiveDelayTakesNothing : Prop :=
  ∀ s : State, s.inp.mid = [] → 1 < s.rxDelay.toNat → ∃ t, exec .tick s = .next t ∧ t.rxq = s.rxq ∧ t.ram = s.ram ∧
    t.x.status = s.x.status ∧ t.x.rxSize = s.x.rxSize ∧ t.x.rxOffset = s.x.rxOffset

/-- R196: per tick at most one frame is appended to `TXQ` and at most one is taken from `RXQ`. No background operation
inside the tick. -/
def Obligations.AtMostOneFrameEachWayPerTick : Prop :=
  ∀ s : State, s.Inv → s.inp.mid = [] → ∃ t, exec .tick s = .next t ∧
    (t.txq.contents s.par.ringN = s.txq.contents s.par.ringN ∨
      ∃ f : List Byte, f.length = 1024 ∧ t.txq.contents s.par.ringN = s.txq.contents s.par.ringN ++ f) ∧
    (t.rxq.contents s.par.ringN = s.rxq.contents s.par.ringN ∨
      1024 ≤ Ring.used s.par.ringN s.rxq ∧
        t.rxq.contents s.par.ringN = (s.rxq.contents s.par.ringN).drop 1024)

/-- R194, the timeline of one transmit that succeeds. After `TXSIZE = v` is written with `txDelay` 0, halt clear, the
transmit role connected and room in the writer side's view, and no background operation inside a tick: `txBlock` runs down
to tick `12v`, in which the frame of word count `v` is queued; TXSIZE keeps `v` until tick `24v`, in which it is cleared
and nothing more is queued. -/
def Obligations.TransmitTimeline : Prop :=
  ∀ (m : Bool) (d : Word) (s s1 : State) (v : Nat) (inps : List StepInput), s.Inv → v = d.toNat % 256 → 1 ≤ v →
    s.txDelay = 0 → s.x.control.getLsbD 0 = false → s.txConn = .connected →
    1024 ≤ s.par.ringN - 1 - Ring.dist s.par.ringN s.txq.rv s.txq.w →
    exec (.wrTxSize m d) s = .next s1 → (∀ inp ∈ inps, inp.mid = []) → inps.length ≤ 24 * v →
    ∃ t, runTicks inps s1 = .next t ∧ t.txBlock.toNat = 12 * v - inps.length ∧
      (inps.length < 12 * v → t.txDelay = 0 ∧ t.x.txSize.toNat = v ∧
        t.txq.contents s.par.ringN = s.txq.contents s.par.ringN) ∧
      (12 * v ≤ inps.length → t.txDelay.toNat = 24 * v - inps.length ∧
        t.x.txSize.toNat = (if inps.length = 24 * v then 0 else v) ∧
        ∃ f : List Byte, f.length = 1024 ∧ frameByte f 1022 = s.linkId ∧ (frameByte f 1023).toNat = v ∧
          t.txq.contents s.par.ringN = s.txq.contents s.par.ringN ++ f)

/-- R275: a TXSIZE written while `txDelay` is above 0 is always lost: the expiry of the running delay clears it and no
frame was sent. No background operation inside a tick. -/
def Obligations.TxSizeWrittenInFlightIsLost : Prop :=
  ∀ (m : Bool) (d : Word) (s s1 : State) (inps : List StepInput), 0 < s.txDelay.toNat →
    exec (.wrTxSize m d) s = .next s1 → (∀ inp ∈ inps, inp.mid = []) → inps.length = s.txDelay.toNat →
    ∃ t, runTicks inps s1 = .next t ∧ t.txDelay = 0 ∧ t.x.txSize = 0 ∧ t.txq = s.txq ∧ t.drainKicks = s.drainKicks

/-- R241: how long the line stays asserted after an assertion in tick `T` with no host access in between: 1 tick when
`IRQ_FOLLOW` is true, 4 ticks when it is false, with the hold counter and the notifications tick by tick. `inps.length` is
1 after tick `T`, 2 after tick `T + 1`, and so on. -/
def Obligations.InterruptPulseWidth : Prop :=
  ∀ (s : State) (inps : List StepInput), policyNow s = true → s.irqLatch = false → 1 ≤ inps.length →
    (∀ inp ∈ inps, inp.mid = []) → ∃ t, runTicks inps s = .next t ∧ t.x.mode = 0x000f ∧
      (s.par.irqFollow = true → t.irqLatch = decide (inps.length = 1) ∧
        t.irqHold = (if inps.length ≤ 2 then 4 else 6 - inps.length) ∧
        t.irqEvents = s.irqEvents ++ (if inps.length = 1 then [true] else [true, false])) ∧
      (s.par.irqFollow = false → t.irqLatch = decide (inps.length ≤ 4) ∧ t.irqHold = 5 - inps.length ∧
        t.irqEvents = s.irqEvents ++ (if inps.length ≤ 4 then [true] else [true, false]))

/-! ### Whole-machine rules -/

/-- R238: the latch is set only by step 2 of a tick, when the policy is true. -/
def Obligations.OnlyAnAssertingTickSetsTheLatch : Prop :=
  ∀ (i : Instr) (s t : State), exec i s = .next t → s.irqLatch = false → t.irqLatch = true →
    i = .tick ∧ policyNow s = true ∧ t.x.mode = 0x000f

/-- R186, R237: while MODE is 14 or 15 the interrupt is disarmed. Over every sequence of operations without a MODE write
and without a reset, MODE keeps its value and a latch that is false stays false. -/
def Obligations.DisarmedModeStaysSilent : Prop :=
  ∀ (l : List (Instr × StepInput)) (s t : State), (s.x.mode = 14 ∨ s.x.mode = 15) → s.irqLatch = false →
    (∀ p ∈ l, (∀ m d, p.1 ≠ .wrMode m d) ∧ ∀ lh lp rh rp f, p.1 ≠ .reset lh lp rh rp f) → runOps l s = .next t →
    t.x.mode = s.x.mode ∧ t.irqLatch = false

/-- R29, R245: no operation of the background touches the register file, the RAM, the counters, the latch, the
configuration or the traces. -/
def Obligations.BackgroundLeavesForegroundState : Prop :=
  ∀ (i : Instr) (s t : State), owner i = .bg → exec i s = .next t →
    t.x = s.x ∧ t.ram = s.ram ∧ t.txBlock = s.txBlock ∧ t.txDelay = s.txDelay ∧ t.rxDelay = s.rxDelay ∧
    t.irqHold = s.irqHold ∧ t.irqLatch = s.irqLatch ∧ t.linkId = s.linkId ∧ t.forward = s.forward ∧
    t.endpoint = s.endpoint ∧ t.irqEvents = s.irqEvents ∧ t.drainKicks = s.drainKicks ∧
    (∀ q, (∀ q', i ≠ .rbClear q') → (q = .rxq → (t.ring q).r = (s.ring q).r) ∧ (q = .txq → (t.ring q).w = (s.ring q).w))

/-- R28, R23, R24, R29: which operations change CONTROL, START and TXOFFSET: the host's own write and `RESET`. R8: no operation
changes a parameter; that the parameters stand in State is the model's choice (log entry 3). -/
def Obligations.WritersOfHostOnlyRegisters : Prop :=
  ∀ (i : Instr) (s t : State), exec i s = .next t →
    t.par = s.par ∧
    (t.x.control ≠ s.x.control → (∃ m d, i = .wrControl m d) ∨ ∃ lh lp rh rp f, i = .reset lh lp rh rp f) ∧
    (t.x.start ≠ s.x.start → (∃ m d, i = .wrStart m d) ∨ ∃ lh lp rh rp f, i = .reset lh lp rh rp f) ∧
    (t.x.txOffset ≠ s.x.txOffset → (∃ m d, i = .wrTxOffset m d) ∨ ∃ lh lp rh rp f, i = .reset lh lp rh rp f)

/-- R24: START affects nothing. Changing its stored value changes of every operation's outcome only START itself, except
for the read that returns it and the operations that overwrite it. -/
def Obligations.StartAffectsNothing : Prop :=
  ∀ (i : Instr) (s t : State) (v : Word), (∀ m, i ≠ .rdStart m) → (∀ m d, i ≠ .wrStart m d) →
    (∀ lh lp rh rp f, i ≠ .reset lh lp rh rp f) → exec i s = .next t →
    exec i { s with x := { s.x with start := v } } = .next { t with x := { t.x with start := v } }

/-- R27: stored bit 12 of RXOFFSET is observable by no operation: from two states that differ in it alone every operation
answers alike, and the states after it again differ in it at most. So over any sequence of operations. -/
def Obligations.StoredRxOffsetBit12IsUnobservable : Prop :=
  ∀ (i : Instr) (s t : State) (v : Word), v &&& 0xefff = s.x.rxOffset &&& 0xefff → exec i s = .next t →
    ∃ w : Word, w &&& 0xefff = t.x.rxOffset &&& 0xefff ∧
      exec i { s with x := { s.x with rxOffset := v } } = .next { t with x := { t.x with rxOffset := w } }

/-- R131, R20, R32: every step keeps the invariant: registers within their masks, RAM and ring storage in canonical form,
cursors and views within their bounds, counters within their ranges, no role connected after `STOP`. -/
def Obligations.StepKeepsTheInvariant : Prop :=
  ∀ s t : State, s.Inv → step s = .next t → t.Inv

/-- The reset state has the invariant. The values of its open parameters are the model's choice (log entries 3, 4). -/
def Obligations.ResetStateHasTheInvariant : Prop := State.reset.Inv

/-! ### Lifecycle (spec/44_lifecycle_env.md) -/

/-- R210, R41: the state after `RESET`: registers at `REG_RESET`, counters 0, latch false, both rings empty with all
cursors and views 0, roles `Idle`, traces empty, the RAM and the ring storage unchanged, the parameters unchanged. -/
def Obligations.ResetLeavesTheResetState : Prop :=
  ∀ (lh lp rh rp : List Byte) (s : State), (∀ b ∈ lh ++ lp ++ rh ++ rp, b.toNat < 128) →
    ∃ (id : Byte) (e : Endpoint), exec (.reset lh lp rh rp false) s = .next
      { s with
        x := s.par.regReset, txBlock := 0, txDelay := 0, rxDelay := 0, irqHold := 0, irqLatch := false,
        rxq := { buf := s.rxq.buf, w := 0, r := 0, wv := 0, rv := 0 },
        txq := { buf := s.txq.buf, w := 0, r := 0, wv := 0, rv := 0 },
        rxConn := .idle, txConn := .idle, linkId := id, forward := false, endpoint := e, irqEvents := [],
        drainKicks := 0, bgRunning := true, out := Result.nothing }

/-- R212: the link identifier `RESET` computes is the exclusive-or of the bytes of the remote host, of `0x3a` and of the
remote port: a function of the two remote strings alone, bit by bit a parity. -/
def Obligations.ResetComputesTheLinkIdentifier : Prop :=
  ∀ (lh lp rh rp : List Byte) (s t : State), exec (.reset lh lp rh rp false) s = .next t →
    ∀ k < 8, t.linkId.getLsbD k =
      decide (((rh ++ 0x3a#8 :: rp).filter fun b => b.getLsbD k).length % 2 = 1)

/-- R213, U8: `RESET` with `fwd = true` is refused, and `RESET` with a string that is not ASCII is refused. -/
def Obligations.ResetRefusals : Prop :=
  ∀ (lh lp rh rp : List Byte) (f : Bool) (s : State),
    ((∀ b ∈ lh ++ lp ++ rh ++ rp, b.toNat < 128) → exec (.reset lh lp rh rp true) s = .refused .forwardMode) ∧
    (¬(∀ b ∈ lh ++ lp ++ rh ++ rp, b.toNat < 128) → exec (.reset lh lp rh rp f) s = .refused .nonAscii)

/-- R211: `STOP` sets both roles to `Idle`, stops the background and keeps everything else. -/
def Obligations.StopIdlesBothRoles : Prop :=
  ∀ s : State, exec .stop s =
    .next { s with rxConn := .idle, txConn := .idle, bgRunning := false, out := Result.nothing }

/-- R211: after `STOP` agent `BG` has no further step until the next `RESET`: every issue of its own is refused, ticks and
transport operations answer as unconnected, and only a `RESET` brings the background back. -/
def Obligations.StoppedUntilReset : Prop :=
  (∀ (iss : Issue) (rest : List Issue) (s : State), s.bgRunning = false → s.pending = iss :: rest → iss.agent = .bg →
    ∃ r, step s = .refused r) ∧
  ∀ s t : State, s.Inv → s.bgRunning = false → step s = .next t →
    (t.bgRunning = false ∧ t.rxConn = .idle ∧ t.txConn = .idle ∧ (s.rxConn = .idle ∧ s.txConn = .idle)) ∨
      ∃ (iss : Issue) (rest : List Issue) (lh lp rh rp : List Byte) (f : Bool),
        s.pending = iss :: rest ∧ decode iss.word = .ok (.reset lh lp rh rp f)

/-- R217: `ENV_CONN` sets the role state named and nothing else. -/
def Obligations.EnvConnSetsTheRole : Prop :=
  ∀ (c : RoleState) (s : State),
    exec (.envConn .rx c) s = .next { s with rxConn := c, out := Result.nothing } ∧
    exec (.envConn .tx c) s = .next { s with txConn := c, out := Result.nothing }

/-- R107, R216: `BG_DROP_RX` and `BG_DROP_TX`, issued by a running background, leave the role `Pending` and its ring empty,
and change nothing else but the result port and the inputs. That the clear overlaps no operation of the other side is the
model's assumption (log entry 17; R272, U3). -/
def Obligations.DroppingAConnectionClearsItsRing : Prop :=
  ∀ (inp : StepInput) (rest : List Issue) (s : State), s.bgRunning = true →
    (∃ t u, step { s with pending := bgDropRx inp ++ rest } = .next t ∧ step t = .next u ∧ step u = .next
      { s with rxConn := .pending, rxq := { s.rxq with w := 0, r := 0, wv := 0, rv := 0 }, inp := inp, pending := rest,
               out := Result.nothing }) ∧
    (∃ t u, step { s with pending := bgDropTx inp ++ rest } = .next t ∧ step t = .next u ∧ step u = .next
      { s with txConn := .pending, txq := { s.txq with w := 0, r := 0, wv := 0, rv := 0 }, inp := inp, pending := rest,
               out := Result.nothing })

/-! ### Issue and decode (spec/30_encoding.md, spec/60_exceptions.md) -/

/-- A step performs the next operation issued: when its word decodes to `i`, its agent owns `i` and the background is not
issuing after `STOP`, the step is `exec i` of the state with the issue taken off the list and its inputs in place. With
nothing to come the step leaves the state as it is (log entries 1, 26). -/
def Obligations.StepRunsTheIssuedOperation : Prop :=
  (∀ (iss : Issue) (rest : List Issue) (i : Instr) (s : State), s.pending = iss :: rest → decode iss.word = .ok i →
    iss.agent = owner i → (iss.agent = .bg → s.bgRunning = true) →
    step s = exec i { s with inp := iss.inp, pending := rest }) ∧
  ∀ s : State, s.pending = [] → step s = .next s

/-- R120, R235, R245: an operation issued by an agent that does not own it is refused. The foreground owns the `H`, `M`, `E`
and `T` operations and its sides of the rings, the background the other sides, `RB_CLEAR` and `ENV_CONN`; the interrupt
consumer owns nothing. -/
def Obligations.WrongAgentIsRefused : Prop :=
  (∀ (iss : Issue) (rest : List Issue) (i : Instr) (s : State), s.pending = iss :: rest → decode iss.word = .ok i →
    iss.agent ≠ owner i → step s = .refused .wrongSide) ∧
  (∀ i : Instr, owner i ≠ .ic) ∧
  (∀ (m : Bool) (d : Word) (addr : RamAddr) (lh lp rh rp bytes : List Byte) (f : Bool) (k : Nat),
    (∀ i ∈ [Instr.rdStatus m, .rdMode m, .rdControl m, .rdStart m, .rdRxSize m, .rdTxSize m, .rdRxOffset m, .rdTxOffset m,
        .wrStatus m d, .wrMode m d, .wrControl m d, .wrStart m d, .wrRxSize m d, .wrTxSize m d, .wrRxOffset m d,
        .wrTxOffset m d, .rdRam addr, .wrRam addr d, .tick, .reset lh lp rh rp f, .stop, .ltConnected, .ltReceive k,
        .ltSend bytes], owner i = .fg) ∧
    (∀ i ∈ [Instr.rbRead .rxq k, .rbPeek .rxq k, .rbConsume .rxq k, .rbUsed .rxq .reader, .rbFree .rxq .reader,
        .rbWrite .txq bytes, .rbUsed .txq .writer, .rbFree .txq .writer], owner i = .fg) ∧
    (∀ i ∈ [Instr.rbRead .txq k, .rbPeek .txq k, .rbConsume .txq k, .rbUsed .txq .reader, .rbFree .txq .reader,
        .rbWrite .rxq bytes, .rbUsed .rxq .writer, .rbFree .rxq .writer], owner i = .bg)) ∧
  ∀ (q : RingId) (role : Role) (c : RoleState), owner (.rbClear q) = .bg ∧ owner (.envConn role c) = .bg

/-- R101: a few operation words, written out from the map. -/
def Obligations.OperationMapSamples : Prop :=
  decode ⟨0b00001101#8, []⟩ = .ok (.rdTxSize true) ∧
  decode ⟨0b00010101#8, [.num 0x0102]⟩ = .ok (.wrTxSize false 0x0102) ∧
  decode ⟨0b00100001#8, [.num 0x1fff, .num 0xff05]⟩ = .ok (.wrRam 0x1fff 0xff05) ∧
  decode ⟨0b00110000#8, []⟩ = .ok .tick ∧
  decode ⟨0b01001001#8, [.num 1024]⟩ = .ok (.rbRead .txq 1024) ∧
  decode ⟨0b01010010#8, [.seq [0xab]]⟩ = .ok (.ltSend [0xab]) ∧
  decode ⟨0b01100110#8, []⟩ = .ok (.envConn .tx .connected)

/-- Decoding the encoding of a well-formed operation gives it back, for every operation and every operand value. -/
def Obligations.DecodeOfEncode : Prop :=
  ∀ i : Instr, i.wf = true → decode (encode i) = .ok i

/-- Each operation word has one meaning: what decodes is well formed and is the encoding of what it decodes to. -/
def Obligations.EncodeOfDecode : Prop :=
  ∀ (w : OpWord) (i : Instr), decode w = .ok i → i.wf = true ∧ encode i = w

/-- R102: the decoder refuses exactly the reserved codes as reserved, whatever operands accompany them. -/
def Obligations.ReservedCodesAreRefused : Prop :=
  ∀ (op : BitVec 8) (ops : List Operand), decode ⟨op, ops⟩ = .error .reservedCode ↔
    (0x22 ≤ op.toNat ∧ op.toNat ≤ 0x2f) ∨ (0x33 ≤ op.toNat ∧ op.toNat ≤ 0x3f) ∨ op.toNat = 0x47 ∨ op.toNat = 0x4f ∨
    (0x53 ≤ op.toNat ∧ op.toNat ≤ 0x5f) ∨ op.toNat = 0x63 ∨ op.toNat = 0x67 ∨
    (0x68 ≤ op.toNat ∧ op.toNat ≤ 0x6f) ∨ 0x70 ≤ op.toNat
end

