-- ==== Sys2Proof/Laws/Memory.lean ====
section
/-!
SUPPORT. The laws of the sparse memories: a read after a write, other addresses, the canonical form is kept, and a
memory in canonical form is determined by its reads.
-/
set_option Elab.async false

namespace Sys2Proof.Machine.Memory

variable {k : Nat}

@[simp] theorem read_nil (a : Nat) : read ([] : Memory k) a = fill := rfl

@[simp] theorem read_cons (b : Nat) (v : BitVec k) (m : Memory k) (a : Nat) :
    read ((b, v) :: m) a = if b = a then v else read m a := rfl

@[simp] theorem wfFrom_nil (lo limit : Nat) : wfFrom lo limit ([] : Memory k) = true := rfl

theorem wfFrom_cons {lo limit a : Nat} {v : BitVec k} {m : Memory k} :
    wfFrom lo limit ((a, v) :: m) = true ↔
      lo ≤ a ∧ a < limit ∧ v ≠ fill ∧ wfFrom (a + 1) limit m = true := by
  simp [wfFrom, and_assoc]

theorem wfFrom_mono {lo lo' limit : Nat} {m : Memory k} (h : wfFrom lo' limit m = true) (hl : lo ≤ lo') :
    wfFrom lo limit m = true := by
  cases m with
  | nil => rfl
  | cons c m =>
    obtain ⟨a, v⟩ := c
    rw [wfFrom_cons] at h ⊢
    exact ⟨by omega, h.2⟩

/-- Below the first listed address every read gives `fill`. -/
theorem read_below {lo limit a : Nat} {m : Memory k} (h : wfFrom lo limit m = true) (ha : a < lo) :
    read m a = fill := by
  induction m generalizing lo with
  | nil => rfl
  | cons c m ih =>
    obtain ⟨b, v⟩ := c
    rw [wfFrom_cons] at h
    rw [read_cons, if_neg (by omega)]
    exact ih h.2.2.2 (by omega)

/-- Past the last address every read gives `fill`. -/
theorem read_above {lo limit a : Nat} {m : Memory k} (h : wfFrom lo limit m = true) (ha : limit ≤ a) :
    read m a = fill := by
  induction m generalizing lo with
  | nil => rfl
  | cons c m ih =>
    obtain ⟨b, v⟩ := c
    rw [wfFrom_cons] at h
    rw [read_cons, if_neg (by omega)]
    exact ih h.2.2.2

theorem read_write_same_from {lo limit : Nat} {m : Memory k} (h : wfFrom lo limit m = true) (a : Nat) (v : BitVec k) :
    read (write m a v) a = v := by
  induction m generalizing lo with
  | nil =>
    unfold write; split
    · simp [*]
    · simp
  | cons c m ih =>
    obtain ⟨b, u⟩ := c
    rw [wfFrom_cons] at h
    unfold write
    split
    · split
      · rw [read_cons, if_neg (by omega), read_below h.2.2.2 (by omega)]; simp [*]
      · simp
    · split
      · split
        · rw [read_below h.2.2.2 (by omega)]; simp [*]
        · simp
      · rw [read_cons, if_neg (by omega)]
        exact ih h.2.2.2

/-- A read of the address just written gives the value written. -/
theorem read_write_same {limit : Nat} {m : Memory k} (h : wf limit m = true) (a : Nat) (v : BitVec k) :
    read (write m a v) a = v := read_write_same_from h a v

/-- A write leaves every other address alone. -/
theorem read_write_other (m : Memory k) {a b : Nat} (v : BitVec k) (hne : b ≠ a) :
    read (write m a v) b = read m b := by
  induction m with
  | nil =>
    unfold write; split
    · rfl
    · rw [read_cons, if_neg (by omega)]
  | cons c m ih =>
    obtain ⟨d, u⟩ := c
    unfold write
    split
    · split
      · rfl
      · rw [read_cons, if_neg (by omega)]
    · split
      · subst_vars
        split
        · rw [read_cons, if_neg (by omega)]
        · rw [read_cons, read_cons, if_neg (by omega), if_neg (by omega)]
      · rw [read_cons, read_cons, ih]

theorem read_write {limit : Nat} {m : Memory k} (h : wf limit m = true) (a b : Nat) (v : BitVec k) :
    read (write m a v) b = if b = a then v else read m b := by
  split
  · subst_vars; exact read_write_same h b v
  · exact read_write_other m v ‹_›

theorem write_wfFrom {lo limit a : Nat} {m : Memory k} (h : wfFrom lo limit m = true) (hlo : lo ≤ a) (ha : a < limit)
    (v : BitVec k) : wfFrom lo limit (write m a v) = true := by
  induction m generalizing lo with
  | nil =>
    unfold write; split
    · rfl
    · rw [wfFrom_cons]; exact ⟨hlo, ha, ‹_›, rfl⟩
  | cons c m ih =>
    obtain ⟨b, u⟩ := c
    have h' := wfFrom_cons.mp h
    unfold write
    split
    · split
      · exact h
      · rw [wfFrom_cons, wfFrom_cons]; exact ⟨hlo, ha, ‹_›, by omega, h'.2⟩
    · split
      · subst_vars
        split
        · exact wfFrom_mono h'.2.2.2 (by omega)
        · rw [wfFrom_cons]; exact ⟨hlo, ha, ‹_›, h'.2.2.2⟩
      · rw [wfFrom_cons]; exact ⟨h'.1, h'.2.1, h'.2.2.1, ih h'.2.2.2 (by omega)⟩

/-- A write below the limit keeps the canonical form. -/
theorem write_wf {limit a : Nat} {m : Memory k} (h : wf limit m = true) (ha : a < limit) (v : BitVec k) :
    wf limit (write m a v) = true := write_wfFrom h (by omega) ha v

theorem eq_of_read_from {lo limit : Nat} {m m' : Memory k} (h : wfFrom lo limit m = true)
    (h' : wfFrom lo limit m' = true) (hr : ∀ a, read m a = read m' a) : m = m' := by
  induction m generalizing lo m' with
  | nil =>
    cases m' with
    | nil => rfl
    | cons c m' =>
      obtain ⟨b, v⟩ := c
      have := hr b
      rw [wfFrom_cons] at h'
      simp only [read_nil, read_cons, if_true] at this
      exact absurd this.symm h'.2.2.1
  | cons c m ih =>
    obtain ⟨a, v⟩ := c
    rw [wfFrom_cons] at h
    cases m' with
    | nil =>
      have := hr a
      simp only [read_nil, read_cons, if_true] at this
      exact absurd this h.2.2.1
    | cons c m' =>
      obtain ⟨b, u⟩ := c
      rw [wfFrom_cons] at h'
      have hab : a = b := by
        rcases Nat.lt_trichotomy a b with hlt | heq | hgt
        · have := hr a
          rw [read_cons, if_pos rfl, read_cons, if_neg (by omega), read_below h'.2.2.2 (by omega)] at this
          exact absurd this h.2.2.1
        · exact heq
        · have := hr b
          rw [read_cons, if_neg (by omega), read_cons, if_pos rfl, read_below h.2.2.2 (by omega)] at this
          exact absurd this.symm h'.2.2.1
      subst hab
      have hv := hr a
      simp only [read_cons, if_true] at hv
      subst hv
      congr 1
      refine ih h.2.2.2 h'.2.2.2 fun x => ?_
      by_cases hx : a = x
      · subst hx
        rw [read_below h.2.2.2 (by omega), read_below h'.2.2.2 (by omega)]
      · simpa [read_cons, hx] using hr x

/-- Memories in canonical form that read alike are equal. -/
theorem eq_of_read {limit : Nat} {m m' : Memory k} (h : wf limit m = true) (h' : wf limit m' = true)
    (hr : ∀ a, read m a = read m' a) : m = m' := eq_of_read_from h h' hr

end Sys2Proof.Machine.Memory
end

