-- ==== Sys2Proof/Laws/Ring.lean ====
section
/-!
SUPPORT. The laws of the ring buffer: cursor arithmetic, the bounds of a view refresh, the bytes waiting in a ring after
a write, a read and a consume, and that every ring operation keeps the ring invariants (R131).
-/
set_option Elab.async false

namespace Sys2Proof.Machine.Ring

variable {n : Nat}

/-! ### Cursor arithmetic -/

theorem mod_of_lt_two {a : Nat} (h : a < 2 * n) : a % n = if a < n then a else a - n := by
  split
  · exact Nat.mod_eq_of_lt ‹_›
  · rw [Nat.mod_eq_sub_mod (by omega), Nat.mod_eq_of_lt (by omega)]

theorem dist_eq {a b : Nat} (ha : a < n) (hb : b < n) : dist n a b = if a ≤ b then b - a else b + n - a := by
  unfold dist
  rw [mod_of_lt_two (by omega)]
  split <;> split <;> omega

/-- The two cases of `dist`, for `omega`. -/
theorem dist_spec {a b : Nat} (ha : a < n) (hb : b < n) :
    (a ≤ b ∧ dist n a b = b - a) ∨ (b < a ∧ dist n a b = b + n - a) := by
  rw [dist_eq ha hb]
  split
  · exact .inl ⟨‹_›, rfl⟩
  · exact .inr ⟨by omega, rfl⟩

/-- The two cases of a sum of two cursors, for `omega`. -/
theorem mod_spec {a : Nat} (h : a < 2 * n) : (a < n ∧ a % n = a) ∨ (n ≤ a ∧ a % n = a - n) := by
  rw [mod_of_lt_two h]
  split
  · exact .inl ⟨‹_›, rfl⟩
  · exact .inr ⟨by omega, rfl⟩

theorem dist_lt {a b : Nat} (ha : a < n) : dist n a b < n := Nat.mod_lt _ (by omega)

@[simp] theorem dist_self {a : Nat} (ha : a < n) : dist n a a = 0 := by
  rw [dist_eq ha ha]; simp

/-- The invariants of `Ring.wf`, one by one. -/
theorem wf_iff {q : Ring} : q.wf n = true ↔
    q.w < n ∧ q.r < n ∧ q.wv < n ∧ q.rv < n ∧ dist n q.r q.wv ≤ dist n q.r q.w ∧
      dist n q.r q.w ≤ dist n q.rv q.w ∧ Memory.wf n q.buf = true := by
  simp [wf, and_assoc]

theorem empty_wf (h : 0 < n) : Ring.empty.wf n = true := by
  rw [wf_iff]; simp [Ring.empty, h, Memory.wf]

/-! ### The view refresh (R128) -/

@[simp] theorem observe_sc (lag view newest : Nat) : observe n .sc lag view newest = newest := rfl

theorem observe_lt {v : RingView} {lag view newest : Nat} (hn : newest < n) : observe n v lag view newest < n := by
  cases v
  · exact Nat.mod_lt _ (by omega)
  · exact hn

/-- What a side observes lies between what it saw last and the newest value. -/
theorem dist_view_observe {v : RingView} {lag view newest : Nat} (hv : view < n) (hn : newest < n) :
    dist n view (observe n v lag view newest) + dist n (observe n v lag view newest) newest = dist n view newest := by
  cases v
  · have hd := dist_eq (n := n) hv hn
    have hlt : dist n view newest < n := dist_lt hv
    simp only [observe]
    generalize hm : min lag (dist n view newest) = m
    have hml : m ≤ dist n view newest := by omega
    have ho := mod_spec (n := n) (a := newest + n - m) (by omega)
    have holt : (newest + n - m) % n < n := Nat.mod_lt _ (by omega)
    have h1 := dist_spec hv holt
    have h2 := dist_spec holt hn
    have h3 := dist_spec hv hn
    omega
  · simp [observe, dist_self hn]

theorem refresh_writer (v : RingView) (lag : Nat) (q : Ring) :
    refresh n v lag .writer q = { q with rv := observe n v lag q.rv q.r } := rfl
theorem refresh_reader (v : RingView) (lag : Nat) (q : Ring) :
    refresh n v lag .reader q = { q with wv := observe n v lag q.wv q.w } := rfl

@[simp] theorem refresh_buf (v : RingView) (lag : Nat) (side : Side) (q : Ring) :
    (refresh n v lag side q).buf = q.buf := by cases side <;> rfl
@[simp] theorem refresh_w (v : RingView) (lag : Nat) (side : Side) (q : Ring) :
    (refresh n v lag side q).w = q.w := by cases side <;> rfl
@[simp] theorem refresh_r (v : RingView) (lag : Nat) (side : Side) (q : Ring) :
    (refresh n v lag side q).r = q.r := by cases side <;> rfl
@[simp] theorem refresh_writer_wv (v : RingView) (lag : Nat) (q : Ring) :
    (refresh n v lag .writer q).wv = q.wv := rfl
@[simp] theorem refresh_reader_rv (v : RingView) (lag : Nat) (q : Ring) :
    (refresh n v lag .reader q).rv = q.rv := rfl
@[simp] theorem refresh_writer_rv (v : RingView) (lag : Nat) (q : Ring) :
    (refresh n v lag .writer q).rv = observe n v lag q.rv q.r := rfl
@[simp] theorem refresh_reader_wv (v : RingView) (lag : Nat) (q : Ring) :
    (refresh n v lag .reader q).wv = observe n v lag q.wv q.w := rfl

@[simp] theorem refresh_used (v : RingView) (lag : Nat) (side : Side) (q : Ring) :
    used n (refresh n v lag side q) = used n q := by simp [used]

@[simp] theorem refresh_contents (v : RingView) (lag : Nat) (side : Side) (q : Ring) :
    contents n (refresh n v lag side q) = contents n q := by simp [contents]

/-- A refresh keeps the ring invariants. -/
theorem refresh_wf {v : RingView} {lag : Nat} {side : Side} {q : Ring} (h : q.wf n = true) :
    (refresh n v lag side q).wf n = true := by
  rw [wf_iff] at h ⊢
  obtain ⟨hw, hr, hwv, hrv, h1, h2, hb⟩ := h
  cases side
  · have ho := observe_lt (v := v) (lag := lag) (view := q.rv) hr
    have hd := dist_view_observe (v := v) (lag := lag) hrv hr
    refine ⟨by simpa, by simpa, by simpa, by simpa using ho, by simpa using h1, ?_, by simpa using hb⟩
    simp only [refresh_r, refresh_w, refresh_writer_rv]
    revert hd ho
    generalize observe n v lag q.rv q.r = o
    intro ho hd
    have e1 := dist_spec hrv ho
    have e2 := dist_spec ho hr
    have e3 := dist_spec hrv hr
    have e4 := dist_spec hr hw
    have e5 := dist_spec hrv hw
    have e6 := dist_spec ho hw
    omega
  · have ho := observe_lt (v := v) (lag := lag) (view := q.wv) hw
    have hd := dist_view_observe (v := v) (lag := lag) hwv hw
    refine ⟨by simpa, by simpa, by simpa using ho, by simpa, ?_, by simpa using h2, by simpa using hb⟩
    simp only [refresh_r, refresh_w, refresh_reader_wv]
    revert hd ho
    generalize observe n v lag q.wv q.w = o
    intro ho hd
    have e1 := dist_spec hwv ho
    have e2 := dist_spec ho hw
    have e3 := dist_spec hwv hw
    have e4 := dist_spec hr hwv
    have e5 := dist_spec hr hw
    have e6 := dist_spec hr ho
    omega

/-- Observing again with the same choice shows the same value. -/
theorem observe_observe {v : RingView} {lag view newest : Nat} (hv : view < n) (hn : newest < n) :
    observe n v lag (observe n v lag view newest) newest = observe n v lag view newest := by
  cases v
  · have hlt : dist n view newest < n := dist_lt hv
    simp only [observe]
    generalize dist n view newest = d at hlt ⊢
    have hm : (newest + n - min lag d) % n < n := Nat.mod_lt _ (by omega)
    have e1 := dist_spec hm hn
    have e2 := mod_spec (n := n) (a := newest + n - min lag d) (by omega)
    have e : dist n ((newest + n - min lag d) % n) newest = min lag d := by omega
    rw [e, ← Nat.min_assoc, Nat.min_self]
  · rfl

/-- A refresh made twice with the same choice is the refresh made once. -/
theorem refresh_refresh {v : RingView} {lag : Nat} {side : Side} {q : Ring} (h : q.wf n = true) :
    refresh n v lag side (refresh n v lag side q) = refresh n v lag side q := by
  obtain ⟨hw, hr, hwv, hrv, -⟩ := wf_iff.mp h
  cases side
  · simp only [refresh]; rw [observe_observe hrv hr]
  · simp only [refresh]; rw [observe_observe hwv hw]

/-- The reader side never sees more than there is (R31, R125). -/
theorem usedBy_reader_le {q : Ring} (h : q.wf n = true) : usedBy n .reader q ≤ used n q :=
  (wf_iff.mp h).2.2.2.2.1

/-- The writer side never sees less than there is (R31, R125). -/
theorem used_le_usedBy_writer {q : Ring} (h : q.wf n = true) : used n q ≤ usedBy n .writer q :=
  (wf_iff.mp h).2.2.2.2.2.1

theorem used_lt {q : Ring} (h : q.wf n = true) : used n q < n := dist_lt (wf_iff.mp h).2.1

theorem usedBy_lt {q : Ring} (h : q.wf n = true) (side : Side) : usedBy n side q < n := by
  cases side
  · exact dist_lt (wf_iff.mp h).2.2.2.1
  · exact dist_lt (wf_iff.mp h).2.1

/-- A refresh can only show the reader side more. -/
theorem usedBy_reader_refresh {v : RingView} {lag : Nat} {q : Ring} (h : q.wf n = true) :
    usedBy n .reader q ≤ usedBy n .reader (refresh n v lag .reader q) := by
  obtain ⟨hw, hr, hwv, hrv, h1, h2, hb⟩ := wf_iff.mp h
  have ho := observe_lt (v := v) (lag := lag) (view := q.wv) hw
  have hd := dist_view_observe (v := v) (lag := lag) hwv hw
  simp only [usedBy, refresh_r, refresh_reader_wv]
  have e1 := dist_spec hwv ho
  have e2 := dist_spec ho hw
  have e3 := dist_spec hwv hw
  have e4 := dist_spec hr hwv
  have e5 := dist_spec hr hw
  have e6 := dist_spec hr ho
  omega

/-- A refresh can only show the writer side more room. -/
theorem usedBy_writer_refresh {v : RingView} {lag : Nat} {q : Ring} (h : q.wf n = true) :
    usedBy n .writer (refresh n v lag .writer q) ≤ usedBy n .writer q := by
  obtain ⟨hw, hr, hwv, hrv, h1, h2, hb⟩ := wf_iff.mp h
  have ho := observe_lt (v := v) (lag := lag) (view := q.rv) hr
  have hd := dist_view_observe (v := v) (lag := lag) hrv hr
  simp only [usedBy, refresh_w, refresh_writer_rv]
  have e1 := dist_spec hrv ho
  have e2 := dist_spec ho hr
  have e3 := dist_spec hrv hr
  have e4 := dist_spec hr hw
  have e5 := dist_spec hrv hw
  have e6 := dist_spec ho hw
  omega

/-! ### Storage -/

theorem putBytes_wf {buf : Memory 8} (hb : Memory.wf n buf = true) (hn : 0 < n) (i : Nat) (bytes : List Byte) :
    Memory.wf n (putBytes n buf i bytes) = true := by
  induction bytes generalizing i buf with
  | nil => exact hb
  | cons b rest ih => exact ih (Memory.write_wf hb (Nat.mod_lt _ hn) b) (i + 1)

theorem putBytes_mod (buf : Memory 8) (i : Nat) (bytes : List Byte) :
    putBytes n buf (i % n) bytes = putBytes n buf i bytes := by
  induction bytes generalizing i buf with
  | nil => rfl
  | cons b rest ih =>
    unfold putBytes
    rw [Nat.mod_mod, ← ih _ (i + 1), ← ih _ (i % n + 1), Nat.mod_add_mod]

/-- Bytes outside the stored range are left alone. -/
theorem read_putBytes_outside (buf : Memory 8) (i : Nat) (bytes : List Byte) (a : Nat)
    (h : ∀ j < bytes.length, (i + j) % n ≠ a) : Memory.read (putBytes n buf i bytes) a = Memory.read buf a := by
  induction bytes generalizing i buf with
  | nil => rfl
  | cons b rest ih =>
    unfold putBytes
    rw [ih]
    · refine Memory.read_write_other _ _ fun e => ?_
      exact h 0 (by simp) (by simpa using e.symm)
    · intro j hj
      have := h (j + 1) (by simpa using hj)
      rwa [show i + (j + 1) = i + 1 + j by omega] at this

theorem add_mod_ne {i j j' : Nat} (h : j < j') (hn : j' - j < n) : (i + j) % n ≠ (i + j') % n := by
  intro e
  have h1 : (i + j') % n = ((i + j) % n + (j' - j)) % n := by
    rw [Nat.mod_add_mod]; congr 1; omega
  have h2 : (i + j) % n < n := Nat.mod_lt _ (by omega)
  have h3 := mod_spec (n := n) (a := (i + j) % n + (j' - j)) (by omega)
  rw [← e] at h1
  omega

/-- The stored bytes. -/
theorem read_putBytes_inside {buf : Memory 8} (hb : Memory.wf n buf = true) (i : Nat) (bytes : List Byte)
    (hl : bytes.length ≤ n) (j : Nat) (hj : j < bytes.length) :
    Memory.read (putBytes n buf i bytes) ((i + j) % n) = bytes[j] := by
  induction bytes generalizing i buf j with
  | nil => simp at hj
  | cons b rest ih =>
    have hn : 0 < n := by simp at hl; omega
    unfold putBytes
    cases j with
    | zero =>
      rw [read_putBytes_outside]
      · simpa using Memory.read_write_same hb (i % n) b
      · intro j hj'
        rw [show i + 1 + j = i + (j + 1) by omega]
        simp at hl
        exact (add_mod_ne (by omega) (by omega)).symm
    | succ j =>
      have := ih (Memory.write_wf hb (Nat.mod_lt i hn) b) (i + 1) (by simp at hl; omega) j (by simpa using hj)
      rw [show i + (j + 1) = i + 1 + j by omega]
      simpa using this

@[simp] theorem getBytes_length (buf : Memory 8) (i len : Nat) : (getBytes n buf i len).length = len := by
  simp [getBytes]

@[simp] theorem contents_length (q : Ring) : (contents n q).length = used n q := by simp [contents]

theorem getBytes_mod (buf : Memory 8) (i len : Nat) : getBytes n buf (i % n) len = getBytes n buf i len := by
  unfold getBytes
  refine List.map_congr_left fun j _ => ?_
  simp

theorem getBytes_add (buf : Memory 8) (i a b : Nat) :
    getBytes n buf i (a + b) = getBytes n buf i a ++ getBytes n buf (i + a) b := by
  unfold getBytes
  rw [List.range_add, List.map_append, List.map_map]
  congr 1
  refine List.map_congr_left fun j _ => ?_
  simp [Nat.add_assoc]

theorem getBytes_take (buf : Memory 8) (i : Nat) {len k : Nat} (h : k ≤ len) :
    (getBytes n buf i len).take k = getBytes n buf i k := by
  obtain ⟨b, rfl⟩ := Nat.exists_eq_add_of_le h
  rw [getBytes_add, List.take_left' (by simp)]

theorem getBytes_drop (buf : Memory 8) (i : Nat) {len k : Nat} (h : k ≤ len) :
    (getBytes n buf i len).drop k = getBytes n buf (i + k) (len - k) := by
  obtain ⟨b, rfl⟩ := Nat.exists_eq_add_of_le h
  rw [getBytes_add, List.drop_left' (by simp)]
  simp

/-- What was just stored is what is read there. -/
theorem getBytes_putBytes_same {buf : Memory 8} (hb : Memory.wf n buf = true) (i : Nat) (bytes : List Byte)
    (hl : bytes.length ≤ n) : getBytes n (putBytes n buf i bytes) i bytes.length = bytes := by
  apply List.ext_getElem
  · simp
  · intro j h1 h2
    simp only [getBytes, List.getElem_map, List.getElem_range]
    exact read_putBytes_inside hb i bytes hl j h2

/-- Storing behind a range leaves the range alone, when both together fit in the array. -/
theorem getBytes_putBytes_before (buf : Memory 8) (i len : Nat) (bytes : List Byte)
    (hl : len + bytes.length ≤ n) : getBytes n (putBytes n buf (i + len) bytes) i len = getBytes n buf i len := by
  unfold getBytes
  refine List.map_congr_left fun j hj => ?_
  have hj' : j < len := by simpa using hj
  refine read_putBytes_outside _ _ _ _ fun k hk => ?_
  rw [show i + len + k = i + (len + k) by omega]
  exact (add_mod_ne (by omega) (by omega)).symm

/-! ### Moving a cursor -/

theorem w_eq {q : Ring} (h : q.wf n = true) : (q.r + used n q) % n = q.w := by
  obtain ⟨hw, hr, -⟩ := wf_iff.mp h
  unfold used
  have hlt : dist n q.r q.w < n := dist_lt hr
  have e1 := dist_spec hr hw
  have e2 := mod_spec (n := n) (a := q.r + dist n q.r q.w) (by omega)
  omega

theorem used_after_write {q : Ring} (h : q.wf n = true) {k : Nat} (hk : used n q + k < n) :
    dist n q.r ((q.w + k) % n) = used n q + k := by
  obtain ⟨hw, hr, -⟩ := wf_iff.mp h
  have hm : (q.w + k) % n < n := Nat.mod_lt _ (by omega)
  unfold used at *
  have e1 := dist_spec hr hm
  have e2 := dist_spec hr hw
  have e3 := mod_spec (n := n) (a := q.w + k) (by omega)
  omega

theorem used_after_read {q : Ring} (h : q.wf n = true) {k : Nat} (hk : k ≤ used n q) :
    dist n ((q.r + k) % n) q.w = used n q - k := by
  obtain ⟨hw, hr, -⟩ := wf_iff.mp h
  have hlt := used_lt h
  have hm : (q.r + k) % n < n := Nat.mod_lt _ (by omega)
  unfold used at *
  have e1 := dist_spec hm hw
  have e2 := dist_spec hr hw
  have e3 := mod_spec (n := n) (a := q.r + k) (by omega)
  omega

/-! ### `RB_WRITE` (R121) -/

/-- `RB_WRITE` does one of two things: overflow, leaving all but the writer's view; or all the bytes. -/
theorem write_cases (v : RingView) (lag : Nat) (bytes : List Byte) (q : Ring) :
    (freeBy n .writer (refresh n v lag .writer q) < bytes.length ∧
      q.write n v lag bytes = (refresh n v lag .writer q, Result.signal .overflow)) ∨
    (bytes.length ≤ freeBy n .writer (refresh n v lag .writer q) ∧
      q.write n v lag bytes =
        (publishW v ((q.w + bytes.length) % n)
          { refresh n v lag .writer q with buf := putBytes n q.buf q.w bytes }, Result.okWith (.nat bytes.length))) := by
  unfold write
  by_cases h : freeBy n .writer (refresh n v lag .writer q) < bytes.length
  · exact .inl ⟨h, by simp [h]⟩
  · exact .inr ⟨by omega, by simp [h]⟩

theorem write_ok_wf {v : RingView} {bytes : List Byte} {q : Ring} (h : q.wf n = true)
    (hl : bytes.length ≤ freeBy n .writer q) :
    (publishW v ((q.w + bytes.length) % n) { q with buf := putBytes n q.buf q.w bytes }).wf n = true := by
  have hu := used_le_usedBy_writer h
  have hlt := usedBy_lt h .writer
  have hul := used_lt h
  have hk : used n q + bytes.length < n := by unfold freeBy at hl; omega
  have hd := used_after_write h hk
  obtain ⟨hw, hr, hwv, hrv, h1, h2, hb⟩ := wf_iff.mp h
  have hm : (q.w + bytes.length) % n < n := Nat.mod_lt _ (by omega)
  have hrvd : dist n q.rv ((q.w + bytes.length) % n) = usedBy n .writer q + bytes.length := by
    simp only [freeBy, usedBy] at *
    have e1 := dist_spec hrv hm
    have e2 := dist_spec hrv hw
    have e3 := mod_spec (n := n) (a := q.w + bytes.length) (by omega)
    omega
  rw [wf_iff]
  cases v
  · refine ⟨hm, hr, hwv, hrv, ?_, ?_, putBytes_wf hb (by omega) _ _⟩
    · simp only [publishW]; rw [hd]; unfold used; omega
    · simp only [publishW]; rw [hd, hrvd]; omega
  · refine ⟨hm, hr, hm, hrv, le_refl _, ?_, putBytes_wf hb (by omega) _ _⟩
    simp only [publishW]; rw [hd, hrvd]; omega

/-- `RB_WRITE` keeps the ring invariants. -/
theorem write_wf {v : RingView} {lag : Nat} {bytes : List Byte} {q : Ring} (h : q.wf n = true) :
    (q.write n v lag bytes).1.wf n = true := by
  rcases write_cases (n := n) v lag bytes q with ⟨-, e⟩ | ⟨hl, e⟩
  · rw [e]; exact refresh_wf h
  · rw [e]
    have := write_ok_wf (v := v) (bytes := bytes) (refresh_wf (v := v) (lag := lag) (side := .writer) h) hl
    simpa using this

/-- A write that succeeds appends its bytes to the waiting ones. -/
theorem write_ok_contents {v : RingView} {lag : Nat} {bytes : List Byte} {q : Ring} (h : q.wf n = true)
    (hl : bytes.length ≤ freeBy n .writer (refresh n v lag .writer q)) :
    (q.write n v lag bytes).1.contents n = q.contents n ++ bytes := by
  rcases write_cases (n := n) v lag bytes q with ⟨hlt, -⟩ | ⟨-, e⟩
  · omega
  rw [e]
  have hq := refresh_wf (v := v) (lag := lag) (side := .writer) h
  have hu := used_le_usedBy_writer hq
  have hlt := usedBy_lt hq .writer
  rw [refresh_used] at hu
  have hk : used n q + bytes.length < n := by unfold freeBy at hl; omega
  have hd := used_after_write h hk
  obtain ⟨hw, hr, -, -, -, -, hb⟩ := wf_iff.mp h
  have hw' := w_eq h
  have hput : putBytes n q.buf q.w bytes = putBytes n q.buf (q.r + used n q) bytes := by
    rw [← hw', putBytes_mod]
  unfold contents
  show getBytes n (putBytes n q.buf q.w bytes) q.r (dist n q.r ((q.w + bytes.length) % n)) = _
  rw [hd, hput, getBytes_add, getBytes_putBytes_before _ _ _ _ (by omega),
    getBytes_putBytes_same hb _ _ (by omega)]

/-! ### `RB_READ`, `RB_PEEK`, `RB_CONSUME` (R122 to R124) -/

theorem peek_cases (v : RingView) (lag len : Nat) (q : Ring) :
    (usedBy n .reader (refresh n v lag .reader q) < len ∧
      q.peek n v lag len = (refresh n v lag .reader q, Result.signal .wouldBlock)) ∨
    (len ≤ usedBy n .reader (refresh n v lag .reader q) ∧
      q.peek n v lag len = (refresh n v lag .reader q, Result.okWith (.bytes (getBytes n q.buf q.r len)))) := by
  unfold peek
  by_cases h : usedBy n .reader (refresh n v lag .reader q) < len
  · exact .inl ⟨h, by simp [h]⟩
  · exact .inr ⟨by omega, by simp [h]⟩

theorem read_cases (v : RingView) (lag len : Nat) (q : Ring) :
    (usedBy n .reader (refresh n v lag .reader q) < len ∧
      q.read n v lag len = (refresh n v lag .reader q, Result.signal .wouldBlock)) ∨
    (len ≤ usedBy n .reader (refresh n v lag .reader q) ∧
      q.read n v lag len =
        (publishR v ((q.r + len) % n) (refresh n v lag .reader q),
          Result.okWith (.bytes (getBytes n q.buf q.r len)))) := by
  unfold read
  by_cases h : usedBy n .reader (refresh n v lag .reader q) < len
  · exact .inl ⟨h, by simp [h]⟩
  · exact .inr ⟨by omega, by simp [h]⟩

theorem consume_cases (v : RingView) (lag k : Nat) (q : Ring) :
    (usedBy n .reader (refresh n v lag .reader q) < k ∧ q.consume n v lag k = none) ∨
    (k ≤ usedBy n .reader (refresh n v lag .reader q) ∧
      q.consume n v lag k =
        some (publishR v ((q.r + k) % n) (refresh n v lag .reader q), Result.okWith .none)) := by
  unfold consume
  by_cases h : usedBy n .reader (refresh n v lag .reader q) < k
  · exact .inl ⟨h, by simp [h]⟩
  · exact .inr ⟨by omega, by simp [h]⟩

/-- Advancing the read cursor over bytes the reader sees keeps the ring invariants. -/
theorem advance_wf {v : RingView} {k : Nat} {q : Ring} (h : q.wf n = true) (hk : k ≤ usedBy n .reader q) :
    (publishR v ((q.r + k) % n) q).wf n = true := by
  have hu := usedBy_reader_le h
  have hul := used_lt h
  have hd := used_after_read h (k := k) (by omega)
  obtain ⟨hw, hr, hwv, hrv, h1, h2, hb⟩ := wf_iff.mp h
  have hm : (q.r + k) % n < n := Nat.mod_lt _ (by omega)
  have hvd : dist n ((q.r + k) % n) q.wv = usedBy n .reader q - k := by
    simp only [usedBy] at *
    have e1 := dist_spec hm hwv
    have e2 := dist_spec hr hwv
    have e3 := mod_spec (n := n) (a := q.r + k) (by omega)
    omega
  rw [wf_iff]
  cases v
  · refine ⟨hw, hm, hwv, hrv, ?_, ?_, hb⟩
    · simp only [publishR]; rw [hd, hvd]; omega
    · simp only [publishR]; rw [hd]; unfold used; omega
  · refine ⟨hw, hm, hwv, hm, ?_, le_refl _, hb⟩
    simp only [publishR]; rw [hd, hvd]; omega

/-- Advancing the read cursor drops that many of the waiting bytes. -/
theorem advance_contents {v : RingView} {k : Nat} {q : Ring} (h : q.wf n = true) (hk : k ≤ used n q) :
    (publishR v ((q.r + k) % n) q).contents n = (q.contents n).drop k := by
  have hd := used_after_read h hk
  unfold contents
  rw [getBytes_drop _ _ hk, ← hd, ← getBytes_mod _ (q.r + k)]
  rfl

theorem read_wf {v : RingView} {lag len : Nat} {q : Ring} (h : q.wf n = true) :
    (q.read n v lag len).1.wf n = true := by
  have hq := refresh_wf (v := v) (lag := lag) (side := .reader) h
  rcases read_cases (n := n) v lag len q with ⟨-, e⟩ | ⟨hl, e⟩
  · rw [e]; exact hq
  · rw [e]; simpa using advance_wf (v := v) hq hl

theorem peek_wf {v : RingView} {lag len : Nat} {q : Ring} (h : q.wf n = true) :
    (q.peek n v lag len).1.wf n = true := by
  have hq := refresh_wf (v := v) (lag := lag) (side := .reader) h
  rcases peek_cases (n := n) v lag len q with ⟨-, e⟩ | ⟨-, e⟩ <;> rw [e] <;> exact hq

theorem consume_wf {v : RingView} {lag k : Nat} {q : Ring} {p : Ring × Result} (h : q.wf n = true)
    (hc : q.consume n v lag k = some p) : p.1.wf n = true := by
  have hq := refresh_wf (v := v) (lag := lag) (side := .reader) h
  rcases consume_cases (n := n) v lag k q with ⟨-, e⟩ | ⟨hl, e⟩
  · rw [e] at hc; cases hc
  · rw [e] at hc; cases hc; simpa using advance_wf (v := v) hq hl

/-- A read that succeeds returns the oldest waiting bytes. -/
theorem getBytes_eq_take {q : Ring} {len : Nat} (hl : len ≤ used n q) :
    getBytes n q.buf q.r len = (q.contents n).take len := (getBytes_take _ _ hl).symm

theorem read_ok_contents {v : RingView} {lag len : Nat} {q : Ring} (h : q.wf n = true)
    (hl : len ≤ usedBy n .reader (refresh n v lag .reader q)) :
    (q.read n v lag len).1.contents n = (q.contents n).drop len := by
  have hq := refresh_wf (v := v) (lag := lag) (side := .reader) h
  have hu := usedBy_reader_le hq
  rcases read_cases (n := n) v lag len q with ⟨hlt, -⟩ | ⟨-, e⟩
  · omega
  · rw [e]; simpa using advance_contents (v := v) hq (k := len) (by omega)

/-! ### `RB_CLEAR` (R127) -/

theorem clear_wf {q : Ring} (h : q.wf n = true) : q.clear.wf n = true := by
  obtain ⟨hw, -, -, -, -, -, hb⟩ := wf_iff.mp h
  have h0 : 0 < n := by omega
  rw [wf_iff]
  exact ⟨h0, h0, h0, h0, le_refl _, le_refl _, hb⟩

@[simp] theorem clear_used (q : Ring) : used n q.clear = 0 := by
  simp [used, clear, dist]

@[simp] theorem clear_contents (q : Ring) : contents n q.clear = [] := by
  simp [contents, getBytes]

end Sys2Proof.Machine.Ring
end

