-- ==== Sys2Proof/Laws/State.lean ====
section
/-!
SUPPORT. One lemma per field per update of the state, so that no proof unfolds a record update; for the updates that
test something, what the test leaves unchanged.
-/
namespace Sys2Proof.Machine

/-! ### `State.ret` -/

@[simp] theorem State.ret_par (r : Result) (s : State) : (s.ret r).par = s.par := rfl
@[simp] theorem State.ret_x (r : Result) (s : State) : (s.ret r).x = s.x := rfl
@[simp] theorem State.ret_ram (r : Result) (s : State) : (s.ret r).ram = s.ram := rfl
@[simp] theorem State.ret_rxq (r : Result) (s : State) : (s.ret r).rxq = s.rxq := rfl
@[simp] theorem State.ret_txq (r : Result) (s : State) : (s.ret r).txq = s.txq := rfl
@[simp] theorem State.ret_txBlock (r : Result) (s : State) : (s.ret r).txBlock = s.txBlock := rfl
@[simp] theorem State.ret_txDelay (r : Result) (s : State) : (s.ret r).txDelay = s.txDelay := rfl
@[simp] theorem State.ret_rxDelay (r : Result) (s : State) : (s.ret r).rxDelay = s.rxDelay := rfl
@[simp] theorem State.ret_irqHold (r : Result) (s : State) : (s.ret r).irqHold = s.irqHold := rfl
@[simp] theorem State.ret_irqLatch (r : Result) (s : State) : (s.ret r).irqLatch = s.irqLatch := rfl
@[simp] theorem State.ret_rxConn (r : Result) (s : State) : (s.ret r).rxConn = s.rxConn := rfl
@[simp] theorem State.ret_txConn (r : Result) (s : State) : (s.ret r).txConn = s.txConn := rfl
@[simp] theorem State.ret_linkId (r : Result) (s : State) : (s.ret r).linkId = s.linkId := rfl
@[simp] theorem State.ret_forward (r : Result) (s : State) : (s.ret r).forward = s.forward := rfl
@[simp] theorem State.ret_endpoint (r : Result) (s : State) : (s.ret r).endpoint = s.endpoint := rfl
@[simp] theorem State.ret_irqEvents (r : Result) (s : State) : (s.ret r).irqEvents = s.irqEvents := rfl
@[simp] theorem State.ret_drainKicks (r : Result) (s : State) : (s.ret r).drainKicks = s.drainKicks := rfl
@[simp] theorem State.ret_bgRunning (r : Result) (s : State) : (s.ret r).bgRunning = s.bgRunning := rfl
@[simp] theorem State.ret_out (r : Result) (s : State) : (s.ret r).out = r := rfl
@[simp] theorem State.ret_midOut (r : Result) (s : State) : (s.ret r).midOut = s.midOut := rfl
@[simp] theorem State.ret_inp (r : Result) (s : State) : (s.ret r).inp = s.inp := rfl
@[simp] theorem State.ret_pending (r : Result) (s : State) : (s.ret r).pending = s.pending := rfl

/-! ### `State.retWord` -/

@[simp] theorem State.retWord_par (v : Word) (s : State) : (s.retWord v).par = s.par := rfl
@[simp] theorem State.retWord_x (v : Word) (s : State) : (s.retWord v).x = s.x := rfl
@[simp] theorem State.retWord_ram (v : Word) (s : State) : (s.retWord v).ram = s.ram := rfl
@[simp] theorem State.retWord_rxq (v : Word) (s : State) : (s.retWord v).rxq = s.rxq := rfl
@[simp] theorem State.retWord_txq (v : Word) (s : State) : (s.retWord v).txq = s.txq := rfl
@[simp] theorem State.retWord_txBlock (v : Word) (s : State) : (s.retWord v).txBlock = s.txBlock := rfl
@[simp] theorem State.retWord_txDelay (v : Word) (s : State) : (s.retWord v).txDelay = s.txDelay := rfl
@[simp] theorem State.retWord_rxDelay (v : Word) (s : State) : (s.retWord v).rxDelay = s.rxDelay := rfl
@[simp] theorem State.retWord_irqHold (v : Word) (s : State) : (s.retWord v).irqHold = s.irqHold := rfl
@[simp] theorem State.retWord_irqLatch (v : Word) (s : State) : (s.retWord v).irqLatch = s.irqLatch := rfl
@[simp] theorem State.retWord_rxConn (v : Word) (s : State) : (s.retWord v).rxConn = s.rxConn := rfl
@[simp] theorem State.retWord_txConn (v : Word) (s : State) : (s.retWord v).txConn = s.txConn := rfl
@[simp] theorem State.retWord_linkId (v : Word) (s : State) : (s.retWord v).linkId = s.linkId := rfl
@[simp] theorem State.retWord_forward (v : Word) (s : State) : (s.retWord v).forward = s.forward := rfl
@[simp] theorem State.retWord_endpoint (v : Word) (s : State) : (s.retWord v).endpoint = s.endpoint := rfl
@[simp] theorem State.retWord_irqEvents (v : Word) (s : State) : (s.retWord v).irqEvents = s.irqEvents := rfl
@[simp] theorem State.retWord_drainKicks (v : Word) (s : State) : (s.retWord v).drainKicks = s.drainKicks := rfl
@[simp] theorem State.retWord_bgRunning (v : Word) (s : State) : (s.retWord v).bgRunning = s.bgRunning := rfl
@[simp] theorem State.retWord_out (v : Word) (s : State) : (s.retWord v).out = { st := none, value := .word v } := rfl
@[simp] theorem State.retWord_midOut (v : Word) (s : State) : (s.retWord v).midOut = s.midOut := rfl
@[simp] theorem State.retWord_inp (v : Word) (s : State) : (s.retWord v).inp = s.inp := rfl
@[simp] theorem State.retWord_pending (v : Word) (s : State) : (s.retWord v).pending = s.pending := rfl

/-! ### `State.done` -/

@[simp] theorem State.done_par (s : State) : (s.done).par = s.par := rfl
@[simp] theorem State.done_x (s : State) : (s.done).x = s.x := rfl
@[simp] theorem State.done_ram (s : State) : (s.done).ram = s.ram := rfl
@[simp] theorem State.done_rxq (s : State) : (s.done).rxq = s.rxq := rfl
@[simp] theorem State.done_txq (s : State) : (s.done).txq = s.txq := rfl
@[simp] theorem State.done_txBlock (s : State) : (s.done).txBlock = s.txBlock := rfl
@[simp] theorem State.done_txDelay (s : State) : (s.done).txDelay = s.txDelay := rfl
@[simp] theorem State.done_rxDelay (s : State) : (s.done).rxDelay = s.rxDelay := rfl
@[simp] theorem State.done_irqHold (s : State) : (s.done).irqHold = s.irqHold := rfl
@[simp] theorem State.done_irqLatch (s : State) : (s.done).irqLatch = s.irqLatch := rfl
@[simp] theorem State.done_rxConn (s : State) : (s.done).rxConn = s.rxConn := rfl
@[simp] theorem State.done_txConn (s : State) : (s.done).txConn = s.txConn := rfl
@[simp] theorem State.done_linkId (s : State) : (s.done).linkId = s.linkId := rfl
@[simp] theorem State.done_forward (s : State) : (s.done).forward = s.forward := rfl
@[simp] theorem State.done_endpoint (s : State) : (s.done).endpoint = s.endpoint := rfl
@[simp] theorem State.done_irqEvents (s : State) : (s.done).irqEvents = s.irqEvents := rfl
@[simp] theorem State.done_drainKicks (s : State) : (s.done).drainKicks = s.drainKicks := rfl
@[simp] theorem State.done_bgRunning (s : State) : (s.done).bgRunning = s.bgRunning := rfl
@[simp] theorem State.done_out (s : State) : (s.done).out = Result.nothing := rfl
@[simp] theorem State.done_midOut (s : State) : (s.done).midOut = s.midOut := rfl
@[simp] theorem State.done_inp (s : State) : (s.done).inp = s.inp := rfl
@[simp] theorem State.done_pending (s : State) : (s.done).pending = s.pending := rfl

/-! ### `State.take` -/

@[simp] theorem State.take_par (iss : Issue) (rest : List Issue) (s : State) : (s.take iss rest).par = s.par := rfl
@[simp] theorem State.take_x (iss : Issue) (rest : List Issue) (s : State) : (s.take iss rest).x = s.x := rfl
@[simp] theorem State.take_ram (iss : Issue) (rest : List Issue) (s : State) : (s.take iss rest).ram = s.ram := rfl
@[simp] theorem State.take_rxq (iss : Issue) (rest : List Issue) (s : State) : (s.take iss rest).rxq = s.rxq := rfl
@[simp] theorem State.take_txq (iss : Issue) (rest : List Issue) (s : State) : (s.take iss rest).txq = s.txq := rfl
@[simp] theorem State.take_txBlock (iss : Issue) (rest : List Issue) (s : State) : (s.take iss rest).txBlock = s.txBlock := rfl
@[simp] theorem State.take_txDelay (iss : Issue) (rest : List Issue) (s : State) : (s.take iss rest).txDelay = s.txDelay := rfl
@[simp] theorem State.take_rxDelay (iss : Issue) (rest : List Issue) (s : State) : (s.take iss rest).rxDelay = s.rxDelay := rfl
@[simp] theorem State.take_irqHold (iss : Issue) (rest : List Issue) (s : State) : (s.take iss rest).irqHold = s.irqHold := rfl
@[simp] theorem State.take_irqLatch (iss : Issue) (rest : List Issue) (s : State) : (s.take iss rest).irqLatch = s.irqLatch := rfl
@[simp] theorem State.take_rxConn (iss : Issue) (rest : List Issue) (s : State) : (s.take iss rest).rxConn = s.rxConn := rfl
@[simp] theorem State.take_txConn (iss : Issue) (rest : List Issue) (s : State) : (s.take iss rest).txConn = s.txConn := rfl
@[simp] theorem State.take_linkId (iss : Issue) (rest : List Issue) (s : State) : (s.take iss rest).linkId = s.linkId := rfl
@[simp] theorem State.take_forward (iss : Issue) (rest : List Issue) (s : State) : (s.take iss rest).forward = s.forward := rfl
@[simp] theorem State.take_endpoint (iss : Issue) (rest : List Issue) (s : State) : (s.take iss rest).endpoint = s.endpoint := rfl
@[simp] theorem State.take_irqEvents (iss : Issue) (rest : List Issue) (s : State) : (s.take iss rest).irqEvents = s.irqEvents := rfl
@[simp] theorem State.take_drainKicks (iss : Issue) (rest : List Issue) (s : State) : (s.take iss rest).drainKicks = s.drainKicks := rfl
@[simp] theorem State.take_bgRunning (iss : Issue) (rest : List Issue) (s : State) : (s.take iss rest).bgRunning = s.bgRunning := rfl
@[simp] theorem State.take_out (iss : Issue) (rest : List Issue) (s : State) : (s.take iss rest).out = s.out := rfl
@[simp] theorem State.take_midOut (iss : Issue) (rest : List Issue) (s : State) : (s.take iss rest).midOut = s.midOut := rfl
@[simp] theorem State.take_inp (iss : Issue) (rest : List Issue) (s : State) : (s.take iss rest).inp = iss.inp := rfl
@[simp] theorem State.take_pending (iss : Issue) (rest : List Issue) (s : State) : (s.take iss rest).pending = rest := rfl

/-! ### `notify` -/

@[simp] theorem notify_par (b : Bool) (s : State) : (notify b s).par = s.par := rfl
@[simp] theorem notify_x (b : Bool) (s : State) : (notify b s).x = s.x := rfl
@[simp] theorem notify_ram (b : Bool) (s : State) : (notify b s).ram = s.ram := rfl
@[simp] theorem notify_rxq (b : Bool) (s : State) : (notify b s).rxq = s.rxq := rfl
@[simp] theorem notify_txq (b : Bool) (s : State) : (notify b s).txq = s.txq := rfl
@[simp] theorem notify_txBlock (b : Bool) (s : State) : (notify b s).txBlock = s.txBlock := rfl
@[simp] theorem notify_txDelay (b : Bool) (s : State) : (notify b s).txDelay = s.txDelay := rfl
@[simp] theorem notify_rxDelay (b : Bool) (s : State) : (notify b s).rxDelay = s.rxDelay := rfl
@[simp] theorem notify_irqHold (b : Bool) (s : State) : (notify b s).irqHold = s.irqHold := rfl
@[simp] theorem notify_irqLatch (b : Bool) (s : State) : (notify b s).irqLatch = s.irqLatch := rfl
@[simp] theorem notify_rxConn (b : Bool) (s : State) : (notify b s).rxConn = s.rxConn := rfl
@[simp] theorem notify_txConn (b : Bool) (s : State) : (notify b s).txConn = s.txConn := rfl
@[simp] theorem notify_linkId (b : Bool) (s : State) : (notify b s).linkId = s.linkId := rfl
@[simp] theorem notify_forward (b : Bool) (s : State) : (notify b s).forward = s.forward := rfl
@[simp] theorem notify_endpoint (b : Bool) (s : State) : (notify b s).endpoint = s.endpoint := rfl
@[simp] theorem notify_irqEvents (b : Bool) (s : State) : (notify b s).irqEvents = s.irqEvents ++ [b] := rfl
@[simp] theorem notify_drainKicks (b : Bool) (s : State) : (notify b s).drainKicks = s.drainKicks := rfl
@[simp] theorem notify_bgRunning (b : Bool) (s : State) : (notify b s).bgRunning = s.bgRunning := rfl
@[simp] theorem notify_out (b : Bool) (s : State) : (notify b s).out = s.out := rfl
@[simp] theorem notify_midOut (b : Bool) (s : State) : (notify b s).midOut = s.midOut := rfl
@[simp] theorem notify_inp (b : Bool) (s : State) : (notify b s).inp = s.inp := rfl
@[simp] theorem notify_pending (b : Bool) (s : State) : (notify b s).pending = s.pending := rfl

/-! ### `acknowledge` -/

@[simp] theorem acknowledge_par (s : State) : (acknowledge s).par = s.par := rfl
@[simp] theorem acknowledge_x (s : State) : (acknowledge s).x = { s.x with status := 0 } := rfl
@[simp] theorem acknowledge_ram (s : State) : (acknowledge s).ram = s.ram := rfl
@[simp] theorem acknowledge_rxq (s : State) : (acknowledge s).rxq = s.rxq := rfl
@[simp] theorem acknowledge_txq (s : State) : (acknowledge s).txq = s.txq := rfl
@[simp] theorem acknowledge_txBlock (s : State) : (acknowledge s).txBlock = s.txBlock := rfl
@[simp] theorem acknowledge_txDelay (s : State) : (acknowledge s).txDelay = s.txDelay := rfl
@[simp] theorem acknowledge_rxDelay (s : State) : (acknowledge s).rxDelay = s.rxDelay := rfl
@[simp] theorem acknowledge_irqHold (s : State) : (acknowledge s).irqHold = s.irqHold := rfl
@[simp] theorem acknowledge_irqLatch (s : State) : (acknowledge s).irqLatch = false := rfl
@[simp] theorem acknowledge_rxConn (s : State) : (acknowledge s).rxConn = s.rxConn := rfl
@[simp] theorem acknowledge_txConn (s : State) : (acknowledge s).txConn = s.txConn := rfl
@[simp] theorem acknowledge_linkId (s : State) : (acknowledge s).linkId = s.linkId := rfl
@[simp] theorem acknowledge_forward (s : State) : (acknowledge s).forward = s.forward := rfl
@[simp] theorem acknowledge_endpoint (s : State) : (acknowledge s).endpoint = s.endpoint := rfl
@[simp] theorem acknowledge_irqEvents (s : State) : (acknowledge s).irqEvents = s.irqEvents ++ [false] := rfl
@[simp] theorem acknowledge_drainKicks (s : State) : (acknowledge s).drainKicks = s.drainKicks := rfl
@[simp] theorem acknowledge_bgRunning (s : State) : (acknowledge s).bgRunning = s.bgRunning := rfl
@[simp] theorem acknowledge_out (s : State) : (acknowledge s).out = s.out := rfl
@[simp] theorem acknowledge_midOut (s : State) : (acknowledge s).midOut = s.midOut := rfl
@[simp] theorem acknowledge_inp (s : State) : (acknowledge s).inp = s.inp := rfl
@[simp] theorem acknowledge_pending (s : State) : (acknowledge s).pending = s.pending := rfl

/-! ### `State.setRing` -/

@[simp] theorem State.setRing_par (q : RingId) (r : Ring) (s : State) : (s.setRing q r).par = s.par := by
  cases q <;> rfl
@[simp] theorem State.setRing_x (q : RingId) (r : Ring) (s : State) : (s.setRing q r).x = s.x := by
  cases q <;> rfl
@[simp] theorem State.setRing_ram (q : RingId) (r : Ring) (s : State) : (s.setRing q r).ram = s.ram := by
  cases q <;> rfl
@[simp] theorem State.setRing_txBlock (q : RingId) (r : Ring) (s : State) : (s.setRing q r).txBlock = s.txBlock := by
  cases q <;> rfl
@[simp] theorem State.setRing_txDelay (q : RingId) (r : Ring) (s : State) : (s.setRing q r).txDelay = s.txDelay := by
  cases q <;> rfl
@[simp] theorem State.setRing_rxDelay (q : RingId) (r : Ring) (s : State) : (s.setRing q r).rxDelay = s.rxDelay := by
  cases q <;> rfl
@[simp] theorem State.setRing_irqHold (q : RingId) (r : Ring) (s : State) : (s.setRing q r).irqHold = s.irqHold := by
  cases q <;> rfl
@[simp] theorem State.setRing_irqLatch (q : RingId) (r : Ring) (s : State) : (s.setRing q r).irqLatch = s.irqLatch := by
  cases q <;> rfl
@[simp] theorem State.setRing_rxConn (q : RingId) (r : Ring) (s : State) : (s.setRing q r).rxConn = s.rxConn := by
  cases q <;> rfl
@[simp] theorem State.setRing_txConn (q : RingId) (r : Ring) (s : State) : (s.setRing q r).txConn = s.txConn := by
  cases q <;> rfl
@[simp] theorem State.setRing_linkId (q : RingId) (r : Ring) (s : State) : (s.setRing q r).linkId = s.linkId := by
  cases q <;> rfl
@[simp] theorem State.setRing_forward (q : RingId) (r : Ring) (s : State) : (s.setRing q r).forward = s.forward := by
  cases q <;> rfl
@[simp] theorem State.setRing_endpoint (q : RingId) (r : Ring) (s : State) : (s.setRing q r).endpoint = s.endpoint := by
  cases q <;> rfl
@[simp] theorem State.setRing_irqEvents (q : RingId) (r : Ring) (s : State) : (s.setRing q r).irqEvents = s.irqEvents := by
  cases q <;> rfl
@[simp] theorem State.setRing_drainKicks (q : RingId) (r : Ring) (s : State) : (s.setRing q r).drainKicks = s.drainKicks := by
  cases q <;> rfl
@[simp] theorem State.setRing_bgRunning (q : RingId) (r : Ring) (s : State) : (s.setRing q r).bgRunning = s.bgRunning := by
  cases q <;> rfl
@[simp] theorem State.setRing_out (q : RingId) (r : Ring) (s : State) : (s.setRing q r).out = s.out := by
  cases q <;> rfl
@[simp] theorem State.setRing_midOut (q : RingId) (r : Ring) (s : State) : (s.setRing q r).midOut = s.midOut := by
  cases q <;> rfl
@[simp] theorem State.setRing_inp (q : RingId) (r : Ring) (s : State) : (s.setRing q r).inp = s.inp := by
  cases q <;> rfl
@[simp] theorem State.setRing_pending (q : RingId) (r : Ring) (s : State) : (s.setRing q r).pending = s.pending := by
  cases q <;> rfl

@[simp] theorem State.setRing_ring_same (q : RingId) (r : Ring) (s : State) : (s.setRing q r).ring q = r := by
  cases q <;> rfl

theorem State.setRing_ring_other {q q' : RingId} (h : q' ≠ q) (r : Ring) (s : State) :
    (s.setRing q r).ring q' = s.ring q' := by
  cases q <;> cases q' <;> first | rfl | exact absurd rfl h

@[simp] theorem State.setRing_rxq_rxq (r : Ring) (s : State) : (s.setRing .rxq r).rxq = r := rfl
@[simp] theorem State.setRing_rxq_txq (r : Ring) (s : State) : (s.setRing .rxq r).txq = s.txq := rfl
@[simp] theorem State.setRing_txq_rxq (r : Ring) (s : State) : (s.setRing .txq r).rxq = s.rxq := rfl
@[simp] theorem State.setRing_txq_txq (r : Ring) (s : State) : (s.setRing .txq r).txq = r := rfl

@[simp] theorem State.setRing_self (q : RingId) (s : State) : s.setRing q (s.ring q) = s := by
  cases q <;> rfl

@[simp] theorem State.ring_rxq (s : State) : s.ring .rxq = s.rxq := rfl
@[simp] theorem State.ring_txq (s : State) : s.ring .txq = s.txq := rfl
@[simp] theorem State.ret_ring (r : Result) (s : State) (q : RingId) : (s.ret r).ring q = s.ring q := by
  cases q <;> rfl
@[simp] theorem State.lag_writer (s : State) : s.lag .writer = s.inp.lagW := rfl
@[simp] theorem State.lag_reader (s : State) : s.lag .reader = s.inp.lagR := rfl

/-! ### `State.setConn` -/

@[simp] theorem State.setConn_par (role : Role) (c : RoleState) (s : State) : (s.setConn role c).par = s.par := by
  cases role <;> rfl
@[simp] theorem State.setConn_x (role : Role) (c : RoleState) (s : State) : (s.setConn role c).x = s.x := by
  cases role <;> rfl
@[simp] theorem State.setConn_ram (role : Role) (c : RoleState) (s : State) : (s.setConn role c).ram = s.ram := by
  cases role <;> rfl
@[simp] theorem State.setConn_rxq (role : Role) (c : RoleState) (s : State) : (s.setConn role c).rxq = s.rxq := by
  cases role <;> rfl
@[simp] theorem State.setConn_txq (role : Role) (c : RoleState) (s : State) : (s.setConn role c).txq = s.txq := by
  cases role <;> rfl
@[simp] theorem State.setConn_txBlock (role : Role) (c : RoleState) (s : State) : (s.setConn role c).txBlock = s.txBlock := by
  cases role <;> rfl
@[simp] theorem State.setConn_txDelay (role : Role) (c : RoleState) (s : State) : (s.setConn role c).txDelay = s.txDelay := by
  cases role <;> rfl
@[simp] theorem State.setConn_rxDelay (role : Role) (c : RoleState) (s : State) : (s.setConn role c).rxDelay = s.rxDelay := by
  cases role <;> rfl
@[simp] theorem State.setConn_irqHold (role : Role) (c : RoleState) (s : State) : (s.setConn role c).irqHold = s.irqHold := by
  cases role <;> rfl
@[simp] theorem State.setConn_irqLatch (role : Role) (c : RoleState) (s : State) : (s.setConn role c).irqLatch = s.irqLatch := by
  cases role <;> rfl
@[simp] theorem State.setConn_linkId (role : Role) (c : RoleState) (s : State) : (s.setConn role c).linkId = s.linkId := by
  cases role <;> rfl
@[simp] theorem State.setConn_forward (role : Role) (c : RoleState) (s : State) : (s.setConn role c).forward = s.forward := by
  cases role <;> rfl
@[simp] theorem State.setConn_endpoint (role : Role) (c : RoleState) (s : State) : (s.setConn role c).endpoint = s.endpoint := by
  cases role <;> rfl
@[simp] theorem State.setConn_irqEvents (role : Role) (c : RoleState) (s : State) : (s.setConn role c).irqEvents = s.irqEvents := by
  cases role <;> rfl
@[simp] theorem State.setConn_drainKicks (role : Role) (c : RoleState) (s : State) : (s.setConn role c).drainKicks = s.drainKicks := by
  cases role <;> rfl
@[simp] theorem State.setConn_bgRunning (role : Role) (c : RoleState) (s : State) : (s.setConn role c).bgRunning = s.bgRunning := by
  cases role <;> rfl
@[simp] theorem State.setConn_out (role : Role) (c : RoleState) (s : State) : (s.setConn role c).out = s.out := by
  cases role <;> rfl
@[simp] theorem State.setConn_midOut (role : Role) (c : RoleState) (s : State) : (s.setConn role c).midOut = s.midOut := by
  cases role <;> rfl
@[simp] theorem State.setConn_inp (role : Role) (c : RoleState) (s : State) : (s.setConn role c).inp = s.inp := by
  cases role <;> rfl
@[simp] theorem State.setConn_pending (role : Role) (c : RoleState) (s : State) : (s.setConn role c).pending = s.pending := by
  cases role <;> rfl

@[simp] theorem State.setConn_conn_same (role : Role) (c : RoleState) (s : State) :
    (s.setConn role c).conn role = c := by
  cases role <;> rfl

theorem State.setConn_conn_other {role role' : Role} (h : role' ≠ role) (c : RoleState) (s : State) :
    (s.setConn role c).conn role' = s.conn role' := by
  cases role <;> cases role' <;> first | rfl | exact absurd rfl h

@[simp] theorem State.conn_rx (s : State) : s.conn .rx = s.rxConn := rfl
@[simp] theorem State.conn_tx (s : State) : s.conn .tx = s.txConn := rfl

/-! ### `clearLatch` -/

@[simp] theorem clearLatch_par (s : State) : (clearLatch s).par = s.par := by
  unfold clearLatch; split <;> rfl
@[simp] theorem clearLatch_x (s : State) : (clearLatch s).x = s.x := by
  unfold clearLatch; split <;> rfl
@[simp] theorem clearLatch_ram (s : State) : (clearLatch s).ram = s.ram := by
  unfold clearLatch; split <;> rfl
@[simp] theorem clearLatch_rxq (s : State) : (clearLatch s).rxq = s.rxq := by
  unfold clearLatch; split <;> rfl
@[simp] theorem clearLatch_txq (s : State) : (clearLatch s).txq = s.txq := by
  unfold clearLatch; split <;> rfl
@[simp] theorem clearLatch_txBlock (s : State) : (clearLatch s).txBlock = s.txBlock := by
  unfold clearLatch; split <;> rfl
@[simp] theorem clearLatch_txDelay (s : State) : (clearLatch s).txDelay = s.txDelay := by
  unfold clearLatch; split <;> rfl
@[simp] theorem clearLatch_rxDelay (s : State) : (clearLatch s).rxDelay = s.rxDelay := by
  unfold clearLatch; split <;> rfl
@[simp] theorem clearLatch_irqHold (s : State) : (clearLatch s).irqHold = s.irqHold := by
  unfold clearLatch; split <;> rfl
@[simp] theorem clearLatch_rxConn (s : State) : (clearLatch s).rxConn = s.rxConn := by
  unfold clearLatch; split <;> rfl
@[simp] theorem clearLatch_txConn (s : State) : (clearLatch s).txConn = s.txConn := by
  unfold clearLatch; split <;> rfl
@[simp] theorem clearLatch_linkId (s : State) : (clearLatch s).linkId = s.linkId := by
  unfold clearLatch; split <;> rfl
@[simp] theorem clearLatch_forward (s : State) : (clearLatch s).forward = s.forward := by
  unfold clearLatch; split <;> rfl
@[simp] theorem clearLatch_endpoint (s : State) : (clearLatch s).endpoint = s.endpoint := by
  unfold clearLatch; split <;> rfl
@[simp] theorem clearLatch_drainKicks (s : State) : (clearLatch s).drainKicks = s.drainKicks := by
  unfold clearLatch; split <;> rfl
@[simp] theorem clearLatch_bgRunning (s : State) : (clearLatch s).bgRunning = s.bgRunning := by
  unfold clearLatch; split <;> rfl
@[simp] theorem clearLatch_out (s : State) : (clearLatch s).out = s.out := by
  unfold clearLatch; split <;> rfl
@[simp] theorem clearLatch_midOut (s : State) : (clearLatch s).midOut = s.midOut := by
  unfold clearLatch; split <;> rfl
@[simp] theorem clearLatch_inp (s : State) : (clearLatch s).inp = s.inp := by
  unfold clearLatch; split <;> rfl
@[simp] theorem clearLatch_pending (s : State) : (clearLatch s).pending = s.pending := by
  unfold clearLatch; split <;> rfl

@[simp] theorem clearLatch_irqLatch (s : State) : (clearLatch s).irqLatch = false := by
  unfold clearLatch; split
  · rfl
  · simpa using ‹¬s.irqLatch = true›

/-! ### `updateLatch` -/

@[simp] theorem updateLatch_par (a : Bool) (s : State) : (updateLatch a s).par = s.par := by
  unfold updateLatch; split <;> split <;> rfl
@[simp] theorem updateLatch_x (a : Bool) (s : State) : (updateLatch a s).x = s.x := by
  unfold updateLatch; split <;> split <;> rfl
@[simp] theorem updateLatch_ram (a : Bool) (s : State) : (updateLatch a s).ram = s.ram := by
  unfold updateLatch; split <;> split <;> rfl
@[simp] theorem updateLatch_rxq (a : Bool) (s : State) : (updateLatch a s).rxq = s.rxq := by
  unfold updateLatch; split <;> split <;> rfl
@[simp] theorem updateLatch_txq (a : Bool) (s : State) : (updateLatch a s).txq = s.txq := by
  unfold updateLatch; split <;> split <;> rfl
@[simp] theorem updateLatch_txBlock (a : Bool) (s : State) : (updateLatch a s).txBlock = s.txBlock := by
  unfold updateLatch; split <;> split <;> rfl
@[simp] theorem updateLatch_txDelay (a : Bool) (s : State) : (updateLatch a s).txDelay = s.txDelay := by
  unfold updateLatch; split <;> split <;> rfl
@[simp] theorem updateLatch_rxDelay (a : Bool) (s : State) : (updateLatch a s).rxDelay = s.rxDelay := by
  unfold updateLatch; split <;> split <;> rfl
@[simp] theorem updateLatch_rxConn (a : Bool) (s : State) : (updateLatch a s).rxConn = s.rxConn := by
  unfold updateLatch; split <;> split <;> rfl
@[simp] theorem updateLatch_txConn (a : Bool) (s : State) : (updateLatch a s).txConn = s.txConn := by
  unfold updateLatch; split <;> split <;> rfl
@[simp] theorem updateLatch_linkId (a : Bool) (s : State) : (updateLatch a s).linkId = s.linkId := by
  unfold updateLatch; split <;> split <;> rfl
@[simp] theorem updateLatch_forward (a : Bool) (s : State) : (updateLatch a s).forward = s.forward := by
  unfold updateLatch; split <;> split <;> rfl
@[simp] theorem updateLatch_endpoint (a : Bool) (s : State) : (updateLatch a s).endpoint = s.endpoint := by
  unfold updateLatch; split <;> split <;> rfl
@[simp] theorem updateLatch_drainKicks (a : Bool) (s : State) : (updateLatch a s).drainKicks = s.drainKicks := by
  unfold updateLatch; split <;> split <;> rfl
@[simp] theorem updateLatch_bgRunning (a : Bool) (s : State) : (updateLatch a s).bgRunning = s.bgRunning := by
  unfold updateLatch; split <;> split <;> rfl
@[simp] theorem updateLatch_out (a : Bool) (s : State) : (updateLatch a s).out = s.out := by
  unfold updateLatch; split <;> split <;> rfl
@[simp] theorem updateLatch_midOut (a : Bool) (s : State) : (updateLatch a s).midOut = s.midOut := by
  unfold updateLatch; split <;> split <;> rfl
@[simp] theorem updateLatch_inp (a : Bool) (s : State) : (updateLatch a s).inp = s.inp := by
  unfold updateLatch; split <;> split <;> rfl
@[simp] theorem updateLatch_pending (a : Bool) (s : State) : (updateLatch a s).pending = s.pending := by
  unfold updateLatch; split <;> split <;> rfl

/-! ### `assertInterrupt` -/

@[simp] theorem assertInterrupt_par (s : State) : (assertInterrupt s).par = s.par := by
  simp [assertInterrupt]
@[simp] theorem assertInterrupt_ram (s : State) : (assertInterrupt s).ram = s.ram := by
  simp [assertInterrupt]
@[simp] theorem assertInterrupt_rxq (s : State) : (assertInterrupt s).rxq = s.rxq := by
  simp [assertInterrupt]
@[simp] theorem assertInterrupt_txq (s : State) : (assertInterrupt s).txq = s.txq := by
  simp [assertInterrupt]
@[simp] theorem assertInterrupt_txBlock (s : State) : (assertInterrupt s).txBlock = s.txBlock := by
  simp [assertInterrupt]
@[simp] theorem assertInterrupt_txDelay (s : State) : (assertInterrupt s).txDelay = s.txDelay := by
  simp [assertInterrupt]
@[simp] theorem assertInterrupt_rxDelay (s : State) : (assertInterrupt s).rxDelay = s.rxDelay := by
  simp [assertInterrupt]
@[simp] theorem assertInterrupt_rxConn (s : State) : (assertInterrupt s).rxConn = s.rxConn := by
  simp [assertInterrupt]
@[simp] theorem assertInterrupt_txConn (s : State) : (assertInterrupt s).txConn = s.txConn := by
  simp [assertInterrupt]
@[simp] theorem assertInterrupt_linkId (s : State) : (assertInterrupt s).linkId = s.linkId := by
  simp [assertInterrupt]
@[simp] theorem assertInterrupt_forward (s : State) : (assertInterrupt s).forward = s.forward := by
  simp [assertInterrupt]
@[simp] theorem assertInterrupt_endpoint (s : State) : (assertInterrupt s).endpoint = s.endpoint := by
  simp [assertInterrupt]
@[simp] theorem assertInterrupt_drainKicks (s : State) : (assertInterrupt s).drainKicks = s.drainKicks := by
  simp [assertInterrupt]
@[simp] theorem assertInterrupt_bgRunning (s : State) : (assertInterrupt s).bgRunning = s.bgRunning := by
  simp [assertInterrupt]
@[simp] theorem assertInterrupt_out (s : State) : (assertInterrupt s).out = s.out := by
  simp [assertInterrupt]
@[simp] theorem assertInterrupt_midOut (s : State) : (assertInterrupt s).midOut = s.midOut := by
  simp [assertInterrupt]
@[simp] theorem assertInterrupt_inp (s : State) : (assertInterrupt s).inp = s.inp := by
  simp [assertInterrupt]
@[simp] theorem assertInterrupt_pending (s : State) : (assertInterrupt s).pending = s.pending := by
  simp [assertInterrupt]

@[simp] theorem assertInterrupt_x (s : State) : (assertInterrupt s).x = { s.x with mode := 0x000f } := by
  simp [assertInterrupt]

/-! ### The reset state -/

/-- The memories of the reset state list nothing, so they have the canonical form. -/
theorem State.reset_memories_wf : Memory.wf ramWords State.reset.ram = true ∧
    Memory.wf State.reset.par.ringN State.reset.rxq.buf = true ∧
    Memory.wf State.reset.par.ringN State.reset.txq.buf = true := ⟨rfl, rfl, rfl⟩

end Sys2Proof.Machine
end

