-- ==== Sys2Proof/Laws/Ops.lean ====
section
/-!
SUPPORT. What each shared operation can do, said once: the transport operations, the interrupt, the steps of a tick. A
step of a tick is one equation that shows every field it writes.
-/
set_option Elab.async false

namespace Sys2Proof.Machine

/-! ### Rings of the state -/

@[simp] theorem State.ring_setRing_self (q : RingId) (r : Ring) (s : State) : (s.setRing q r).ring q = r := by
  cases q <;> rfl

theorem State.ring_setRing (q q' : RingId) (r : Ring) (s : State) :
    (s.setRing q r).ring q' = if q' = q then r else s.ring q' := by
  cases q <;> cases q' <;> rfl

@[simp] theorem State.setRing_setRing (q : RingId) (r r' : Ring) (s : State) :
    (s.setRing q r).setRing q r' = s.setRing q r' := by cases q <;> rfl

@[simp] theorem State.setRing_ring (q : RingId) (s : State) : s.setRing q (s.ring q) = s := by cases q <;> rfl

@[simp] theorem State.ring_ret (q : RingId) (r : Result) (s : State) : (s.ret r).ring q = s.ring q := by
  cases q <;> rfl

@[simp] theorem State.ret_ret (r r' : Result) (s : State) : (s.ret r).ret r' = s.ret r' := rfl

@[simp] theorem signal_st (c : ResultCode) : (Result.signal c).st = some c := rfl
@[simp] theorem signal_value (c : ResultCode) : (Result.signal c).value = .none := rfl
@[simp] theorem okWith_st (v : Value) : (Result.okWith v).st = some .ok := rfl
@[simp] theorem okWith_value (v : Value) : (Result.okWith v).value = v := rfl
@[simp] theorem nothing_st : Result.nothing.st = none := rfl

/-! ### The ring operations -/

theorem exec_rbWrite (q : RingId) (bytes : List Byte) (s : State) : exec (.rbWrite q bytes) s =
    .next ((s.setRing q ((s.ring q).write s.par.ringN s.par.ringView s.inp.lagW bytes).1).ret
      ((s.ring q).write s.par.ringN s.par.ringView s.inp.lagW bytes).2) := rfl

theorem exec_rbRead (q : RingId) (len : Nat) (s : State) : exec (.rbRead q len) s =
    .next ((s.setRing q ((s.ring q).read s.par.ringN s.par.ringView s.inp.lagR len).1).ret
      ((s.ring q).read s.par.ringN s.par.ringView s.inp.lagR len).2) := rfl

theorem exec_rbPeek (q : RingId) (len : Nat) (s : State) : exec (.rbPeek q len) s =
    .next ((s.setRing q ((s.ring q).peek s.par.ringN s.par.ringView s.inp.lagR len).1).ret
      ((s.ring q).peek s.par.ringN s.par.ringView s.inp.lagR len).2) := rfl

theorem exec_rbUsed (q : RingId) (side : Side) (s : State) : exec (.rbUsed q side) s =
    .next ((s.setRing q ((s.ring q).refresh s.par.ringN s.par.ringView (s.lag side) side)).ret
      (Result.okWith (.nat (Ring.usedBy s.par.ringN side
        ((s.ring q).refresh s.par.ringN s.par.ringView (s.lag side) side))))) := rfl

theorem exec_rbFree (q : RingId) (side : Side) (s : State) : exec (.rbFree q side) s =
    .next ((s.setRing q ((s.ring q).refresh s.par.ringN s.par.ringView (s.lag side) side)).ret
      (Result.okWith (.nat (Ring.freeBy s.par.ringN side
        ((s.ring q).refresh s.par.ringN s.par.ringView (s.lag side) side))))) := rfl

theorem exec_rbClear (q : RingId) (s : State) :
    exec (.rbClear q) s = .next ((s.setRing q (s.ring q).clear).ret (Result.okWith .none)) := rfl

theorem exec_rbConsume (q : RingId) (n : Nat) (s : State) : exec (.rbConsume q n) s =
    match (s.ring q).consume s.par.ringN s.par.ringView s.inp.lagR n with
    | some p => .next ((s.setRing q p.1).ret p.2)
    | none => .refused .consumeBeyondUsed := by
  show execRbConsume q n s = _
  unfold execRbConsume rbConsume
  simp only [State.lag]
  cases (s.ring q).consume s.par.ringN s.par.ringView s.inp.lagR n <;> rfl

/-! ### The transport operations -/

/-- `LT_RECEIVE`: not connected; too few bytes, of which only the reader side's view is left; or one read. -/
theorem ltReceive_cases (lag size : Nat) (s : State) :
    (s.rxConn ≠ .connected ∧ ltReceive lag size s = (s, Result.signal .notConnected)) ∨
    (s.rxConn = .connected ∧ Ring.usedBy s.par.ringN .reader (s.rxq.refresh s.par.ringN s.par.ringView lag .reader) < size ∧
      ltReceive lag size s =
        ({ s with rxq := s.rxq.refresh s.par.ringN s.par.ringView lag .reader }, Result.okWith (.bytes []))) ∨
    (s.rxConn = .connected ∧ size ≤ Ring.usedBy s.par.ringN .reader (s.rxq.refresh s.par.ringN s.par.ringView lag .reader) ∧
      ltReceive lag size s =
        ({ s with
            rxq := Ring.publishR s.par.ringView ((s.rxq.r + size) % s.par.ringN)
              (s.rxq.refresh s.par.ringN s.par.ringView lag .reader) },
          Result.okWith (.bytes (Ring.getBytes s.par.ringN s.rxq.buf s.rxq.r size)))) := by
  unfold ltReceive rbRead applyRing
  by_cases hc : s.rxConn = .connected
  · rcases Ring.read_cases (n := s.par.ringN) s.par.ringView lag size s.rxq with ⟨hl, e⟩ | ⟨hl, e⟩
    · exact .inr (.inl ⟨hc, hl, by simp [hc, e, State.setRing]⟩)
    · exact .inr (.inr ⟨hc, hl, by simp [hc, e, State.setRing]⟩)
  · exact .inl ⟨hc, by simp [hc]⟩

/-- `LT_SEND`: not connected; no room, of which only the writer side's view is left; or one write. -/
theorem ltSend_cases (lag : Nat) (bytes : List Byte) (s : State) :
    (s.txConn ≠ .connected ∧ ltSend lag bytes s = (s, Result.signal .notConnected)) ∨
    (s.txConn = .connected ∧
      Ring.freeBy s.par.ringN .writer (s.txq.refresh s.par.ringN s.par.ringView lag .writer) < bytes.length ∧
      ltSend lag bytes s =
        ({ s with txq := s.txq.refresh s.par.ringN s.par.ringView lag .writer }, Result.signal .overflow)) ∨
    (s.txConn = .connected ∧
      bytes.length ≤ Ring.freeBy s.par.ringN .writer (s.txq.refresh s.par.ringN s.par.ringView lag .writer) ∧
      ltSend lag bytes s =
        ({ s with
            txq := Ring.publishW s.par.ringView ((s.txq.w + bytes.length) % s.par.ringN)
              { s.txq.refresh s.par.ringN s.par.ringView lag .writer with
                buf := Ring.putBytes s.par.ringN s.txq.buf s.txq.w bytes }
            drainKicks := s.drainKicks +
              (if Ring.usedBy s.par.ringN .writer (s.txq.refresh s.par.ringN s.par.ringView lag .writer) = 0
                then 1 else 0) },
          Result.okWith (.nat bytes.length))) := by
  unfold ltSend rbWrite applyRing
  by_cases hc : s.txConn = .connected
  · rcases Ring.write_cases (n := s.par.ringN) s.par.ringView lag bytes s.txq with ⟨hl, e⟩ | ⟨hl, e⟩
    · exact .inr (.inl ⟨hc, hl, by simp [hc, e, State.setRing]⟩)
    · refine .inr (.inr ⟨hc, hl, ?_⟩)
      by_cases h0 : Ring.usedBy s.par.ringN .writer (s.txq.refresh s.par.ringN s.par.ringView lag .writer) = 0
      · simp [hc, e, State.setRing, h0]
      · simp [hc, e, State.setRing, h0]
  · exact .inl ⟨hc, by simp [hc]⟩

/-! ### The interrupt -/

theorem clearLatch_eq (s : State) :
    clearLatch s = { s with
      irqLatch := false, irqEvents := if s.irqLatch then s.irqEvents ++ [false] else s.irqEvents } := by
  obtain ⟨_, _, _, _, _, _, _, _, _, l⟩ := s
  cases l <;> rfl

/-- The latch after an update, under both values of `IRQ_FOLLOW` (R185). -/
theorem updateLatch_eq (a : Bool) (s : State) :
    updateLatch a s = { s with
      irqLatch := if s.par.irqFollow then a else (a || s.irqLatch)
      irqHold := if (if s.par.irqFollow then a else (a || s.irqLatch)) = s.irqLatch then s.irqHold else 4
      irqEvents := if (if s.par.irqFollow then a else (a || s.irqLatch)) = s.irqLatch then s.irqEvents
        else s.irqEvents ++ [a] } := by
  obtain ⟨⟨_, _, f, _, _⟩, _, _, _, _, _, _, _, _, l⟩ := s
  cases f <;> cases l <;> cases a <;> rfl

@[simp] theorem assertInterrupt_eq (s : State) :
    assertInterrupt s = updateLatch true { s with x := { s.x with mode := 0x000f } } := rfl

/-! ### The steps of a tick -/

/-- Step 1 (R183). -/
theorem tickHold_eq (s : State) :
    tickHold s = { s with
      irqHold := s.irqHold - 1
      irqLatch := if s.irqHold = 1 then false else s.irqLatch
      irqEvents := if s.irqHold = 1 ∧ s.irqLatch = true then s.irqEvents ++ [false] else s.irqEvents } := by
  unfold tickHold
  by_cases h0 : s.irqHold = 0
  · simp [h0]
    simp [← h0]
  · by_cases h1 : s.irqHold = 1
    · simp [h1, clearLatch_eq]
    · have h2 : s.irqHold - 1 ≠ 0 := by omega
      simp [h0, h1, h2]

/-- Step 2 (R184 to R186). -/
theorem tickPolicy_eq (s : State) :
    tickPolicy s = { updateLatch (policyNow s) s with
      x := { s.x with mode := if policyNow s then 0x000f else s.x.mode } } := by
  unfold tickPolicy
  cases h : policyNow s <;> simp [updateLatch_eq]

/-- Step 3 (R187). -/
theorem tickTxBlock_eq (s : State) :
    tickTxBlock s = { s with txBlock := if s.txBlock = 0 then 0 else s.txBlock - 1 } := by
  unfold tickTxBlock
  by_cases h : s.txBlock = 0
  · rw [if_pos h, if_pos h, ← h]
  · rw [if_neg h, if_neg h]

/-- Step 4 (R187). -/
theorem tickTxDelay_eq (s : State) :
    tickTxDelay s = { s with
      txDelay := if s.txDelay = 0 then 0 else s.txDelay - 1
      x := { s.x with txSize := if s.txDelay = 1 then 0 else s.x.txSize } } := by
  unfold tickTxDelay
  by_cases h : s.txDelay = 0
  · have h1 : ¬ s.txDelay = 1 := by rw [h]; decide
    rw [if_pos h, if_pos h, if_neg h1, ← h]
  · have hd : (s.txDelay - 1 = 0) ↔ s.txDelay = 1 := by
      constructor <;> intro e <;> bv_omega
    by_cases h1 : s.txDelay = 1
    · rw [if_neg h, if_neg h, if_pos h1, if_pos (hd.mpr h1)]
    · rw [if_neg h, if_neg h, if_neg h1, if_neg fun e => h1 (hd.mp e)]

/-- Step 5 (R187). -/
theorem tickRxDelay_eq (s : State) :
    tickRxDelay s = { s with rxDelay := if s.rxDelay = 0 then 0 else s.rxDelay - 1 } := by
  unfold tickRxDelay
  by_cases h : s.rxDelay = 0
  · rw [if_pos h, if_pos h, ← h]
  · rw [if_neg h, if_neg h]

/-- One step down of a delay counter, as a number. -/
theorem toNat_countDown (v : Word) : (if v = 0 then 0 else v - 1 : Word).toNat = v.toNat - 1 := by
  split
  · subst_vars; rfl
  · have : v.toNat ≠ 0 := by intro e; apply ‹¬ v = 0›; bv_omega
    bv_omega

/-- Steps 1 to 5 of a tick. -/
def tickCounters (s : State) : State := tickRxDelay (tickTxDelay (tickTxBlock (tickPolicy (tickHold s))))

theorem tickBefore_eq (s : State) : tickBefore s = tickTransmit (tickCounters s) := rfl

/-- The latch step 1 leaves (R183). -/
def latchAfterHold (s : State) : Bool := if s.irqHold = 1 then false else s.irqLatch

/-- The notifications after step 1 (R183). -/
def eventsAfterHold (s : State) : List Bool :=
  if s.irqHold = 1 ∧ s.irqLatch = true then s.irqEvents ++ [false] else s.irqEvents

/-- The latch step 2 leaves (R185). -/
def latchAfterPolicy (s : State) : Bool :=
  if s.par.irqFollow then policyNow s else (policyNow s || latchAfterHold s)

/-- Everything steps 1 to 5 write (R183 to R187). -/
theorem tickCounters_eq (s : State) :
    tickCounters s = { s with
      irqLatch := latchAfterPolicy s
      irqHold := if latchAfterPolicy s = latchAfterHold s then s.irqHold - 1 else 4
      irqEvents := if latchAfterPolicy s = latchAfterHold s then eventsAfterHold s
        else eventsAfterHold s ++ [policyNow s]
      x := { s.x with
        mode := if policyNow s then 0x000f else s.x.mode
        txSize := if s.txDelay = 1 then 0 else s.x.txSize }
      txBlock := if s.txBlock = 0 then 0 else s.txBlock - 1
      txDelay := if s.txDelay = 0 then 0 else s.txDelay - 1
      rxDelay := if s.rxDelay = 0 then 0 else s.rxDelay - 1 } := by
  have hp : policyNow (tickHold s) = policyNow s := by rw [tickHold_eq]; rfl
  unfold tickCounters
  rw [tickRxDelay_eq, tickTxDelay_eq, tickTxBlock_eq, tickPolicy_eq, hp, updateLatch_eq, tickHold_eq]
  rfl

/-! ### The transmit pass (R188 to R190) -/

/-- Whether a transmit pass builds a frame: the four conditions of R188, after step 5. -/
def txGate (s : State) : Prop :=
  s.txBlock = 0 ∧ s.txDelay = 0 ∧ haltFlag s.x = false ∧ s.x.txSize ≠ 0

/-- Step 6: gate closed; not connected; no room; or one frame sent. -/
theorem tickTransmit_cases (s : State) :
    (¬ txGate s ∧ tickTransmit s = s) ∨
    (txGate s ∧ s.txConn ≠ .connected ∧ tickTransmit s = s) ∨
    (txGate s ∧ s.txConn = .connected ∧
      Ring.freeBy s.par.ringN .writer (s.txq.refresh s.par.ringN s.par.ringView s.inp.lagW .writer) < (txFrame s).length ∧
      tickTransmit s = { s with txq := s.txq.refresh s.par.ringN s.par.ringView s.inp.lagW .writer }) ∨
    (txGate s ∧ s.txConn = .connected ∧
      (txFrame s).length ≤ Ring.freeBy s.par.ringN .writer (s.txq.refresh s.par.ringN s.par.ringView s.inp.lagW .writer) ∧
      tickTransmit s = { s with
        txq := Ring.publishW s.par.ringView ((s.txq.w + (txFrame s).length) % s.par.ringN)
          { s.txq.refresh s.par.ringN s.par.ringView s.inp.lagW .writer with
            buf := Ring.putBytes s.par.ringN s.txq.buf s.txq.w (txFrame s) }
        drainKicks := s.drainKicks +
          (if Ring.usedBy s.par.ringN .writer (s.txq.refresh s.par.ringN s.par.ringView s.inp.lagW .writer) = 0
            then 1 else 0)
        txDelay := delayOf s.x.txSize.toNat }) := by
  unfold tickTransmit transmitPass txGate
  by_cases hb : s.txBlock = 0 ∧ s.txDelay = 0
  · by_cases hh : haltFlag s.x = true ∨ s.x.txSize = 0
    · left
      refine ⟨fun g => ?_, by rw [if_pos hb, if_pos hh]⟩
      rcases hh with h | h
      · rw [g.2.2.1] at h; cases h
      · exact g.2.2.2 h
    · have h1 : haltFlag s.x = false := by simpa using fun e => hh (.inl e)
      have h2 : s.x.txSize ≠ 0 := fun e => hh (.inr e)
      have g : s.txBlock = 0 ∧ s.txDelay = 0 ∧ haltFlag s.x = false ∧ s.x.txSize ≠ 0 := ⟨hb.1, hb.2, h1, h2⟩
      right
      rw [if_pos hb, if_neg hh]
      rcases ltSend_cases (s.lag .writer) (txFrame s) s with ⟨hc, e⟩ | ⟨hc, hl, e⟩ | ⟨hc, hl, e⟩
      · exact .inl ⟨g, hc, by rw [e]; rfl⟩
      · exact .inr (.inl ⟨g, hc, hl, by rw [e]; rfl⟩)
      · exact .inr (.inr ⟨g, hc, hl, by rw [e]; rfl⟩)
  · exact .inl ⟨fun h => hb ⟨h.1, h.2.1⟩, by rw [if_neg hb]⟩

/-- The fields step 6 can write. -/
theorem tickTransmit_frame (s : State) : ∃ (q : Ring) (k : Nat) (d : Word),
    tickTransmit s = { s with txq := q, drainKicks := s.drainKicks + k, txDelay := d } := by
  rcases tickTransmit_cases s with ⟨-, e⟩ | ⟨-, -, e⟩ | ⟨-, -, -, e⟩ | ⟨-, -, -, e⟩
  · exact ⟨s.txq, 0, s.txDelay, e⟩
  · exact ⟨s.txq, 0, s.txDelay, e⟩
  · exact ⟨_, 0, s.txDelay, e⟩
  · exact ⟨_, _, _, e⟩

/-! ### The receive pass (R191 to R193) -/

/-- Step 7: counter running; not connected; fewer than 1024 bytes; or one frame unpacked. -/
theorem tickReceive_cases (s : State) :
    (s.rxDelay ≠ 0 ∧ tickReceive s = s) ∨
    (s.rxDelay = 0 ∧ s.rxConn ≠ .connected ∧ tickReceive s = s) ∨
    (s.rxDelay = 0 ∧ s.rxConn = .connected ∧
      Ring.usedBy s.par.ringN .reader (s.rxq.refresh s.par.ringN s.par.ringView s.inp.lagR .reader) < frameBytes ∧
      tickReceive s = { s with rxq := s.rxq.refresh s.par.ringN s.par.ringView s.inp.lagR .reader }) ∨
    (s.rxDelay = 0 ∧ s.rxConn = .connected ∧
      frameBytes ≤ Ring.usedBy s.par.ringN .reader (s.rxq.refresh s.par.ringN s.par.ringView s.inp.lagR .reader) ∧
      tickReceive s = unpackFrame (Ring.getBytes s.par.ringN s.rxq.buf s.rxq.r frameBytes)
        { s with
          rxq := Ring.publishR s.par.ringView ((s.rxq.r + frameBytes) % s.par.ringN)
            (s.rxq.refresh s.par.ringN s.par.ringView s.inp.lagR .reader) }) := by
  unfold tickReceive receivePass
  by_cases hd : s.rxDelay = 0
  · right
    rw [if_pos hd]
    rcases ltReceive_cases (s.lag .reader) frameBytes s with ⟨hc, e⟩ | ⟨hc, hl, e⟩ | ⟨hc, hl, e⟩
    · exact .inl ⟨hd, hc, by rw [e]; rfl⟩
    · exact .inr (.inl ⟨hd, hc, hl, by rw [e]; rfl⟩)
    · refine .inr (.inr ⟨hd, hc, hl, ?_⟩)
      rw [e]
      simp only [okWith_value]
      have hlen := Ring.getBytes_length (n := s.par.ringN) s.rxq.buf s.rxq.r frameBytes
      generalize Ring.getBytes s.par.ringN s.rxq.buf s.rxq.r frameBytes = f at hlen ⊢
      cases f with
      | nil => simp at hlen
      | cons b f => rfl
  · exact .inl ⟨hd, if_neg hd⟩

/-- The fields step 7 can write. -/
theorem tickReceive_frame (s : State) : ∃ (q : Ring) (m : Memory 9) (st sz off d : Word),
    tickReceive s = { s with
      rxq := q, ram := m, x := { s.x with status := st, rxSize := sz, rxOffset := off }, rxDelay := d } := by
  rcases tickReceive_cases s with ⟨-, e⟩ | ⟨-, -, e⟩ | ⟨-, -, -, e⟩ | ⟨-, -, -, e⟩
  · exact ⟨s.rxq, s.ram, s.x.status, s.x.rxSize, s.x.rxOffset, s.rxDelay, e⟩
  · exact ⟨s.rxq, s.ram, s.x.status, s.x.rxSize, s.x.rxOffset, s.rxDelay, e⟩
  · exact ⟨_, s.ram, s.x.status, s.x.rxSize, s.x.rxOffset, s.rxDelay, e⟩
  · exact ⟨_, _, _, _, _, _, e⟩

/-! ### Background operations inside a tick (R182) -/

/-- The fields a background operation can write: the rings and the role states. -/
theorem runBgOp_frame {m : MidOp} {s : State} {p : State × Result} (h : runBgOp m s = .ok p) :
    ∃ (a b : Ring) (c d : RoleState), p.1 = { s with rxq := a, txq := b, rxConn := c, txConn := d } := by
  have same : ∀ (q : RingId) (r : Ring), ∃ (a b : Ring) (c d : RoleState),
      s.setRing q r = { s with rxq := a, txq := b, rxConn := c, txConn := d } := by
    intro q r
    cases q
    · exact ⟨r, s.txq, s.rxConn, s.txConn, rfl⟩
    · exact ⟨s.rxq, r, s.rxConn, s.txConn, rfl⟩
  obtain ⟨op, lag⟩ := m
  cases op <;> simp only [runBgOp] at h
  case consume n =>
    cases hc : rbConsume .txq lag n s with
    | none => simp [hc] at h
    | some p' =>
      simp only [hc, Except.ok.injEq] at h
      subst h
      unfold rbConsume at hc
      split at hc
      · cases hc; exact same .txq _
      · cases hc
  case envConn role c =>
    cases h
    cases role
    · exact ⟨s.rxq, s.txq, c, s.txConn, rfl⟩
    · exact ⟨s.rxq, s.txq, s.rxConn, c, rfl⟩
  case write => cases h; exact same .rxq _
  case read => cases h; exact same .txq _
  case peek => cases h; exact same .txq _
  case used q => cases h; exact same q _
  case free q => cases h; exact same q _
  case clear q => cases h; exact same q _

/-- The fields the background operations of a tick can write. -/
theorem runMid_frame {l : List MidOp} {s t : State} (h : runMid l s = .ok t) :
    ∃ (a b : Ring) (c d : RoleState) (o : List Result),
      t = { s with rxq := a, txq := b, rxConn := c, txConn := d, midOut := o } := by
  induction l generalizing s with
  | nil => cases h; exact ⟨t.rxq, t.txq, t.rxConn, t.txConn, t.midOut, rfl⟩
  | cons m rest ih =>
    unfold runMid at h
    split at h
    · split at h
      · rename_i p hp
        obtain ⟨a, b, c, d, o, e⟩ := ih h
        obtain ⟨a', b', c', d', e'⟩ := runBgOp_frame hp
        exact ⟨a, b, c, d, o, by rw [e, e']⟩
      · cases h
    · cases h

theorem runMid_append (l l' : List MidOp) (s : State) :
    runMid (l ++ l') s = match runMid l s with | .ok t => runMid l' t | .error e => .error e := by
  induction l generalizing s with
  | nil => rfl
  | cons m rest ih =>
    simp only [List.cons_append, runMid]
    split
    · split
      · exact ih _
      · rfl
    · rfl

/-! ### The whole tick -/

/-- A tick with no background operation inside it. -/
theorem execTick_quiet {s : State} (h : s.inp.mid = []) :
    execTick s = .next (tickReceive (tickTransmit (tickCounters { s with midOut := [] }))).done := by
  simp [execTick, h, runMid, tickBefore_eq]

/-- What a tick that answers a next state did. -/
theorem execTick_next {s t : State} (h : execTick s = .next t) :
    ∃ u, runMid s.inp.mid (tickBefore { s with midOut := [] }) = .ok u ∧ t = (tickReceive u).done := by
  unfold execTick at h
  split at h
  · rename_i u hu
    cases h; exact ⟨u, hu, rfl⟩
  · cases h

end Sys2Proof.Machine
end

