-- ==== Sys2Proof/Laws/Fairness.lean ====
section
/-!
SUPPORT. What the fairness of R87 gives: every run under `RING_VIEW = sc` is fair, and in a fair run a side that goes on
acting sees, in the end, every cursor value the other side published.
-/
set_option Elab.async false

namespace Sys2Proof.Machine

@[simp] theorem History.accept_accepted (h : History) (b : List Byte) : (h.accept b).accepted = h.accepted ++ b := rfl
@[simp] theorem History.accept_given (h : History) (b : List Byte) : (h.accept b).given = h.given := rfl
@[simp] theorem History.give_accepted (h : History) (b : List Byte) : (h.give b).accepted = h.accepted := rfl
@[simp] theorem History.give_given (h : History) (b : List Byte) : (h.give b).given = h.given ++ b := rfl
@[simp] theorem History.fresh_accepted : History.fresh.accepted = [] := rfl
@[simp] theorem History.fresh_given : History.fresh.given = [] := rfl

/-- Bytes skipped are those a read would have given, where the history agrees with what waits in the ring. -/
theorem History.skip_eq_give {h : History} {waiting : List Byte} (hw : h.accepted = h.given ++ waiting) (n : Nat) :
    h.skip n = h.give (waiting.take n) := by
  unfold History.skip
  rw [hw, List.drop_left]

variable {op : Nat → Instr × StepInput} {st : Nat → State}

namespace Ring

variable {n : Nat} {v : RingView} {lag : Nat} {side : Side} {q : Ring}

/-- A refresh leaves the cursors (R128). -/
@[simp] theorem refresh_published : (refresh n v lag side q).published side = q.published side := by cases side <;> rfl

theorem view_lt (h : q.wf n = true) (side : Side) : q.view side < n := by
  obtain ⟨-, -, hwv, hrv, -⟩ := wf_iff.mp h
  cases side
  · exact hrv
  · exact hwv

theorem published_lt (h : q.wf n = true) (side : Side) : q.published side < n := by
  obtain ⟨hw, hr, -⟩ := wf_iff.mp h
  cases side
  · exact hr
  · exact hw

/-- By how much a refresh moves the view, and how far behind it still is (R128). -/
theorem advance_add_behind (h : q.wf n = true) :
    dist n (q.view side) ((refresh n v lag side q).view side) + (refresh n v lag side q).behind n side = q.behind n side := by
  have hv := view_lt h side
  have hp := published_lt h side
  cases side <;> exact dist_view_observe hv hp

/-- A view that is no bytes behind is the cursor it follows. -/
theorem view_eq_of_behind (h : q.wf n = true) (h0 : q.behind n side = 0) : q.view side = q.published side := by
  have hv := view_lt h side
  have hp := published_lt h side
  unfold behind at h0
  rcases dist_spec hv hp with ⟨h1, h2⟩ | ⟨h1, h2⟩ <;> omega

end Ring

/-- Under `RING_VIEW = sc` every run is fair: no view is ever behind (R31, R87). -/
theorem fair_of_sc (hinv : ∀ k, (st k).Inv) (hsc : ∀ k, (st k).par.ringView = .sc) : Fair op st := by
  intro q side _ j
  refine ⟨0, .inl ?_⟩
  have hz : ((st j).ring q).behind (st j).par.ringN side = 0 := by
    have hw : ((st j).ring q).wf (st j).par.ringN = true := by cases q <;> [exact (hinv j).rxq; exact (hinv j).txq]
    have ha : ((st j).ring q).wv = ((st j).ring q).w ∧ ((st j).ring q).rv = ((st j).ring q).r := by
      cases q
      · exact (hinv j).rxViews (hsc j)
      · exact (hinv j).txViews (hsc j)
    have hv : ((st j).ring q).view side = ((st j).ring q).published side := by cases side <;> [exact ha.2; exact ha.1]
    unfold Ring.behind
    rw [hv]
    exact Ring.dist_self (Ring.published_lt hw side)
  rw [hz]
  exact Nat.zero_le _

/-- While nothing happens to a ring but view refreshes of one side, the bytes that side's view has moved over and those
it is still behind add up to those it was behind. -/
theorem viewAdvance_add_behind {q : RingId} {side : Side} {j : Nat} {p : Params} (hp : ∀ k, j ≤ k → (st k).par = p)
    (hw : ((st j).ring q).wf p.ringN = true)
    (hr : ∀ k, j ≤ k → ∃ lag, (st (k + 1)).ring q = ((st k).ring q).refresh p.ringN p.ringView lag side) (k : Nat) :
    ((st (j + k)).ring q).wf p.ringN = true ∧
      ((st (j + k)).ring q).published side = ((st j).ring q).published side ∧
      viewAdvance q side st j k + ((st (j + k)).ring q).behind p.ringN side = ((st j).ring q).behind p.ringN side := by
  induction k with
  | zero => exact ⟨hw, rfl, Nat.zero_add _⟩
  | succ k ih =>
    obtain ⟨h1, h2, h3⟩ := ih
    obtain ⟨lag, hl⟩ := hr (j + k) (Nat.le_add_right _ _)
    have ha := Ring.advance_add_behind (v := p.ringView) (lag := lag) (side := side) h1
    rw [← Nat.add_assoc]
    unfold viewAdvance
    rw [hl, hp (j + k) (Nat.le_add_right _ _)]
    exact ⟨Ring.refresh_wf h1, by rw [Ring.refresh_published, h2], by omega⟩

/-- What fairness is for: in a fair run, a side that acts on a ring infinitely often comes to see the cursor value last
published, if nothing else happens to the ring meanwhile (R87). -/
theorem Fair.eventually_observed {q : RingId} {side : Side} {j : Nat} {p : Params} (hf : Fair op st)
    (hacts : ∀ j, ∃ k, j ≤ k ∧ Acts q side (op k).1 (op k).2 (st k) (st (k + 1)))
    (hp : ∀ k, j ≤ k → (st k).par = p) (hw : ((st j).ring q).wf p.ringN = true)
    (hr : ∀ k, j ≤ k → ∃ lag, (st (k + 1)).ring q = ((st k).ring q).refresh p.ringN p.ringView lag side)
    (hc : ∀ k, j ≤ k → clearsRing q (op k).2 (op k).1 = false) :
    ∃ k, ((st (j + k)).ring q).view side = ((st j).ring q).published side := by
  obtain ⟨k, hk | ⟨i, hi, -, hcl⟩⟩ := hf q side hacts j
  · obtain ⟨h1, h2, h3⟩ := viewAdvance_add_behind hp hw hr k
    rw [hp j (Nat.le_refl _)] at hk
    exact ⟨k, by rw [← h2]; exact Ring.view_eq_of_behind h1 (by omega)⟩
  · rw [hc i hi] at hcl
    cases hcl

end Sys2Proof.Machine
end

