-- ==== Sys2Proof/Laws/Frame.lean ====
section
/-!
SUPPORT. The laws of operand values: the bytes of a frame (R95 to R99, R189), what unpacking a frame does to the RAM
(R193), the link identifier (R212), delays and masks as numbers.
-/
set_option Elab.async false

namespace Sys2Proof.Machine

/-! ### The frame that is built -/

theorem payload_length (nosync : Bool) (ram : Memory 9) (off : Word) (n : Nat) :
    (payload nosync ram off n).length = 2 * n := by
  induction n with
  | zero => rfl
  | succ n ih =>
    unfold payload at *
    rw [List.range_succ, List.flatMap_append, List.length_append, ih]
    simp [wordBytes]; omega

@[simp] theorem markEnd_length (nosync : Bool) (n : Nat) (l : List Byte) : (markEnd nosync n l).length = l.length := by
  unfold markEnd
  split <;> simp

/-- R95: a frame is 1024 bytes. -/
theorem buildFrame_length (nosync : Bool) (id : Byte) (ram : Memory 9) (off : Word) {n : Nat} (hn : n ≤ 255) :
    (buildFrame nosync id ram off n).length = 1024 := by
  simp [buildFrame, payload_length]; omega

theorem payload_getD (nosync : Bool) (ram : Memory 9) (off : Word) {n i : Nat} (hi : i < n) :
    (payload nosync ram off n).getD (2 * i) 0 = (txWord nosync ram off i).extractLsb' 8 8 ∧
      (payload nosync ram off n).getD (2 * i + 1) 0 = (txWord nosync ram off i).extractLsb' 0 8 := by
  induction n with
  | zero => omega
  | succ n ih =>
    have hp : payload nosync ram off (n + 1) = payload nosync ram off n ++ wordBytes (txWord nosync ram off n) := by
      unfold payload; rw [List.range_succ, List.flatMap_append]; simp
    have hl := payload_length nosync ram off n
    rw [hp]
    by_cases h : i = n
    · subst h
      rw [List.getD_append_right _ _ _ _ (by omega), List.getD_append_right _ _ _ _ (by omega), hl]
      simp [wordBytes]
    · rw [List.getD_append _ _ _ _ (by omega), List.getD_append _ _ _ _ (by omega)]
      exact ih (by omega)

/-- The payload bytes of a frame: those of the marked payload. -/
theorem frameByte_payload (nosync : Bool) (id : Byte) (ram : Memory 9) (off : Word) {n k : Nat} (hk : k < 2 * n) :
    frameByte (buildFrame nosync id ram off n) k = (markEnd nosync n (payload nosync ram off n)).getD k 0 := by
  unfold frameByte buildFrame
  rw [List.append_assoc, List.getD_append _ _ _ _ (by simp [payload_length]; omega)]

/-- R97: the padding is zero. -/
theorem frameByte_padding (nosync : Bool) (id : Byte) (ram : Memory 9) (off : Word) {n k : Nat} (hk : 2 * n ≤ k)
    (hk' : k < 1022) : frameByte (buildFrame nosync id ram off n) k = 0 := by
  unfold frameByte buildFrame
  have hl := payload_length nosync ram off n
  rw [List.append_assoc, List.getD_append_right _ _ _ _ (by simp [hl]; omega),
    List.getD_append _ _ _ _ (by simp [hl]; omega)]
  simp [hl]

/-- R98: byte 1022 is the link identifier. -/
theorem frameByte_id (nosync : Bool) (id : Byte) (ram : Memory 9) (off : Word) {n : Nat} (hn : n ≤ 255) :
    frameByte (buildFrame nosync id ram off n) 1022 = id := by
  unfold frameByte buildFrame
  have hl := payload_length nosync ram off n
  have h : (markEnd nosync n (payload nosync ram off n) ++ List.replicate (1022 - 2 * n) (0x00 : Byte)).length = 1022 := by
    simp [hl]; omega
  rw [List.getD_append_right _ _ _ _ (by omega), h]
  rfl

/-- R98: byte 1023 is the word count. -/
theorem frameByte_count (nosync : Bool) (id : Byte) (ram : Memory 9) (off : Word) {n : Nat} (hn : n ≤ 255) :
    frameByte (buildFrame nosync id ram off n) 1023 = BitVec.ofNat 8 n := by
  unfold frameByte buildFrame
  have hl := payload_length nosync ram off n
  have h : (markEnd nosync n (payload nosync ram off n) ++ List.replicate (1022 - 2 * n) (0x00 : Byte)).length = 1022 := by
    simp [hl]; omega
  rw [List.getD_append_right _ _ _ _ (by omega), h]
  rfl

theorem frameCount_buildFrame (nosync : Bool) (id : Byte) (ram : Memory 9) (off : Word) {n : Nat} (hn : n ≤ 255) :
    frameCount (buildFrame nosync id ram off n) = n := by
  unfold frameCount
  rw [frameByte_count _ _ _ _ hn]
  simp; omega

/-! ### The frame that is unpacked (R193) -/

theorem unpackRam_succ (f : List Byte) (off : Word) (n : Nat) (ram : Memory 9) :
    unpackRam f off (n + 1) ram = Memory.write (unpackRam f off n ram) (rxAddr off n) (ramData (rxWord f n)) := by
  unfold unpackRam
  rw [List.range_succ, List.foldl_append]
  rfl

theorem rxAddr_lt (off : Word) (i : Nat) : rxAddr off i < ramWords := by
  unfold rxAddr; simp; omega

theorem unpackRam_wf (f : List Byte) (off : Word) (n : Nat) {ram : Memory 9} (h : Memory.wf ramWords ram = true) :
    Memory.wf ramWords (unpackRam f off n ram) = true := by
  induction n with
  | zero => exact h
  | succ n ih => rw [unpackRam_succ]; exact Memory.write_wf ih (rxAddr_lt off n) _

/-- Addresses that are no receive address of the frame are left alone. -/
theorem read_unpackRam_other (f : List Byte) (off : Word) (n : Nat) (ram : Memory 9) {a : Nat}
    (ha : ∀ i < n, rxAddr off i ≠ a) : Memory.read (unpackRam f off n ram) a = Memory.read ram a := by
  induction n with
  | zero => rfl
  | succ n ih =>
    rw [unpackRam_succ, Memory.read_write_other _ _ (fun e => ha n (by omega) e.symm)]
    exact ih fun i hi => ha i (by omega)

/-- R62: the lower half of the RAM is left alone. -/
theorem read_unpackRam_lower (f : List Byte) (off : Word) (n : Nat) (ram : Memory 9) {a : Nat} (ha : a < 0x1000) :
    Memory.read (unpackRam f off n ram) a = Memory.read ram a :=
  read_unpackRam_other f off n ram fun i _ => by unfold rxAddr; omega

theorem rxAddr_ne (off : Word) {i j : Nat} (hij : i < j) (hj : j - i < 0x1000) : rxAddr off i ≠ rxAddr off j := by
  unfold rxAddr; omega

/-- The receive addresses hold the words of the frame. -/
theorem read_unpackRam_same (f : List Byte) (off : Word) {n : Nat} (hn : n ≤ 0x1000) {ram : Memory 9}
    (h : Memory.wf ramWords ram = true) {i : Nat} (hi : i < n) :
    Memory.read (unpackRam f off n ram) (rxAddr off i) = ramData (rxWord f i) := by
  induction n with
  | zero => omega
  | succ n ih =>
    rw [unpackRam_succ]
    by_cases e : i = n
    · subst e; exact Memory.read_write_same (unpackRam_wf f off i h) _ _
    · rw [Memory.read_write_other _ _ (rxAddr_ne off (by omega) (by omega))]
      exact ih (by omega) (by omega)

theorem frameByte_lt (f : List Byte) (i : Nat) : (frameByte f i).toNat < 256 := (frameByte f i).isLt

theorem frameCount_lt (f : List Byte) : frameCount f < 256 := frameByte_lt f 1023

/-! ### Numbers -/

theorem delayOf_toNat {n : Nat} (hn : n ≤ 255) : (delayOf n).toNat = n * 12 := by
  simp [delayOf]; omega

theorem maskSize_toNat (d : Word) : (maskSize d).toNat = d.toNat % 256 := by
  have h : (255#16).toNat = 2 ^ 8 - 1 := rfl
  show (d &&& 255#16).toNat = _
  rw [BitVec.toNat_and, h, Nat.and_two_pow_sub_one_eq_mod]

/-! ### The link identifier (R212) -/

/-- `State.reset` holds the identifier of two empty strings. -/
theorem linkIdOf_empty : linkIdOf [] [] = 0x3a := rfl

end Sys2Proof.Machine
end

