-- ==== Sys2Proof/Laws/PerInstr.lean ====
section
/-!
SUPPORT. Laws stated once per operation, by constructor. `TableRow`: the code byte of an operation's encoding belongs to
the operation's row of spec/opcode_table.json, whatever its operands.
-/
namespace Sys2Proof.Laws

/-- The code byte lies in the row (R91, R101). -/
def TableRow.Statement (i : Instr) : Prop := (encode i).code &&& (opcodeRow i).mask = (opcodeRow i).pattern

theorem TableRow.rdStatus (m : Bool) : TableRow.Statement (.rdStatus m) := by
  show (hostCode 0x00 m 0 : BitVec 8) &&& 0xf7 = 0x00
  cases m <;> rfl

theorem TableRow.rdMode (m : Bool) : TableRow.Statement (.rdMode m) := by
  show (hostCode 0x00 m 1 : BitVec 8) &&& 0xf7 = 0x01
  cases m <;> rfl

theorem TableRow.rdControl (m : Bool) : TableRow.Statement (.rdControl m) := by
  show (hostCode 0x00 m 2 : BitVec 8) &&& 0xf7 = 0x02
  cases m <;> rfl

theorem TableRow.rdStart (m : Bool) : TableRow.Statement (.rdStart m) := by
  show (hostCode 0x00 m 3 : BitVec 8) &&& 0xf7 = 0x03
  cases m <;> rfl

theorem TableRow.rdRxSize (m : Bool) : TableRow.Statement (.rdRxSize m) := by
  show (hostCode 0x00 m 4 : BitVec 8) &&& 0xf7 = 0x04
  cases m <;> rfl

theorem TableRow.rdTxSize (m : Bool) : TableRow.Statement (.rdTxSize m) := by
  show (hostCode 0x00 m 5 : BitVec 8) &&& 0xf7 = 0x05
  cases m <;> rfl

theorem TableRow.rdRxOffset (m : Bool) : TableRow.Statement (.rdRxOffset m) := by
  show (hostCode 0x00 m 6 : BitVec 8) &&& 0xf7 = 0x06
  cases m <;> rfl

theorem TableRow.rdTxOffset (m : Bool) : TableRow.Statement (.rdTxOffset m) := by
  show (hostCode 0x00 m 7 : BitVec 8) &&& 0xf7 = 0x07
  cases m <;> rfl

theorem TableRow.wrStatus (m : Bool) (d : Word) : TableRow.Statement (.wrStatus m d) := by
  show (hostCode 0x10 m 0 : BitVec 8) &&& 0xf7 = 0x10
  cases m <;> rfl

theorem TableRow.wrMode (m : Bool) (d : Word) : TableRow.Statement (.wrMode m d) := by
  show (hostCode 0x10 m 1 : BitVec 8) &&& 0xf7 = 0x11
  cases m <;> rfl

theorem TableRow.wrControl (m : Bool) (d : Word) : TableRow.Statement (.wrControl m d) := by
  show (hostCode 0x10 m 2 : BitVec 8) &&& 0xf7 = 0x12
  cases m <;> rfl

theorem TableRow.wrStart (m : Bool) (d : Word) : TableRow.Statement (.wrStart m d) := by
  show (hostCode 0x10 m 3 : BitVec 8) &&& 0xf7 = 0x13
  cases m <;> rfl

theorem TableRow.wrRxSize (m : Bool) (d : Word) : TableRow.Statement (.wrRxSize m d) := by
  show (hostCode 0x10 m 4 : BitVec 8) &&& 0xf7 = 0x14
  cases m <;> rfl

theorem TableRow.wrTxSize (m : Bool) (d : Word) : TableRow.Statement (.wrTxSize m d) := by
  show (hostCode 0x10 m 5 : BitVec 8) &&& 0xf7 = 0x15
  cases m <;> rfl

theorem TableRow.wrRxOffset (m : Bool) (d : Word) : TableRow.Statement (.wrRxOffset m d) := by
  show (hostCode 0x10 m 6 : BitVec 8) &&& 0xf7 = 0x16
  cases m <;> rfl

theorem TableRow.wrTxOffset (m : Bool) (d : Word) : TableRow.Statement (.wrTxOffset m d) := by
  show (hostCode 0x10 m 7 : BitVec 8) &&& 0xf7 = 0x17
  cases m <;> rfl

theorem TableRow.rdRam (addr : RamAddr) : TableRow.Statement (.rdRam addr) := by
  show (0x20 : BitVec 8) &&& 0xff = 0x20
  rfl

theorem TableRow.wrRam (addr : RamAddr) (d : Word) : TableRow.Statement (.wrRam addr d) := by
  show (0x21 : BitVec 8) &&& 0xff = 0x21
  rfl

theorem TableRow.tick : TableRow.Statement (.tick) := by
  show (0x30 : BitVec 8) &&& 0xff = 0x30
  rfl

theorem TableRow.reset (lh lp rh rp : List Byte) (fwd : Bool) : TableRow.Statement (.reset lh lp rh rp fwd) := by
  show (0x31 : BitVec 8) &&& 0xff = 0x31
  rfl

theorem TableRow.stop : TableRow.Statement (.stop) := by
  show (0x32 : BitVec 8) &&& 0xff = 0x32
  rfl

theorem TableRow.rbWrite (q : RingId) (bytes : List Byte) : TableRow.Statement (.rbWrite q bytes) := by
  show (ringCode q 0 : BitVec 8) &&& 0xf7 = 0x40
  cases q <;> rfl

theorem TableRow.rbRead (q : RingId) (len : Nat) : TableRow.Statement (.rbRead q len) := by
  show (ringCode q 1 : BitVec 8) &&& 0xf7 = 0x41
  cases q <;> rfl

theorem TableRow.rbPeek (q : RingId) (len : Nat) : TableRow.Statement (.rbPeek q len) := by
  show (ringCode q 2 : BitVec 8) &&& 0xf7 = 0x42
  cases q <;> rfl

theorem TableRow.rbConsume (q : RingId) (n : Nat) : TableRow.Statement (.rbConsume q n) := by
  show (ringCode q 3 : BitVec 8) &&& 0xf7 = 0x43
  cases q <;> rfl

theorem TableRow.rbUsed (q : RingId) (side : Side) : TableRow.Statement (.rbUsed q side) := by
  show (ringCode q 4 : BitVec 8) &&& 0xf7 = 0x44
  cases q <;> rfl

theorem TableRow.rbFree (q : RingId) (side : Side) : TableRow.Statement (.rbFree q side) := by
  show (ringCode q 5 : BitVec 8) &&& 0xf7 = 0x45
  cases q <;> rfl

theorem TableRow.rbClear (q : RingId) : TableRow.Statement (.rbClear q) := by
  show (ringCode q 6 : BitVec 8) &&& 0xf7 = 0x46
  cases q <;> rfl

theorem TableRow.ltConnected : TableRow.Statement (.ltConnected) := by
  show (0x50 : BitVec 8) &&& 0xff = 0x50
  rfl

theorem TableRow.ltReceive (size : Nat) : TableRow.Statement (.ltReceive size) := by
  show (0x51 : BitVec 8) &&& 0xff = 0x51
  rfl

theorem TableRow.ltSend (bytes : List Byte) : TableRow.Statement (.ltSend bytes) := by
  show (0x52 : BitVec 8) &&& 0xff = 0x52
  rfl

theorem TableRow.envConn (role : Role) (state : RoleState) : TableRow.Statement (.envConn role state) := by
  show (envCode role state : BitVec 8) &&& 0xf8 = 0x60
  cases role <;> cases state <;> rfl

end Sys2Proof.Laws
end

