-- ==== Sys2Proof/Tests/Slice0.lean ====
section
/-!
SUPPORT. The model's own tests. Expected results are the spec's: the operation map (R91, R101), the reserved codes (R102)
and the vectors of spec/95_test_vectors.md, whose names stand in the docstrings. The witnesses at the end show, for each
statement with hypotheses, concrete data that meet them together.
-/
namespace Sys2Proof.Tests

open Sys2Proof Sys2Proof.Machine

set_option Elab.async false

/-! ### Well-formedness (U8, R212) -/

/-- 0x7f is the last ASCII byte. -/
theorem test_wf_ascii_boundary : (Instr.reset [0x7f] [0x00] [] [0x41] true).wf = true := by decide

theorem test_wf_local_host : (Instr.reset [0x41, 0x80] [] [] [] false).wf = false := by decide

theorem test_wf_local_port : (Instr.reset [] [0x80] [] [] false).wf = false := by decide

theorem test_wf_remote_host : (Instr.reset [] [] [0xff] [] false).wf = false := by decide

theorem test_wf_remote_port : (Instr.reset [] [] [] [0x31, 0xc3] false).wf = false := by decide

/-! ### Decoding: words written out from R91 and R101 -/

/-- `op[7:4] = 0000`, `op[3] = m`, `op[2:0] = k`. -/
theorem test_decode_host_reads :
    decode ⟨0b00001000#8, []⟩ = .ok (.rdStatus true) ∧
    decode ⟨0b00000001#8, []⟩ = .ok (.rdMode false) ∧
    decode ⟨0b00001010#8, []⟩ = .ok (.rdControl true) ∧
    decode ⟨0b00000011#8, []⟩ = .ok (.rdStart false) ∧
    decode ⟨0b00001100#8, []⟩ = .ok (.rdRxSize true) ∧
    decode ⟨0b00000101#8, []⟩ = .ok (.rdTxSize false) ∧
    decode ⟨0b00001110#8, []⟩ = .ok (.rdRxOffset true) ∧
    decode ⟨0b00000111#8, []⟩ = .ok (.rdTxOffset false) :=
  ⟨rfl, rfl, rfl, rfl, rfl, rfl, rfl, rfl⟩

/-- `op[7:4] = 0001`, then as for a read, with data. -/
theorem test_decode_host_writes :
    decode ⟨0b00010000#8, [.num 0xff00]⟩ = .ok (.wrStatus false 0xff00) ∧
    decode ⟨0b00011001#8, [.num 0xff01]⟩ = .ok (.wrMode true 0xff01) ∧
    decode ⟨0b00010010#8, [.num 0xff02]⟩ = .ok (.wrControl false 0xff02) ∧
    decode ⟨0b00011011#8, [.num 0xff03]⟩ = .ok (.wrStart true 0xff03) ∧
    decode ⟨0b00010100#8, [.num 0xff04]⟩ = .ok (.wrRxSize false 0xff04) ∧
    decode ⟨0b00011101#8, [.num 0xff05]⟩ = .ok (.wrTxSize true 0xff05) ∧
    decode ⟨0b00010110#8, [.num 0xff06]⟩ = .ok (.wrRxOffset false 0xff06) ∧
    decode ⟨0b00011111#8, [.num 0xff07]⟩ = .ok (.wrTxOffset true 0xff07) :=
  ⟨rfl, rfl, rfl, rfl, rfl, rfl, rfl, rfl⟩

/-- `op[7:4] = 0010`, `op[0] = rw`. -/
theorem test_decode_ram :
    decode ⟨0b00100000#8, [.num 0x1fff]⟩ = .ok (.rdRam 0x1fff) ∧
    decode ⟨0b00100001#8, [.num 0x0010, .num 0xffff]⟩ = .ok (.wrRam 0x0010 0xffff) :=
  ⟨rfl, rfl⟩

/-- `op[7:4] = 0011`. -/
theorem test_decode_events :
    decode ⟨0b00110000#8, []⟩ = .ok .tick ∧
    decode ⟨0b00110001#8, [.seq [0x61], .seq [0x31], .seq [0x62], .seq [0x32], .num 1]⟩ =
      .ok (.reset [0x61] [0x31] [0x62] [0x32] true) ∧
    decode ⟨0b00110010#8, []⟩ = .ok .stop :=
  ⟨rfl, rfl, rfl⟩

/-- `op[7:4] = 0100`, `op[3] = q`, `op[2:0] = f`. -/
theorem test_decode_rings :
    decode ⟨0b01000000#8, [.seq [0x01, 0x02]]⟩ = .ok (.rbWrite .rxq [0x01, 0x02]) ∧
    decode ⟨0b01001001#8, [.num 1024]⟩ = .ok (.rbRead .txq 1024) ∧
    decode ⟨0b01000010#8, [.num 7]⟩ = .ok (.rbPeek .rxq 7) ∧
    decode ⟨0b01001011#8, [.num 7]⟩ = .ok (.rbConsume .txq 7) ∧
    decode ⟨0b01000100#8, [.num 1]⟩ = .ok (.rbUsed .rxq .reader) ∧
    decode ⟨0b01001101#8, [.num 0]⟩ = .ok (.rbFree .txq .writer) ∧
    decode ⟨0b01001110#8, []⟩ = .ok (.rbClear .txq) :=
  ⟨rfl, rfl, rfl, rfl, rfl, rfl, rfl⟩

/-- `op[7:4] = 0101`. -/
theorem test_decode_transport :
    decode ⟨0b01010000#8, []⟩ = .ok .ltConnected ∧
    decode ⟨0b01010001#8, [.num 1024]⟩ = .ok (.ltReceive 1024) ∧
    decode ⟨0b01010010#8, [.seq [0xff]]⟩ = .ok (.ltSend [0xff]) :=
  ⟨rfl, rfl, rfl⟩

/-- `op[7:4] = 0110`, `op[2] = role`, `op[1:0] = state`. -/
theorem test_decode_env :
    decode ⟨0b01100000#8, []⟩ = .ok (.envConn .rx .idle) ∧
    decode ⟨0b01100001#8, []⟩ = .ok (.envConn .rx .pending) ∧
    decode ⟨0b01100010#8, []⟩ = .ok (.envConn .rx .connected) ∧
    decode ⟨0b01100100#8, []⟩ = .ok (.envConn .tx .idle) ∧
    decode ⟨0b01100101#8, []⟩ = .ok (.envConn .tx .pending) ∧
    decode ⟨0b01100110#8, []⟩ = .ok (.envConn .tx .connected) :=
  ⟨rfl, rfl, rfl, rfl, rfl, rfl⟩

/-- R102; E8 is `0x63`. -/
theorem test_decode_reserved :
    decode ⟨0x22#8, []⟩ = .error .reservedCode ∧
    decode ⟨0x2f#8, []⟩ = .error .reservedCode ∧
    decode ⟨0x33#8, []⟩ = .error .reservedCode ∧
    decode ⟨0x3f#8, []⟩ = .error .reservedCode ∧
    decode ⟨0x47#8, []⟩ = .error .reservedCode ∧
    decode ⟨0x4f#8, []⟩ = .error .reservedCode ∧
    decode ⟨0x53#8, []⟩ = .error .reservedCode ∧
    decode ⟨0x63#8, []⟩ = .error .reservedCode ∧
    decode ⟨0x67#8, []⟩ = .error .reservedCode ∧
    decode ⟨0x68#8, []⟩ = .error .reservedCode ∧
    decode ⟨0x70#8, []⟩ = .error .reservedCode ∧
    decode ⟨0xff#8, []⟩ = .error .reservedCode :=
  ⟨rfl, rfl, rfl, rfl, rfl, rfl, rfl, rfl, rfl, rfl, rfl, rfl⟩

/-- Operands outside the widths of R91 are not the ones the format names. -/
theorem test_decode_operands :
    decode ⟨0x11#8, [.num 65536]⟩ = .error .badOperands ∧
    decode ⟨0x20#8, [.num 8192]⟩ = .error .badOperands ∧
    decode ⟨0x44#8, [.num 2]⟩ = .error .badOperands ∧
    decode ⟨0x31#8, [.seq [], .seq [], .seq [], .seq [], .num 2]⟩ = .error .badOperands ∧
    decode ⟨0x31#8, [.seq [], .seq [0x80], .seq [], .seq [], .num 0]⟩ = .error .nonAscii ∧
    decode ⟨0x30#8, [.num 0]⟩ = .error .badOperands :=
  ⟨rfl, rfl, rfl, rfl, rfl, rfl⟩

/-- One operation of each row. -/
def oneOfEach : List Instr :=
  [.rdStatus false, .rdMode false, .rdControl false, .rdStart false,
   .rdRxSize false, .rdTxSize false, .rdRxOffset false, .rdTxOffset false,
   .wrStatus false 0, .wrMode false 0, .wrControl false 0, .wrStart false 0,
   .wrRxSize false 0, .wrTxSize false 0, .wrRxOffset false 0, .wrTxOffset false 0] ++
  [.rdRam 0, .wrRam 0 0, .tick, .reset [] [] [] [] false,
   .stop, .rbWrite .rxq [], .rbRead .rxq 0, .rbPeek .rxq 0,
   .rbConsume .rxq 0, .rbUsed .rxq .writer, .rbFree .rxq .writer, .rbClear .rxq,
   .ltConnected, .ltReceive 0, .ltSend [], .envConn .rx .idle]

/-- No code byte belongs to two rows (R101). -/
theorem test_rows_disjoint : (oneOfEach.map opcodeRow).Pairwise
    fun r r' => (r.pattern ^^^ r'.pattern) &&& (r.mask &&& r'.mask) ≠ 0 := by decide +kernel

/-- Every row's pattern is a code byte of that row's operation, with zero operands. -/
theorem test_table_words :
    oneOfEach.all (fun i => decodeTableWord 8 (opcodeRow i).pattern.toNat == some i) = true := by decide +kernel

/-- A table word longer than a byte, and one that is too short, are refused. -/
theorem test_table_word_width : decodeTableWord 16 0x130 = none ∧ decodeTableWord 16 0x30 = some .tick ∧
    decodeTableWord 0 0x30 = none := by decide +kernel

/-! ### One step each, on small states -/

/-- A view of the state a step answers. -/
def after {α : Type} (o : Host.Outcome State Fault Refusal) (f : State → α) : Option α :=
  match o with
  | .next t => some (f t)
  | .fault _ => none
  | .refused _ => none

/-- The refusal a step answers. -/
def refusal (o : Host.Outcome State Fault Refusal) : Option Refusal :=
  match o with
  | .refused r => some r
  | .next _ => none
  | .fault _ => none

/-- The start of the ring vectors: `N`, the given view discipline, one ring given as `RXQ`. -/
def ringState (n : Nat) (v : RingView) (q : Ring) : State :=
  { State.reset with par := { Params.default with ringN := n, ringView := v }, rxq := q }

/-- A state with eight different register values. -/
def regState : State :=
  { State.reset with x := { status := 1, mode := 2, control := 3, start := 2, rxSize := 0x14, txSize := 0x15,
                            rxOffset := 0x0016, txOffset := 0x0017 } }

/-- The word a read returns. -/
def wordOut (t : State) : Value := t.out.value

/-- H1. -/
theorem test_rd_status_reset : after (exec (.rdStatus true) State.reset) wordOut = some (.word 0x000c) := by decide

/-- R151: both sizes non-zero, sync set. -/
theorem test_rd_status : after (exec (.rdStatus false) regState) wordOut = some (.word 0x0001) := by decide

theorem test_rd_mode : after (exec (.rdMode false) regState) wordOut = some (.word 2) := by decide

theorem test_rd_control : after (exec (.rdControl true) regState) wordOut = some (.word 3) := by decide

theorem test_rd_start : after (exec (.rdStart false) regState) wordOut = some (.word 2) := by decide

theorem test_rd_rxsize : after (exec (.rdRxSize true) regState) wordOut = some (.word 0x14) := by decide

theorem test_rd_txsize : after (exec (.rdTxSize false) regState) wordOut = some (.word 0x15) := by decide

/-- H9, the read. -/
theorem test_rd_rxoffset : after (exec (.rdRxOffset true) regState) wordOut = some (.word 0x1016) := by decide

theorem test_rd_txoffset : after (exec (.rdTxOffset false) regState) wordOut = some (.word 0x0017) := by decide

/-- H14. -/
theorem test_wr_status : after (exec (.wrStatus false 0xffff) { regState with irqHold := 3 })
    (fun t => (t.x.status, t.irqLatch, t.irqEvents, t.irqHold)) = some (0, false, [false], 3) := by decide

/-- H2. -/
theorem test_wr_mode : after (exec (.wrMode false 0x00f8) State.reset) (fun t => t.x.mode) = some 0x0008 := by decide

/-- H3. -/
theorem test_wr_control : after (exec (.wrControl false 0xffff) State.reset) (fun t => t.x.control) = some 3 := by decide

/-- H4. -/
theorem test_wr_start : after (exec (.wrStart false 0x0006) State.reset) (fun t => t.x.start) = some 2 := by decide

/-- H5. -/
theorem test_wr_rxsize : after (exec (.wrRxSize false 0x0105) State.reset)
    (fun t => (t.x.rxSize, t.txBlock)) = some (5, 0) := by decide

/-- H6. -/
theorem test_wr_txsize : after (exec (.wrTxSize false 0x0102) State.reset)
    (fun t => (t.x.txSize, t.txBlock)) = some (2, 24) := by decide

/-- H7. -/
theorem test_wr_txsize_largest : after (exec (.wrTxSize true 0x00ff) State.reset)
    (fun t => (t.x.txSize, t.txBlock)) = some (0xff, 3060) := by decide

/-- H9, H10, the stores. -/
theorem test_wr_rxoffset :
    after (exec (.wrRxOffset false 0x2005) State.reset) (fun t => t.x.rxOffset) = some 0x0005 ∧
    after (exec (.wrRxOffset false 0x1005) State.reset) (fun t => t.x.rxOffset) = some 0x1005 := by decide

/-- H11. -/
theorem test_wr_txoffset : after (exec (.wrTxOffset false 0xffff) State.reset) (fun t => t.x.txOffset) = some 0x1fff := by
  decide

/-- H15, the read. -/
theorem test_rd_ram : after (exec (.rdRam 0x0000) { State.reset with ram := [(0, 0x105)] }) wordOut =
    some (.word 0x0105) := by decide

/-- H15, H16, the stores; the second keeps the entry it does not address. -/
theorem test_wr_ram :
    after (exec (.wrRam 0x0000 0xff05) State.reset) (fun t => t.ram) = some [(0, 0x105)] ∧
    after (exec (.wrRam 0x1fff 0x01ff) { State.reset with ram := [(0, 0x105)] }) (fun t => t.ram) =
      some [(0, 0x105), (0x1fff, 0x1ff)] := by decide

/-- Q1. -/
theorem test_rb_write : after (exec (.rbWrite .rxq [0x0a, 0x0b, 0x0c]) (ringState 8 .sc ⟨[], 6, 6, 6, 6⟩))
    (fun t => (t.rxq.w, t.rxq.r, t.rxq.buf, t.out.value)) =
      some (1, 6, [(0, 0x0c), (6, 0x0a), (7, 0x0b)], .nat 3) := by decide

/-- The ring of the vectors after Q1, and after Q4. -/
def q1 : Ring := ⟨[(0, 0x0c), (6, 0x0a), (7, 0x0b)], 1, 6, 1, 6⟩
def q4 : Ring := ⟨[(0, 0x0c), (1, 0x01), (2, 0x02), (3, 0x03), (4, 0x04), (6, 0x0a), (7, 0x0b)], 5, 6, 5, 6⟩

/-- Q3. -/
theorem test_rb_write_overflow : after (exec (.rbWrite .rxq [1, 2, 3, 4, 5]) (ringState 8 .sc q1))
    (fun t => (t.rxq, t.out.st)) = some (q1, some .overflow) := by decide

/-- Q2. -/
theorem test_rb_used : after (exec (.rbUsed .rxq .reader) (ringState 8 .sc q1)) wordOut = some (.nat 3) := by decide

/-- Q2. -/
theorem test_rb_free : after (exec (.rbFree .rxq .writer) (ringState 8 .sc q1)) wordOut = some (.nat 4) := by decide

/-- Q6. -/
theorem test_rb_read_would_block : after (exec (.rbRead .rxq 8) (ringState 8 .sc q4))
    (fun t => (t.rxq, t.out.st)) = some (q4, some .wouldBlock) := by decide

/-- Q7. -/
theorem test_rb_peek : after (exec (.rbPeek .rxq 2) (ringState 8 .sc q4)) (fun t => (t.rxq.r, t.out.value)) =
    some (6, .bytes [0x0a, 0x0b]) := by decide

/-- Q8. -/
theorem test_rb_consume : after (exec (.rbConsume .rxq 2) (ringState 8 .sc q4)) (fun t => (t.rxq.r, t.out.st)) =
    some (0, some .ok) := by decide

/-- Q9. -/
theorem test_rb_read : after (exec (.rbRead .rxq 5) (ringState 8 .sc { q4 with r := 0, rv := 0 }))
    (fun t => (t.rxq.r, t.out.value)) = some (5, .bytes [0x0c, 1, 2, 3, 4]) := by decide

/-- Q12. -/
theorem test_rb_clear : after (exec (.rbClear .rxq) (ringState 8 .sc q4)) (fun t => t.rxq) =
    some { q4 with w := 0, r := 0, wv := 0, rv := 0 } := by decide

/-- Q13. -/
theorem test_rb_consume_refused : refusal (exec (.rbConsume .rxq 1) (ringState 8 .sc ⟨[], 5, 5, 5, 5⟩)) =
    some .consumeBeyondUsed := by decide

/-- V2: under `stale` the reader may still see `w` at 0, or see one byte of three, and never another byte. -/
theorem test_stale_views :
    after (exec (.rbRead .rxq 1) { ringState 8 .stale ⟨[(0, 1), (1, 2), (2, 3)], 3, 0, 0, 0⟩ with
      inp := { StepInput.plain with lagR := 3 } }) (fun t => t.out.st) = some (some .wouldBlock) ∧
    after (exec (.rbRead .rxq 1) { ringState 8 .stale ⟨[(0, 1), (1, 2), (2, 3)], 3, 0, 0, 0⟩ with
      inp := { StepInput.plain with lagR := 2 } }) (fun t => (t.out.value, t.rxq.r, t.rxq.wv)) =
        some (.bytes [1], 1, 1) := by decide

/-- V4: under `stale` the writer may refuse five bytes that would fit. -/
theorem test_stale_write_refused :
    after (exec (.rbWrite .rxq [1, 2, 3, 4, 5]) { ringState 8 .stale ⟨[], 3, 3, 3, 0⟩ with
      inp := { StepInput.plain with lagW := 3 } }) (fun t => t.out.st) = some (some .overflow) ∧
    after (exec (.rbWrite .rxq [1, 2, 3, 4, 5]) (ringState 8 .stale ⟨[], 3, 3, 3, 0⟩))
      (fun t => t.out.st) = some (some .ok) := by decide

/-- L1, L2. -/
theorem test_lt_connected :
    after (exec .ltConnected { State.reset with rxConn := .connected, txConn := .pending }) wordOut =
      some (.bool false) ∧
    after (exec .ltConnected { State.reset with rxConn := .connected, txConn := .connected }) wordOut =
      some (.bool true) := by decide

/-- L3. -/
theorem test_lt_receive_not_connected : after (exec (.ltReceive 2) (ringState 8 .sc q4))
    (fun t => (t.rxq, t.out.st)) = some (q4, some .notConnected) := by decide

/-- L4, L5, with 7 bytes in place of 1000. -/
theorem test_lt_receive :
    after (exec (.ltReceive 8) { ringState 8 .sc q4 with rxConn := .connected }) (fun t => (t.rxq, t.out)) =
      some (q4, Result.okWith (.bytes [])) ∧
    after (exec (.ltReceive 7) { ringState 8 .sc q4 with rxConn := .connected }) (fun t => (t.rxq.r, t.out.value)) =
      some (5, .bytes [0x0a, 0x0b, 0x0c, 1, 2, 3, 4]) := by decide

/-- The outbound ring of a small block. -/
def sendState (c : RoleState) (q : Ring) : State := { ringState 8 .sc Ring.empty with txConn := c, txq := q }

/-- L6, L10. -/
theorem test_lt_send_not_connected : after (exec (.ltSend [1]) (sendState .idle q4))
    (fun t => (t.txq, t.drainKicks, t.out.st)) = some (q4, 0, some .notConnected) := by decide

/-- L7, L9: a drain pass is scheduled only when the ring was empty. -/
theorem test_lt_send :
    after (exec (.ltSend [1, 2]) (sendState .connected Ring.empty)) (fun t => (t.txq.w, t.drainKicks, t.out.value)) =
      some (2, 1, .nat 2) ∧
    after (exec (.ltSend [1, 2]) (sendState .connected q1)) (fun t => (t.txq.w, t.drainKicks, t.out.value)) =
      some (3, 0, .nat 2) := by decide

/-- R217. -/
theorem test_env_conn : after (exec (.envConn .tx .pending) State.reset) (fun t => (t.rxConn, t.txConn)) =
    some (.idle, .pending) := by decide

/-- E5: the remote endpoint `127.0.0.1`, `15112` gives the identifier `0x27`. -/
theorem test_reset : after (exec (.reset [0x30, 0x2e, 0x30, 0x2e, 0x30, 0x2e, 0x30] [0x31, 0x35, 0x31, 0x31, 0x32]
    [0x31, 0x32, 0x37, 0x2e, 0x30, 0x2e, 0x30, 0x2e, 0x31] [0x31, 0x35, 0x31, 0x31, 0x32] false)
      { regState with irqLatch := true, rxConn := .connected, rxq := q4 })
    (fun t => (t.linkId, t.x, t.irqLatch, t.rxConn, t.rxq.w)) = some (0x27, Regs.zero, false, .idle, 0) := by decide

/-- E6. -/
theorem test_reset_forward : refusal (exec (.reset [] [] [] [] true) State.reset) = some .forwardMode := by decide

/-- E7, the roles. -/
theorem test_stop : after (exec .stop { State.reset with rxConn := .connected, txConn := .pending })
    (fun t => (t.rxConn, t.txConn, t.bgRunning)) = some (.idle, .idle, false) := by decide

/-- E1 to E4. -/
theorem test_link_id : linkIdOf [0x61] [0x31] = 0x6a ∧
    linkIdOf [0x6c, 0x6f, 0x63, 0x61, 0x6c, 0x68, 0x6f, 0x73, 0x74] [0x31, 0x35, 0x31, 0x31, 0x33] = 0x60 ∧
    linkIdOf [0x70, 0x65, 0x65, 0x72] [0x37] = 0x0f := by decide

/-- T1, the policy table: the rows of 0 to 3, 4 and 5, 6 and 7, 8 to 11, 12 and 13, 14 and 15, over the fixtures `(rx0, tx0, sy)`
000 to 111. -/
theorem test_policy_table :
    (List.range 16).map (fun m => [policy m false false false, policy m false false true, policy m false true false,
      policy m false true true, policy m true false false, policy m true false true, policy m true true false,
      policy m true true true]) =
    List.replicate 4 [false, false, true, true, true, true, true, true] ++
    List.replicate 2 [false, true, false, true, true, true, true, true] ++
    List.replicate 2 [false, false, false, false, true, true, true, true] ++
    List.replicate 4 [false, false, true, true, false, false, true, true] ++
    List.replicate 2 [false, true, false, true, false, true, false, true] ++
    List.replicate 2 [false, false, false, false, false, false, false, false] := by decide

/-- S2, S3 as `90_conflicts.md` C2 corrects it. -/
theorem test_frame :
    (let f := buildFrame false 0x5a [(0, 0x105), (1, 0x42)] 0 2
     (f.take 4, (f.drop 4).take 1018, f.drop 1022)) = ([1, 5, 0, 0x42], List.replicate 1018 0, [0x5a, 2]) ∧
    (let f := buildFrame true 0x5a [(0, 0x105), (1, 0x42)] 0 2
     (f.take 4, f.drop 1022)) = ([0, 5, 0, 0x43], [0x5a, 2]) := by decide +kernel

/-- The parameters of the tick vectors: `N = 4096`. -/
def par4096 : Params := { Params.default with ringN := 4096 }

/-- Both roles connected, `LINK_ID = 0x5a`, `N = 4096`. -/
def linked : State :=
  { State.reset with par := par4096, rxConn := .connected, txConn := .connected, linkId := 0x5a }

/-- P2, tick 24: the counter reaches 0 and the frame of S3 is queued. -/
theorem test_tick_transmit : after (exec .tick { linked with
      x := { Regs.zero with mode := 8, rxSize := 1, txSize := 2 }, txBlock := 1, ram := [(0, 0x105), (1, 0x42)] })
    (fun t => ((t.txBlock, t.txDelay, t.x.txSize), (t.txq.w, t.txq.buf, t.drainKicks))) =
      some ((0, 24, 2), (1024, [(1, 0x05), (3, 0x43), (1022, 0x5a), (1023, 0x02)], 1)) := by decide +kernel

/-- The storage of `RXQ` after `BG_PUSH FRAME(0x01, 3; 0x01aa, 0xfe55, 0x0033)`. -/
def t7Buf : Memory 8 :=
  [(0, 0x01), (1, 0xaa), (2, 0xfe), (3, 0x55), (5, 0x33), (1022, 0x01), (1023, 0x03)]

/-- T7. -/
theorem test_tick_receive : after (exec .tick { linked with
      x := { Regs.zero with mode := 0xf, rxOffset := 0x0ffe }, rxq := ⟨t7Buf, 1024, 0, 1024, 0⟩ })
    (fun t => (t.ram, t.x, t.rxDelay, t.rxq.r)) =
      some ([(0x1000, 0x033), (0x1ffe, 0x1aa), (0x1fff, 0x055)],
        { Regs.zero with status := 1, mode := 0xf, rxSize := 0xfd, rxOffset := 1 }, 36, 1024) := by decide +kernel

/-- The frame notation of R107 spells that frame. -/
theorem test_frame_notation : Ring.putBytes 4096 [] 0 (frameOf 0x01 3 [0x01aa, 0xfe55, 0x0033]) = t7Buf := by
  decide +kernel

/-- The table word of `TICK`, placed as the next operation of the reset state, runs: T2. -/
theorem test_fetch_word : after (step (State.reset.withFetchWord 8 0x30))
    (fun t => (t.x.mode, t.irqLatch, t.irqHold, t.irqEvents)) = some (0x000f, true, 4, [true]) := by decide +kernel

/-- The table word of every row, placed as the next operation of the reset state, runs. -/
theorem test_every_row_runs : oneOfEach.all
    (fun i => (after (step (State.reset.withFetchWord 8 (opcodeRow i).pattern.toNat)) (fun t => t.pending)) == some []) =
      true := by decide +kernel

/-- A reserved table word is refused by name. -/
theorem test_fetch_reserved : refusal (step (State.reset.withFetchWord 8 0x47)) = some (.reservedCode 0x47) := by
  decide +kernel

/-! ### Witnesses: data that meet the hypotheses of the statements

Each `witness_<Name>` belongs to the statement `Obligations.<Name>` (or to the statements its docstring names). -/

/-- The invariant, as far as it is decided over the parameters `par4096`. -/
def invCheck (s : State) : Bool :=
  decide (s.par = par4096) && (s.x.status == 0 || s.x.status == 1) && decide (s.x.mode.toNat ≤ 0x000f) &&
  decide (s.x.control.toNat ≤ 0x0003) && decide (s.x.start.toNat ≤ 0x0003) && decide (s.x.rxSize.toNat ≤ 0x00ff) &&
  decide (s.x.txSize.toNat ≤ 0x00ff) && decide (s.x.rxOffset.toNat ≤ 0x1fff) && decide (s.x.txOffset.toNat ≤ 0x1fff) &&
  Memory.wf ramWords s.ram && s.rxq.wf 4096 && s.txq.wf 4096 && decide (s.txBlock.toNat ≤ 3060) &&
  decide (s.txDelay.toNat ≤ 3060) && decide (s.rxDelay.toNat ≤ 3060) && decide (s.irqHold ≤ 4) && !s.forward &&
  (s.bgRunning || (s.rxConn == .idle && s.txConn == .idle))

theorem inv_of_check (s : State) (h : invCheck s = true) : s.Inv := by
  simp only [invCheck, Bool.and_eq_true, decide_eq_true_eq, Bool.or_eq_true, beq_iff_eq] at h
  obtain ⟨⟨⟨⟨⟨⟨⟨⟨⟨⟨⟨⟨⟨⟨⟨⟨⟨hp, hs⟩, hm⟩, hc⟩, hst⟩, hr⟩, ht⟩, hro⟩, hto⟩, hram⟩, hrx⟩, htx⟩, hb⟩, hd⟩, hrd⟩, hh⟩, hf⟩, hbg⟩ := h
  have hl : par4096.Legal :=
    ⟨by decide, .inl rfl, by decide, by decide, by decide, by decide, by decide, by decide, by decide⟩
  have hv (q : Ring) : q.ViewsAgree s.par.ringView := by
    rw [hp]; intro e; cases e
  refine ⟨hp ▸ hl, ⟨?_, hm, hc, hst, hr, ht, hro, hto⟩, hram, ?_, ?_, hv _, hv _, hb, hd, hrd, hh, by simpa using hf, ?_⟩
  · rw [hp]; exact hs
  · rw [hp]; exact hrx
  · rw [hp]; exact htx
  · intro hn
    rcases hbg with hbg | hbg
    · rw [hbg] at hn; cases hn
    · exact hbg

theorem linked_inv : linked.Inv := inv_of_check _ (by decide)

/-- `ResetStateHasTheInvariant` has no hypotheses; the statements with the invariant alone as hypothesis hold of a state at
the ends of its ranges: registers full, counters at 3060, the hold at 4, both rings full. -/
def fullState : State :=
  { linked with
      x := { status := 1, mode := 0xf, control := 3, start := 3, rxSize := 0xff, txSize := 0xff, rxOffset := 0x1fff,
             txOffset := 0x1fff }
      ram := [(0, 0x1ff), (0x1fff, 1)], txBlock := 3060, txDelay := 3060, rxDelay := 3060, irqHold := 4, irqLatch := true
      rxq := ⟨[(0, 0xaa)], 4095, 0, 0, 0⟩, txq := ⟨[], 2, 3, 3, 3⟩ }

theorem witness_fullState : fullState.Inv := inv_of_check _ (by decide)

/-- `StatusReadBitByBit`, `HostReadsStayInsideTheMask`: the register at its mask, and at 0. -/
theorem witness_HostReadsStayInsideTheMask :
    fullState.Inv ∧ linked.Inv ∧ after (exec (.rdStatus false) fullState) wordOut = some (.word 1) ∧
    after (exec (.rdStatus false) linked) wordOut = some (.word 0xc) ∧
    after (exec (.rdTxOffset true) fullState) wordOut = some (.word 0x1fff) :=
  ⟨witness_fullState, linked_inv, by decide, by decide, by decide⟩

/-- `RamWriteStoresNineBits`, `RamReadAfterWrite`: the last address of the window. -/
theorem witness_RamReadAfterWrite : fullState.Inv ∧ ∃ t, exec (.wrRam 0x1fff 0xffff) fullState = .next t ∧
    Memory.read t.ram 0x1fff = 0x1ff ∧ Memory.read t.ram 0 = 0x1ff :=
  ⟨witness_fullState, _, rfl, by decide⟩

/-- Two bytes of room in `RXQ`, two bytes waiting in `TXQ`, all views new. -/
def ringsState : State := { linked with rxq := ⟨[], 4093, 0, 4093, 0⟩, txq := ⟨[(7, 0x11), (8, 0x22)], 9, 7, 9, 7⟩ }

theorem ringsState_inv : ringsState.Inv := inv_of_check _ (by decide)

/-- `RingWriteIsAllOrNothing`: exactly the room, and one byte more. -/
theorem witness_RingWriteIsAllOrNothing : ringsState.Inv ∧
    after (exec (.rbWrite .rxq [1, 2]) ringsState) (fun t => (t.out, t.rxq.w)) = some (Result.okWith (.nat 2), 4095) ∧
    after (exec (.rbWrite .rxq [1, 2, 3]) ringsState) (fun t => (t.out, t.rxq)) =
      some (Result.signal .overflow, ringsState.rxq) :=
  ⟨ringsState_inv, by decide, by decide⟩

/-- `RingReadIsAllOrNothing`: exactly the bytes waiting, and one more. -/
theorem witness_RingReadIsAllOrNothing : ringsState.Inv ∧
    after (exec (.rbRead .txq 2) ringsState) (fun t => (t.out, t.txq.r)) = some (Result.okWith (.bytes [0x11, 0x22]), 9) ∧
    after (exec (.rbRead .txq 3) ringsState) (fun t => (t.out, t.txq)) =
      some (Result.signal .wouldBlock, ringsState.txq) :=
  ⟨ringsState_inv, by decide, by decide⟩

/-- `RingPeekReturnsWhatReadReturns`, `PeekThenConsumeIsRead`: a peek that answers `Ok`. -/
theorem witness_PeekThenConsumeIsRead : ringsState.Inv ∧ ∃ t, exec (.rbPeek .txq 2) ringsState = .next t ∧
    t.out.st = some .ok :=
  ⟨ringsState_inv, _, rfl, by decide⟩

/-- `RingConsumeAdvancesOrIsRefused`: exactly the bytes waiting, and one more. -/
theorem witness_RingConsumeAdvancesOrIsRefused : ringsState.Inv ∧
    after (exec (.rbConsume .txq 2) ringsState) (fun t => t.txq.r) = some 9 ∧
    refusal (exec (.rbConsume .txq 3) ringsState) = some .consumeBeyondUsed :=
  ⟨ringsState_inv, by decide, by decide⟩

/-- `RingCountsAddUp`: both sides of a full ring and of an empty one. -/
theorem witness_RingCountsAddUp : fullState.Inv ∧ linked.Inv ∧
    after (exec (.rbUsed .rxq .reader) fullState) wordOut = some (.nat 4095) ∧
    after (exec (.rbFree .rxq .writer) fullState) wordOut = some (.nat 0) ∧
    after (exec (.rbUsed .txq .writer) linked) wordOut = some (.nat 0) :=
  ⟨witness_fullState, linked_inv, by decide, by decide, by decide⟩

/-- `RingClearEmptiesTheRing`. -/
theorem witness_RingClearEmptiesTheRing : ∃ t, exec (.rbClear .txq) fullState = .next t := ⟨_, rfl⟩

/-- `SignalsChangeNothingButAView`: each of the three signals. -/
theorem witness_SignalsChangeNothingButAView :
    (∃ t, exec (.rbRead .txq 3) ringsState = .next t ∧ t.out.st = some .wouldBlock) ∧
    (∃ t, exec (.rbWrite .rxq [1, 2, 3]) ringsState = .next t ∧ t.out.st = some .overflow) ∧
    (∃ t, exec (.ltSend [1]) State.reset = .next t ∧ t.out.st = some .notConnected) :=
  ⟨⟨_, rfl, by decide⟩, ⟨_, rfl, by decide⟩, ⟨_, rfl, by decide⟩⟩

/-- `SizingByASnapshotNeverFails`: all the room counted, then the reader side receives and ticks; all the bytes counted,
then the writer side sends and ticks. -/
theorem witness_SizingByASnapshotNeverFails : ringsState.Inv ∧
    (∃ t u, exec (.rbFree .rxq .writer) ringsState = .next t ∧ t.out.value = .nat 2 ∧
      runOps [(.ltReceive 5, StepInput.plain), (.tick, { StepInput.plain with mid := [⟨.used .rxq, 0⟩] })] t = .next u ∧
      movesWriteCursor .rxq StepInput.plain (.ltReceive 5) = false ∧
      movesWriteCursor .rxq { StepInput.plain with mid := [⟨.used .rxq, 0⟩] } .tick = false) ∧
    (∃ t u, exec (.rbUsed .txq .reader) ringsState = .next t ∧ t.out.value = .nat 2 ∧
      runOps [(.ltSend [1], StepInput.plain), (.tick, StepInput.plain)] t = .next u ∧
      movesReadCursor .txq StepInput.plain (.ltSend [1]) = false ∧ movesReadCursor .txq StepInput.plain .tick = false) :=
  ⟨ringsState_inv, ⟨_, _, rfl, rfl, rfl, rfl, rfl⟩, ⟨_, _, rfl, rfl, rfl, rfl, rfl⟩⟩

/-- Operations on `TXQ`, two of them inside a `TICK`. -/
def fifoOps : List (Instr × StepInput) :=
  [(.ltSend [1, 2, 3], StepInput.plain), (.tick, { StepInput.plain with mid := [⟨.read 3, 0⟩, ⟨.consume 1, 0⟩] }),
   (.rbWrite .txq [4], StepInput.plain)]

/-- `RingIsFirstInFirstOut`: from a ring that is not empty and a history that gave a byte out. -/
theorem witness_RingIsFirstInFirstOut : ringsState.Inv ∧ ∃ h0 t h,
    h0.accepted = h0.given ++ (ringsState.ring .txq).contents ringsState.par.ringN ∧
    runHistory .txq fifoOps ringsState h0 = some (t, h) ∧ h.given = [9, 0x11, 0x22, 1, 2] :=
  ⟨ringsState_inv, { accepted := [9, 0x11, 0x22], given := [9] }, _, _, by decide, rfl, by decide +kernel⟩

/-- `ReceivePollsTheInboundRing`, `SendWritesTheOutboundRing`: connected, with enough and with too little; and not
connected. -/
theorem witness_TransportOperations : ringsState.Inv ∧ ringsState.rxConn = .connected ∧ ringsState.txConn = .connected ∧
    after (exec (.ltReceive 4093) ringsState) (fun t => t.rxq.r) = some 4093 ∧
    after (exec (.ltReceive 4094) ringsState) (fun t => t.out.value) = some (.bytes []) ∧
    after (exec (.ltSend [1]) ringsState) (fun t => (t.txq.w, t.drainKicks)) = some (10, 0) ∧
    after (exec (.ltSend [1]) linked) (fun t => (t.txq.w, t.drainKicks)) = some (1, 1) ∧
    after (exec (.ltSend [1]) fullState) (fun t => t.out.st) = some (some .overflow) ∧
    State.reset.Inv ∧ State.reset.rxConn ≠ .connected ∧ State.reset.txConn ≠ .connected := by
  refine ⟨ringsState_inv, rfl, rfl, by decide +kernel, by decide +kernel, by decide, by decide, by decide, ?_,
    by decide, by decide⟩
  have w : Regs.Within Params.default Regs.zero :=
    ⟨.inl rfl, by decide, by decide, by decide, by decide, by decide, by decide, by decide⟩
  exact ⟨⟨by decide, w⟩, w, rfl, by decide, by decide, (fun e => nomatch e), (fun e => nomatch e), by decide,
    by decide, by decide, by decide, rfl, (fun e => nomatch e)⟩

/-- A tick inside which the background writes two bytes and drops the transmit connection. -/
def midState : State :=
  { ringsState with
      x := { Regs.zero with mode := 0xf }
      inp := { StepInput.plain with mid := [⟨.write [5, 6], 0⟩, ⟨.envConn .tx .idle, 0⟩, ⟨.clear .txq, 0⟩] } }

/-- `TickCompletes`, with operations inside the tick and with none. -/
theorem witness_TickCompletes : (∀ m ∈ midState.inp.mid, m.op.neverRefused = true) ∧ midState.bgRunning = true ∧
    linked.inp.mid = [] ∧ ∃ t, exec .tick linked = .next t :=
  ⟨by decide, rfl, rfl, _, rfl⟩

/-- `BackgroundOpsInsideATickActAsAlone`: an operation that runs, and one that is refused; with both passes closed, a tick
whose operations all run, and one with a refused operation. -/
theorem witness_BackgroundOpsInsideATickActAsAlone : midState.bgRunning = true ∧
    (∃ p, runBgOp ⟨.consume 2, 0⟩ midState = .ok p) ∧ runBgOp ⟨.consume 3, 0⟩ midState = .error .consumeBeyondUsed ∧
    1 < (2 : Word).toNat ∧ midState.x.txSize = 0 ∧
    (∃ u, runOps (midState.inp.mid.map fun m => (m.op.instr, { midState.inp with lagW := m.lag, lagR := m.lag }))
      { midState with rxDelay := 2 } = .next u) ∧
    exec .tick { midState with rxDelay := 2, inp := { StepInput.plain with mid := [⟨.consume 3, 0⟩] } } =
      .refused .consumeBeyondUsed :=
  ⟨rfl, ⟨_, rfl⟩, rfl, by decide, rfl, ⟨_, rfl⟩, rfl⟩

/-- The inputs of a tick with one background operation inside. -/
def midInput (op : BgOp) : StepInput := { StepInput.plain with mid := [⟨op, 0⟩] }

/-- Both sizes non-zero, sync clear: the fixture 000, halted so that no frame is sent. -/
def policyState (mode rxSize txSize status : Word) : State :=
  { linked with x := { Regs.zero with mode := mode, rxSize := rxSize, txSize := txSize, status := status, control := 1 } }

/-- `PolicyTableDecidesAssertion`: each row of the table at its ends, asserting and silent. -/
theorem witness_PolicyTableDecidesAssertion :
    [policyState 0 1 0 0, policyState 3 0 1 0, policyState 4 1 1 1, policyState 5 1 0 0, policyState 6 0 1 0,
     policyState 7 1 0 1, policyState 8 1 0 0, policyState 11 0 1 1, policyState 12 1 1 1, policyState 13 0 0 0,
     policyState 14 0 0 1, policyState 15 0 0 1].map
        (fun s => (invCheck s, s.irqLatch, s.irqHold, after (exec .tick s) (fun t => t.irqLatch))) =
      [true, true, true, false, true, false, true, false, true, false, false, false].map
        (fun a => (true, false, 0, some a)) := by decide +kernel

/-- `LatchAndHoldOverOneTick`, `OnlyAnAssertingTickSetsTheLatch`: the hold about to end with the latch set; the latch set by
an assertion. Both values of `IRQ_FOLLOW`. -/
theorem witness_LatchAndHoldOverOneTick :
    (∃ t, exec .tick { policyState 15 1 1 0 with irqLatch := true, irqHold := 1 } = .next t ∧ t.irqLatch = false ∧
      t.irqEvents = [false]) ∧
    (∃ t, exec .tick { policyState 0 0 0 0 with par := { par4096 with irqFollow := false } } = .next t ∧
      (policyState 0 0 0 0).irqLatch = false ∧ t.irqLatch = true ∧ t.irqHold = 4) :=
  ⟨⟨_, rfl, by decide +kernel⟩, ⟨_, rfl, by decide +kernel⟩⟩

/-- `DelayCountersCountDown`: `txDelay` at 0, 1 and 2, `rxDelay` at 2. -/
theorem witness_DelayCountersCountDown :
    ∃ t0 t1 t2, exec .tick { policyState 15 1 9 0 with rxDelay := 2 } = .next t0 ∧
      exec .tick { policyState 15 1 9 0 with txDelay := 1 } = .next t1 ∧
      exec .tick { policyState 15 1 9 0 with txDelay := 2 } = .next t2 ∧
      t0.x.txSize = 9 ∧ t0.rxDelay = 1 ∧ t1.x.txSize = 0 ∧ t2.x.txSize = 9 ∧ t2.txDelay = 1 :=
  ⟨_, _, _, rfl, rfl, rfl, by decide +kernel⟩

/-- `FrameLayout`, `ReceiverUnpacksWhatWasPacked`: the smallest and the largest word count, both variants. -/
theorem witness_FrameLayout :
    (let f := buildFrame true 0x5a [(0x1fff, 0x1fe)] 0x1fff 1
     (f.take 3, f.drop 1022)) = ([0, 0xff, 0], [0x5a, 1]) ∧
    (let f := buildFrame false 0x5a [(254, 0x1ff)] 0 255
     (f.length, f.drop 508)) = (1024, [1, 0xff] ++ List.replicate 512 0 ++ [0x5a, 0xff]) := by decide +kernel

/-- Two words to send, with the counters as given. -/
def txState (txBlock : Word) (c : RoleState) (txq : Ring) : State :=
  { linked with x := { Regs.zero with mode := 15, rxSize := 1, txSize := 2 }, txBlock := txBlock, txConn := c, txq := txq }

/-- `TransmitPassSendsOrRetries`: room for exactly one frame, room for one byte less, and no connection. -/
theorem witness_TransmitPassSendsOrRetries :
    [txState 1 .connected ⟨[], 3071, 0, 3071, 0⟩, txState 0 .connected ⟨[], 3072, 0, 3072, 0⟩,
     txState 0 .pending Ring.empty].map
        (fun s => (invCheck s, s.inp.mid == [], s.txBlock.toNat ≤ 1 && s.txDelay == 0 && !s.x.control.getLsbD 0,
          after (exec .tick s) (fun t => (t.txDelay, t.txq.w)))) =
      [(true, true, true, some (24, 4095)), (true, true, true, some (0, 3072)), (true, true, true, some (0, 0))] := by
  decide +kernel

/-- `TickRunsBackgroundOpsBetweenThePasses`: the write of the last byte of a frame; a read of all there is and of the frame
queued, at exactly the room for it; a read of all there is, at one byte less. -/
theorem witness_TickRunsBackgroundOpsBetweenThePasses :
    [{ policyState 15 1 1 0 with rxq := ⟨t7Buf, 1023, 0, 0, 0⟩, rxDelay := 1, inp := midInput (.write [3]) },
     { txState 1 .connected ⟨[], 3071, 0, 3071, 0⟩ with inp := midInput (.read 4095) },
     { txState 0 .connected ⟨[], 3072, 0, 3072, 0⟩ with inp := midInput (.read 3072) }].map
        (fun s => (invCheck s && s.bgRunning && s.rxConn == .connected && s.txConn == .connected,
          after (exec .tick s) (fun t => ((t.rxq.r, t.rxDelay), (t.txq.r, t.txDelay))))) =
      [(true, some ((1024, 36), (0, 0))), (true, some ((0, 0), (4095, 24))), (true, some ((0, 0), (3072, 0)))] := by
  decide +kernel

/-- `ClosedTransmitGateSendsNothing`: each of the four conditions on its own. -/
theorem witness_ClosedTransmitGateSendsNothing :
    [{ linked with x := { Regs.zero with txSize := 1 }, txBlock := 2 },
     { linked with x := { Regs.zero with txSize := 1 }, txDelay := 1 },
     { linked with x := { Regs.zero with txSize := 1, control := 1 } }, linked].map
        (fun s => (s.inp.mid == [], [decide (1 < s.txBlock.toNat), s.txDelay != 0, s.x.control.getLsbD 0, s.x.txSize == 0],
          after (exec .tick s) (fun t => t.txq))) =
      [(true, [true, false, false, false], some linked.txq), (true, [false, true, false, false], some linked.txq),
       (true, [false, false, true, false], some linked.txq), (true, [false, false, false, true], some linked.txq)] := by
  decide +kernel

/-- `ReceivePassUnpacksOneFrame`, `AtMostOneFrameEachWayPerTick`: exactly one frame waiting with `rxDelay` at 1, one byte less,
and no connection. -/
theorem witness_ReceivePassUnpacksOneFrame :
    [{ policyState 15 1 1 0 with rxq := ⟨t7Buf, 1024, 0, 1024, 0⟩, rxDelay := 1 },
     { policyState 15 1 1 0 with rxq := ⟨t7Buf, 1023, 0, 1023, 0⟩ },
     { policyState 15 1 1 0 with rxq := ⟨t7Buf, 1024, 0, 1024, 0⟩, rxConn := .idle }].map
        (fun s => (invCheck s, s.inp.mid == [], after (exec .tick s) (fun t => (t.rxq.r, t.rxDelay)))) =
      [(true, true, some (1024, 36)), (true, true, some (0, 0)), (true, true, some (0, 0))] := by decide +kernel

/-- `RunningReceiveDelayTakesNothing`: `rxDelay` at 2 with a frame waiting. -/
theorem witness_RunningReceiveDelayTakesNothing : linked.inp.mid = [] ∧ 1 < (2 : Word).toNat ∧
    after (exec .tick { linked with rxq := ⟨t7Buf, 1024, 0, 1024, 0⟩, rxDelay := 2 }) (fun t => (t.rxq.r, t.rxDelay)) =
      some (0, 1) := by decide +kernel

/-- `TransmitTimeline` with the largest and the smallest word count, at each of its boundary ticks. -/
theorem witness_TransmitTimeline : linked.Inv ∧ linked.txDelay = 0 ∧ linked.x.control.getLsbD 0 = false ∧
    linked.txConn = .connected ∧ 1024 ≤ linked.par.ringN - 1 - Ring.dist linked.par.ringN linked.txq.rv linked.txq.w ∧
    (∃ s1, exec (.wrTxSize false 0xffff) linked = .next s1) ∧ (0xffff : Word).toNat % 256 = 255 ∧
    (∃ s1, exec (.wrTxSize true 1) linked = .next s1) ∧
    ∀ k ∈ [0, 11, 12, 24], ∀ inp ∈ List.replicate k StepInput.plain, inp.mid = [] :=
  ⟨linked_inv, rfl, by decide, rfl, by decide, ⟨_, rfl⟩, by decide, ⟨_, rfl⟩, by
    intro k _ inp hi; rw [List.eq_of_mem_replicate hi]; rfl⟩

/-- `TxSizeWrittenInFlightIsLost`: the delay at 1. -/
theorem witness_TxSizeWrittenInFlightIsLost : 0 < ({ linked with txDelay := 1 } : State).txDelay.toNat ∧
    (∃ s1, exec (.wrTxSize false 3) { linked with txDelay := 1 } = .next s1) ∧ [StepInput.plain].length = (1 : Word).toNat ∧
    ∀ inp ∈ [StepInput.plain], inp.mid = [] :=
  ⟨by decide, ⟨_, rfl⟩, rfl, by decide⟩

/-- `InterruptPulseWidth`: T6, for both values of `IRQ_FOLLOW`, one tick and six. -/
theorem witness_InterruptPulseWidth : policyNow (policyState 8 1 0 0) = true ∧ (policyState 8 1 0 0).irqLatch = false ∧
    policyNow { policyState 8 1 0 0 with par := { par4096 with irqFollow := false } } = true ∧
    ∀ k ∈ [1, 6], 1 ≤ (List.replicate k StepInput.plain).length ∧
      ∀ inp ∈ List.replicate k StepInput.plain, inp.mid = [] :=
  ⟨by decide, rfl, by decide, by decide⟩

/-- A run that does not touch MODE. -/
def silentOps : List (Instr × StepInput) := [(.wrStatus false 0, StepInput.plain), (.tick, StepInput.plain)]

/-- `DisarmedModeStaysSilent`: both modes. -/
theorem witness_DisarmedModeStaysSilent :
    (policyState 14 0 0 0).irqLatch = false ∧ (∃ t, runOps silentOps (policyState 14 0 0 0) = .next t) ∧
    (policyState 15 0 0 0).irqLatch = false ∧ (∃ t, runOps silentOps (policyState 15 0 0 0) = .next t) ∧
    ∀ p ∈ silentOps, (∀ m d, p.1 ≠ .wrMode m d) ∧ ∀ lh lp rh rp f, p.1 ≠ .reset lh lp rh rp f := by
  refine ⟨rfl, ⟨_, rfl⟩, rfl, ⟨_, rfl⟩, ?_⟩
  intro p hp
  simp only [silentOps, List.mem_cons, List.not_mem_nil, or_false] at hp
  rcases hp with rfl | rfl <;> exact ⟨fun _ _ => nofun, fun _ _ _ _ _ => nofun⟩

/-- `BackgroundLeavesForegroundState`: the background's write of the inbound ring. -/
theorem witness_BackgroundLeavesForegroundState : owner (.rbWrite .rxq [1]) = .bg ∧
    ∃ t, exec (.rbWrite .rxq [1]) ringsState = .next t := ⟨rfl, _, rfl⟩

/-- `WritersOfHostOnlyRegisters`: a write that changes each of the three. -/
theorem witness_WritersOfHostOnlyRegisters :
    (∃ t, exec (.wrControl false 1) linked = .next t ∧ t.x.control ≠ linked.x.control) ∧
    (∃ t, exec (.wrStart false 1) linked = .next t ∧ t.x.start ≠ linked.x.start) ∧
    (∃ t, exec (.wrTxOffset false 1) linked = .next t ∧ t.x.txOffset ≠ linked.x.txOffset) :=
  ⟨⟨_, rfl, by decide⟩, ⟨_, rfl, by decide⟩, ⟨_, rfl, by decide⟩⟩

/-- `StartAffectsNothing`: a tick. -/
theorem witness_StartAffectsNothing : (∀ m, Instr.tick ≠ .rdStart m) ∧ (∀ m d, Instr.tick ≠ .wrStart m d) ∧
    (∀ lh lp rh rp f, Instr.tick ≠ .reset lh lp rh rp f) ∧ ∃ t, exec .tick linked = .next t :=
  ⟨fun _ => nofun, fun _ _ => nofun, fun _ _ _ _ _ => nofun, _, rfl⟩

/-- `StoredRxOffsetBit12IsUnobservable`: H9 and H10. -/
theorem witness_StoredRxOffsetBit12IsUnobservable :
    (0x0fff : Word) &&& 0xefff = fullState.x.rxOffset &&& 0xefff ∧ (0x0fff : Word) ≠ fullState.x.rxOffset ∧
    ∃ t, exec (.rdRxOffset false) fullState = .next t :=
  ⟨by decide, by decide, _, rfl⟩

/-- `StepKeepsTheInvariant`: an operation waiting. -/
theorem witness_StepKeepsTheInvariant : ({ linked with pending := [rdRegIssue StepInput.plain 6] } : State).Inv ∧
    ∃ t, step { linked with pending := [rdRegIssue StepInput.plain 6] } = .next t :=
  ⟨inv_of_check _ (by decide), _, rfl⟩

/-- `ResetLeavesTheResetState`, `ResetComputesTheLinkIdentifier`, `ResetRefusals`: the last ASCII byte, and the first that is
none. -/
theorem witness_ResetRefusals : (∀ b ∈ ([0x7f] ++ [] ++ [0x61] ++ [0x00] : List Byte), b.toNat < 128) ∧
    ¬(∀ b ∈ ([] ++ [] ++ [] ++ [0x80] : List Byte), b.toNat < 128) ∧
    ∃ t, exec (.reset [0x7f] [] [0x61] [0x31] false) fullState = .next t ∧ t.linkId = 0x6a :=
  ⟨by decide, by decide, _, rfl, by decide⟩

/-- The state after a `STOP`, with an operation waiting. -/
def stoppedState (iss : Issue) : State :=
  { State.reset with par := par4096, bgRunning := false, pending := [iss] }

/-- `StoppedUntilReset`: the background's issue; a tick; a reset. -/
theorem witness_StoppedUntilReset :
    (bgPop StepInput.plain 0).agent = .bg ∧ step (stoppedState (bgPop StepInput.plain 0)) = .refused .bgStopped ∧
    (stoppedState (issueOf StepInput.plain .tick)).Inv ∧
    (∃ t, step (stoppedState (issueOf StepInput.plain .tick)) = .next t ∧ t.bgRunning = false) ∧
    (∃ t, step (stoppedState (issueOf StepInput.plain (.reset [] [] [] [] false))) = .next t ∧ t.bgRunning = true) :=
  ⟨rfl, rfl, inv_of_check _ (by decide), ⟨_, rfl, by decide +kernel⟩, ⟨_, rfl, by decide +kernel⟩⟩

/-- `DroppingAConnectionClearsItsRing`: a running background. -/
theorem witness_DroppingAConnectionClearsItsRing : ringsState.bgRunning = true := rfl

/-- `StepRunsTheIssuedOperation`: an operation of each agent; nothing to come. -/
theorem witness_StepRunsTheIssuedOperation :
    decode (bgPush StepInput.plain [1]).word = .ok (.rbWrite .rxq [1]) ∧
    (bgPush StepInput.plain [1]).agent = owner (.rbWrite .rxq [1]) ∧ ringsState.bgRunning = true ∧
    decode (issueOf StepInput.plain .stop).word = .ok .stop ∧ (issueOf StepInput.plain .stop).agent = owner .stop ∧
    State.reset.pending = [] := ⟨rfl, rfl, rfl, rfl, rfl, rfl⟩

/-- `WrongAgentIsRefused`: the background issues a tick, the foreground writes `RXQ`. -/
theorem witness_WrongAgentIsRefused :
    decode ⟨0x30, []⟩ = .ok .tick ∧ Agent.bg ≠ owner .tick ∧
    decode ⟨0x40, [.seq [1]]⟩ = .ok (.rbWrite .rxq [1]) ∧ Agent.fg ≠ owner (.rbWrite .rxq [1]) :=
  ⟨rfl, by decide, rfl, by decide⟩

/-- `DecodeOfEncode`, `EncodeOfDecode`: a reset at the ends of its operands, the last RAM address. -/
theorem witness_DecodeOfEncode : (Instr.reset [0x7f] [] [0x00] [] true).wf = true ∧
    decode ⟨0x21, [.num 8191, .num 65535]⟩ = .ok (.wrRam 0x1fff 0xffff) ∧ (Instr.wrRam 0x1fff 0xffff).wf = true :=
  ⟨by decide, rfl, rfl⟩


/-! ### Fairness (R87): runs it admits and runs it shuts out -/

/-- A byte the reader side of `RXQ` has not seen yet, and one it has, after an `RB_USED` whose view is `lag` bytes old. -/
def pollState (view lag : Nat) : State :=
  { linked with
      rxq := ⟨[(0, 0xaa)], 1, 0, view, 0⟩, inp := { StepInput.plain with lagR := lag }
      out := { st := some .ok, value := .nat view } }

/-- Nothing but `RB_USED` of the reader side, each with the same view choice. -/
def pollOp (lag : Nat) : Instr × StepInput := (.rbUsed .rxq .reader, { StepInput.plain with lagR := lag })

/-- A poll that finds the view it already holds leaves the state. -/
theorem poll_step (view lag : Nat)
    (hr : Ring.refresh 4096 .stale lag .reader (pollState view lag).rxq = (pollState view lag).rxq)
    (hu : Ring.usedBy 4096 .reader (pollState view lag).rxq = view) :
    exec (pollOp lag).1 { pollState view lag with inp := (pollOp lag).2 } = .next (pollState view lag) := by
  change Host.Outcome.next (((pollState view lag).setRing .rxq
    (Ring.refresh 4096 .stale lag .reader (pollState view lag).rxq)).ret (Result.okWith
      (.nat (Ring.usedBy 4096 .reader (Ring.refresh 4096 .stale lag .reader (pollState view lag).rxq))))) = _
  rw [hr, hu]
  rfl

/-- In `pollState 1 0` no view is behind. -/
theorem poll_not_behind (q : RingId) (side : Side) : Ring.behind 4096 side ((pollState 1 0).ring q) = 0 := by
  cases q <;> cases side <;> decide +kernel

/-- A run of polls with the newest view is a run and a fair one, and the reader side acts in it for ever. -/
theorem witness_fair_run : IsRun (fun _ => pollOp 0) (fun _ => pollState 1 0) ∧
    Fair (fun _ => pollOp 0) (fun _ => pollState 1 0) ∧
    ∀ j : Nat, ∃ k, j ≤ k ∧ Acts .rxq .reader (pollOp 0).1 (pollOp 0).2 (pollState 1 0) (pollState 1 0) :=
  ⟨fun _ => ⟨poll_step _ _ (by decide +kernel) (by decide +kernel), fun h => nomatch h⟩,
    fun q side _ _ => ⟨0, .inl (Nat.le_of_eq (poll_not_behind q side))⟩, fun j => ⟨j, Nat.le_refl j, rfl⟩⟩

/-- A run of polls that for ever see a view one byte old is a run, and not a fair one. -/
theorem witness_unfair_run : IsRun (fun _ => pollOp 1) (fun _ => pollState 0 1) ∧
    ¬ Fair (fun _ => pollOp 1) (fun _ => pollState 0 1) := by
  refine ⟨fun _ => ⟨poll_step _ _ (by decide +kernel) (by decide +kernel), fun h => nomatch h⟩, fun hf => ?_⟩
  have h0 : ∀ k, viewAdvance .rxq .reader (fun _ => pollState 0 1) 0 k = 0 := by
    intro k
    induction k with
    | zero => rfl
    | succ k ih => unfold viewAdvance; rw [ih]; decide +kernel
  obtain ⟨k, hk | ⟨i, -, -, hc⟩⟩ := hf .rxq .reader (fun j => ⟨j, Nat.le_refl j, rfl⟩) 0
  · rw [h0 k] at hk
    exact absurd hk (by decide +kernel)
  · cases hc
end Sys2Proof.Tests
end

/-!
PROOFS. How the next operation reaches `exec`: what an admitted issue is, and the two things a step can do (R12, R90).
-/
namespace Sys2Proof.Machine

/-- An issue is admitted as `i` exactly when its word decodes to `i`, its agent owns `i`, and the background, if it is
the issuer, runs. -/
theorem admitted_ok_iff {iss : Issue} {s : State} {i : Instr} : admitted iss s = .ok i ↔
    decode iss.word = .ok i ∧ iss.agent = owner i ∧ (iss.agent = .bg → s.bgRunning = true) := by
  unfold admitted admission
  cases hd : decode iss.word with
  | error e => simp
  | ok j =>
    by_cases ho : iss.agent = owner j
    · by_cases hb : iss.agent = .bg ∧ s.bgRunning = false
      · simp only [if_pos ho, if_pos hb, reduceCtorEq, false_iff]
        rintro ⟨-, -, hr⟩
        simp [hr hb.1] at hb
      · have hr : iss.agent = .bg → s.bgRunning = true := fun e => by simpa [e] using hb
        simp only [if_pos ho, if_neg hb, Except.ok.injEq]
        exact ⟨fun e => ⟨e, e ▸ ho, hr⟩, fun e => e.1⟩
    · simp only [if_neg ho, reduceCtorEq, Except.ok.injEq, false_iff]
      rintro ⟨rfl, ho', -⟩
      exact ho ho'

theorem step_of_pending_nil {s : State} (h : s.pending = []) : step s = .next s := by
  simp [step, h]

theorem step_of_admitted {iss : Issue} {rest : List Issue} {i : Instr} {s : State} (hp : s.pending = iss :: rest)
    (ha : admitted iss (s.take iss rest) = .ok i) : step s = exec i (s.take iss rest) := by
  simp [step, hp, ha]

/-- A step that answers a next state stood still or performed an admitted issue. -/
theorem step_next_cases {s t : State} (h : step s = .next t) : (s.pending = [] ∧ t = s) ∨
    ∃ iss rest i, s.pending = iss :: rest ∧ admitted iss (s.take iss rest) = .ok i ∧
      exec i (s.take iss rest) = .next t := by
  cases hp : s.pending with
  | nil =>
    rw [step_of_pending_nil hp] at h
    cases h
    exact .inl ⟨rfl, rfl⟩
  | cons iss rest =>
    cases ha : admitted iss (s.take iss rest) with
    | ok i => exact .inr ⟨iss, rest, i, rfl, ha, step_of_admitted hp ha ▸ h⟩
    | error r => simp [step, hp, ha] at h

/-- A `RESET` that answers a next state has `fwd = false` (R210, R213). -/
theorem execReset_next {lh lp rh rp : List Byte} {fwd : Bool} {s t : State}
    (h : execReset lh lp rh rp fwd s = .next t) : fwd = false ∧ t = (resetState rh rp false s).done := by
  unfold execReset at h
  split at h
  · cases fwd
    · cases h
      exact ⟨rfl, rfl⟩
    · cases h
  · cases h

/-- A consume that is not refused stores what the ring operation leaves (R124). -/
theorem rbConsume_some {q : RingId} {lag n : Nat} {s : State} {p : State × Result} (h : rbConsume q lag n s = some p) :
    ∃ r, (s.ring q).consume s.par.ringN s.par.ringView lag n = some r ∧ p = applyRing q r s := by
  unfold rbConsume at h
  split at h
  · next r hr =>
    cases h
    exact ⟨r, hr, rfl⟩
  · cases h

/-- An `RB_CONSUME` that answers a next state was not refused (R124). -/
theorem execRbConsume_next {q : RingId} {n : Nat} {s t : State} (h : execRbConsume q n s = .next t) :
    ∃ p, rbConsume q (s.lag .reader) n s = some p ∧ t = p.1.ret p.2 := by
  unfold execRbConsume at h
  split at h
  · next p hp =>
    cases h
    exact ⟨p, hp, rfl⟩
  · cases h

/-- Settles O55: with the issue admitted (`admitted_ok_iff`), `State.take` is the state the statement writes out. -/
theorem stepRunsTheIssuedOperation : Obligations.StepRunsTheIssuedOperation := by
  refine ⟨fun iss rest i s hp hd ho hb => ?_, fun s hp => step_of_pending_nil hp⟩
  exact step_of_admitted hp (admitted_ok_iff.mpr ⟨hd, ho, hb⟩)

end Sys2Proof.Machine

/-!
PROOFS. The part of the invariant that is about registers (R20, R21) and about one ring (R30, R31, R131), and that the
ring operations keep the latter.
-/
namespace Sys2Proof

open Sys2Proof.Machine

/-! ### Registers within their masks -/

theorem toNat_and_le (d mask : Word) : (d &&& mask).toNat ≤ mask.toNat := by
  rw [BitVec.toNat_and]
  exact Nat.and_le_right

theorem Regs.zero_within (p : Params) : Regs.Within p Regs.zero :=
  ⟨.inl rfl, by decide, by decide, by decide, by decide, by decide, by decide, by decide⟩

theorem Params.default_legal : Params.default.Legal :=
  ⟨by decide, Regs.zero_within _⟩

/-! A register write keeps every register within its mask (R93). -/

namespace Regs.Within

variable {p : Params} {x : Regs}

theorem setMode (h : Regs.Within p x) (d : Word) :
    Regs.Within p { x with mode := maskMode d } := { h with mode := toNat_and_le d 0x000f }

theorem setControl (h : Regs.Within p x) (d : Word) :
    Regs.Within p { x with control := maskControl d } := { h with control := toNat_and_le d 0x0003 }

theorem setStart (h : Regs.Within p x) (d : Word) :
    Regs.Within p { x with start := maskStart d } := { h with start := toNat_and_le d 0x0003 }

theorem setRxSize (h : Regs.Within p x) (d : Word) :
    Regs.Within p { x with rxSize := maskSize d } := { h with rxSize := toNat_and_le d 0x00ff }

theorem setTxSize (h : Regs.Within p x) (d : Word) :
    Regs.Within p { x with txSize := maskSize d } := { h with txSize := toNat_and_le d 0x00ff }

theorem setRxOffset (h : Regs.Within p x) (d : Word) :
    Regs.Within p { x with rxOffset := maskOffset d } := { h with rxOffset := toNat_and_le d 0x1fff }

theorem setTxOffset (h : Regs.Within p x) (d : Word) :
    Regs.Within p { x with txOffset := maskOffset d } := { h with txOffset := toNat_and_le d 0x1fff }

/-- Setting the sync bit of a STATUS within its mask gives the sync bit (R21). -/
theorem status_or_syncMask (h : Regs.Within p x) :
    x.status ||| syncMask p = syncMask p := by
  rcases h.status with e | e <;> simp [e]

end Regs.Within

namespace Machine

/-- The delay loaded for a masked size (R187, R190): at most 255 words of 12 ticks. -/
theorem delayOf_le {n : Nat} (hn : n ≤ 255) : (delayOf n).toNat ≤ 3060 := by
  rw [delayOf_toNat hn]
  omega

/-- Counting a delay down keeps it in its range. -/
theorem toNat_countDown_le {v : Word} {k : Nat} (h : v.toNat ≤ k) :
    (if v = 0 then 0 else v - 1 : Word).toNat ≤ k := by
  rw [toNat_countDown]
  omega

namespace Ring

variable {p : Params} {q : Ring} {lag : Nat}

/-- What the invariant of the state says of one ring. -/
structure Sound (p : Params) (q : Ring) : Prop where
  wf    : q.wf p.ringN = true
  views : q.ViewsAgree p.ringView

theorem empty_sound (h : 0 < p.ringN) : Ring.empty.Sound p := ⟨empty_wf h, fun _ => ⟨rfl, rfl⟩⟩

theorem clear_sound (h : q.Sound p) : q.clear.Sound p := ⟨clear_wf h.wf, fun _ => ⟨rfl, rfl⟩⟩

/-- Under `sc` a refresh shows the cursor the view already is (R31). -/
theorem refresh_sound (h : q.Sound p) (side : Side) : (q.refresh p.ringN p.ringView lag side).Sound p := by
  refine ⟨refresh_wf h.wf, fun hsc => ?_⟩
  obtain ⟨hw, hr⟩ := h.views hsc
  cases side
  · exact ⟨hw, by simp [hsc]⟩
  · exact ⟨by simp [hsc], hr⟩

/-- The ring after a write that found room (R121). -/
theorem written_sound (h : q.Sound p) {bytes : List Byte}
    (hl : bytes.length ≤ freeBy p.ringN .writer (q.refresh p.ringN p.ringView lag .writer)) :
    (publishW p.ringView ((q.w + bytes.length) % p.ringN)
      { q.refresh p.ringN p.ringView lag .writer with buf := putBytes p.ringN q.buf q.w bytes }).Sound p := by
  have hq := refresh_sound (lag := lag) h .writer
  refine ⟨by simpa using write_ok_wf (v := p.ringView) hq.wf hl, fun hsc => ?_⟩
  obtain ⟨-, hr⟩ := hq.views hsc
  exact ⟨by simp [publishW, hsc], hr⟩

/-- The ring after its reader moved over `k` bytes it sees (R122, R124). -/
theorem advanced_sound (h : q.Sound p) {k : Nat}
    (hk : k ≤ usedBy p.ringN .reader (q.refresh p.ringN p.ringView lag .reader)) :
    (publishR p.ringView ((q.r + k) % p.ringN) (q.refresh p.ringN p.ringView lag .reader)).Sound p := by
  have hq := refresh_sound (lag := lag) h .reader
  refine ⟨by simpa using advance_wf (v := p.ringView) hq.wf hk, fun hsc => ?_⟩
  obtain ⟨hw, -⟩ := hq.views hsc
  exact ⟨hw, by simp [publishR, hsc]⟩

theorem write_sound (h : q.Sound p) (bytes : List Byte) : (q.write p.ringN p.ringView lag bytes).1.Sound p := by
  rcases write_cases (n := p.ringN) p.ringView lag bytes q with ⟨-, e⟩ | ⟨hl, e⟩ <;> rw [e]
  · exact refresh_sound h .writer
  · exact written_sound h hl

theorem read_sound (h : q.Sound p) (len : Nat) : (q.read p.ringN p.ringView lag len).1.Sound p := by
  rcases read_cases (n := p.ringN) p.ringView lag len q with ⟨-, e⟩ | ⟨hl, e⟩ <;> rw [e]
  · exact refresh_sound h .reader
  · exact advanced_sound h hl

theorem peek_sound (h : q.Sound p) (len : Nat) : (q.peek p.ringN p.ringView lag len).1.Sound p := by
  rcases peek_cases (n := p.ringN) p.ringView lag len q with ⟨-, e⟩ | ⟨-, e⟩ <;> rw [e] <;>
    exact refresh_sound h .reader

theorem consume_sound (h : q.Sound p) {k : Nat} {r : Ring × Result}
    (hc : q.consume p.ringN p.ringView lag k = some r) : r.1.Sound p := by
  rcases consume_cases (n := p.ringN) p.ringView lag k q with ⟨-, e⟩ | ⟨hk, e⟩ <;> rw [e] at hc <;> cases hc
  exact advanced_sound h hk

end Ring
end Machine
end Sys2Proof

/-!
PROOFS. Every operation keeps the invariant of the state, so every step does (R131).
-/
namespace Sys2Proof.Machine

variable {s t : State}

/-! ### The updates the operations are made of -/

namespace State.Inv

theorem ring_sound (h : s.Inv) (q : RingId) : (s.ring q).Sound s.par := by
  cases q
  · exact ⟨h.rxq, h.rxViews⟩
  · exact ⟨h.txq, h.txViews⟩

theorem setRing (h : s.Inv) {q : RingId} {r : Ring} (hr : r.Sound s.par) : (s.setRing q r).Inv := by
  cases q
  · exact { h with rxq := hr.wf, rxViews := hr.views }
  · exact { h with txq := hr.wf, txViews := hr.views }

/-- A role moves only while the background runs (R211). -/
theorem setConn (h : s.Inv) (hb : s.bgRunning = true) (role : Role) (c : RoleState) : (s.setConn role c).Inv := by
  have hrun : ¬ s.bgRunning = false := by simp [hb]
  cases role
  · exact { h with stopped := fun e => absurd e hrun }
  · exact { h with stopped := fun e => absurd e hrun }

/-- The result port is no part of the invariant. -/
theorem ret (h : s.Inv) (r : Result) : (s.ret r).Inv := { h with }

theorem done (h : s.Inv) : s.done.Inv := h.ret _

/-- Neither the schedule nor the inputs are part of the invariant. -/
theorem take (h : s.Inv) (iss : Issue) (rest : List Issue) : (s.take iss rest).Inv := { h with }

theorem setMidOut (h : s.Inv) (o : List Result) : { s with midOut := o }.Inv := { h with }

theorem setRegs (h : s.Inv) {x : Regs} (hx : Regs.Within s.par x) : { s with x := x }.Inv := { h with regs := hx }

theorem acknowledged (h : s.Inv) : (acknowledge s).Inv := { h with regs := { h.regs with status := .inl rfl } }

theorem afterReset (h : s.Inv) (rh rp : List Byte) : (resetState rh rp false s).Inv where
  par := h.par
  regs := h.par.regReset
  ram := h.ram
  rxq := (Ring.clear_sound (h.ring_sound .rxq)).wf
  txq := (Ring.clear_sound (h.ring_sound .txq)).wf
  rxViews := (Ring.clear_sound (h.ring_sound .rxq)).views
  txViews := (Ring.clear_sound (h.ring_sound .txq)).views
  txBlock := Nat.zero_le _
  txDelay := Nat.zero_le _
  rxDelay := Nat.zero_le _
  irqHold := Nat.zero_le _
  forward := rfl
  stopped := fun _ => ⟨rfl, rfl⟩

/-- An outcome's next state has the invariant once it is known which state it is. -/
theorem of_next {u : State} (hu : u.Inv) (h : (.next u : Host.Outcome State Fault Refusal) = .next t) : t.Inv := by
  cases h
  exact hu

end State.Inv

/-- Settles O47: the reset state holds default parameters, zero registers and counters, and empty memories and rings. -/
theorem resetStateHasTheInvariant : Obligations.ResetStateHasTheInvariant :=
  have hq : Ring.empty.Sound Params.default := Ring.empty_sound (by decide)
  { par := Params.default_legal
    regs := Regs.zero_within _
    ram := State.reset_memories_wf.1
    rxq := hq.wf
    txq := hq.wf
    rxViews := hq.views
    txViews := hq.views
    txBlock := Nat.zero_le _
    txDelay := Nat.zero_le _
    rxDelay := Nat.zero_le _
    irqHold := Nat.zero_le _
    forward := rfl
    stopped := fun _ => ⟨rfl, rfl⟩ }

/-! ### Ring and transport operations -/

theorem rbWrite_inv (h : s.Inv) (q : RingId) (lag : Nat) (bytes : List Byte) : (rbWrite q lag bytes s).1.Inv :=
  h.setRing (Ring.write_sound (lag := lag) (h.ring_sound q) bytes)

theorem rbRead_inv (h : s.Inv) (q : RingId) (lag len : Nat) : (rbRead q lag len s).1.Inv :=
  h.setRing (Ring.read_sound (lag := lag) (h.ring_sound q) len)

theorem rbPeek_inv (h : s.Inv) (q : RingId) (lag len : Nat) : (rbPeek q lag len s).1.Inv :=
  h.setRing (Ring.peek_sound (lag := lag) (h.ring_sound q) len)

theorem rbUsed_inv (h : s.Inv) (q : RingId) (lag : Nat) (side : Side) : (rbUsed q lag side s).1.Inv :=
  h.setRing (Ring.refresh_sound (lag := lag) (h.ring_sound q) side)

theorem rbFree_inv (h : s.Inv) (q : RingId) (lag : Nat) (side : Side) : (rbFree q lag side s).1.Inv :=
  h.setRing (Ring.refresh_sound (lag := lag) (h.ring_sound q) side)

theorem rbClear_inv (h : s.Inv) (q : RingId) : (rbClear q s).Inv :=
  h.setRing (Ring.clear_sound (h.ring_sound q))

theorem rbConsume_inv (h : s.Inv) {q : RingId} {lag n : Nat} {p : State × Result}
    (hc : rbConsume q lag n s = some p) : p.1.Inv := by
  obtain ⟨r, hr, rfl⟩ := rbConsume_some hc
  exact h.setRing (Ring.consume_sound (h.ring_sound q) hr)

theorem ltReceive_inv (h : s.Inv) (lag size : Nat) : (ltReceive lag size s).1.Inv := by
  have hq := h.ring_sound .rxq
  rcases ltReceive_cases lag size s with ⟨-, e⟩ | ⟨-, -, e⟩ | ⟨-, hl, e⟩ <;> rw [e]
  · exact h
  · exact h.setRing (q := .rxq) (Ring.refresh_sound hq .reader)
  · exact h.setRing (q := .rxq) (Ring.advanced_sound hq hl)

theorem ltSend_inv (h : s.Inv) (lag : Nat) (bytes : List Byte) : (ltSend lag bytes s).1.Inv := by
  have hq := h.ring_sound .txq
  rcases ltSend_cases lag bytes s with ⟨-, e⟩ | ⟨-, -, e⟩ | ⟨-, hl, e⟩ <;> rw [e]
  · exact h
  · exact h.setRing (q := .txq) (Ring.refresh_sound hq .writer)
  · exact { h.setRing (q := .txq) (Ring.written_sound hq hl) with }

/-! ### The tick (R181) -/

/-- Steps 1 to 5: MODE is kept or forced to `0x000f`, TXSIZE kept or cleared, the counters count down, the hold counter
counts down or is loaded with 4. -/
theorem tickCounters_inv (h : s.Inv) : (tickCounters s).Inv := by
  have hmode : (if policyNow s then 0x000f else s.x.mode : Word).toNat ≤ 0x000f := by
    split
    · decide
    · exact h.regs.mode
  have hsize : (if s.txDelay = 1 then 0 else s.x.txSize : Word).toNat ≤ 0x00ff := by
    split
    · decide
    · exact h.regs.txSize
  have hhold : (if latchAfterPolicy s = latchAfterHold s then s.irqHold - 1 else 4) ≤ 4 := by
    have := h.irqHold
    split <;> omega
  rw [tickCounters_eq]
  exact { h with
    regs := { h.regs with mode := hmode, txSize := hsize }
    txBlock := toNat_countDown_le h.txBlock
    txDelay := toNat_countDown_le h.txDelay
    rxDelay := toNat_countDown_le h.rxDelay
    irqHold := hhold }

theorem tickTransmit_inv (h : s.Inv) : (tickTransmit s).Inv := by
  have hq := h.ring_sound .txq
  rcases tickTransmit_cases s with ⟨-, e⟩ | ⟨-, -, e⟩ | ⟨-, -, -, e⟩ | ⟨-, -, hl, e⟩ <;> rw [e]
  · exact h
  · exact h
  · exact h.setRing (q := .txq) (Ring.refresh_sound hq .writer)
  · exact { h.setRing (q := .txq) (Ring.written_sound hq hl) with txDelay := delayOf_le h.regs.txSize }

/-- Unpacking a frame keeps the invariant: the RAM is written at receive addresses alone, the registers are masked (R193). -/
theorem unpackFrame_inv (h : s.Inv) (f : List Byte) : (unpackFrame f s).Inv := by
  have hstatus : (if unpackSync f (frameCount f) then s.x.status ||| syncMask s.par else s.x.status) = 0 ∨
      (if unpackSync f (frameCount f) then s.x.status ||| syncMask s.par else s.x.status) = syncMask s.par := by
    split
    · exact .inr h.regs.status_or_syncMask
    · exact h.regs.status
  have hoff : ((s.x.rxOffset + BitVec.ofNat 16 (frameCount f)) &&& 0x0fff).toNat ≤ 0x1fff :=
    (toNat_and_le _ 0x0fff).trans (by decide)
  exact { h with
    regs := { h.regs with status := hstatus, rxSize := toNat_and_le _ 0x00ff, rxOffset := hoff }
    ram := unpackRam_wf f _ _ h.ram
    rxDelay := delayOf_le (Nat.le_of_lt_succ (frameCount_lt f)) }

theorem tickReceive_inv (h : s.Inv) : (tickReceive s).Inv := by
  have hq := h.ring_sound .rxq
  rcases tickReceive_cases s with ⟨-, e⟩ | ⟨-, -, e⟩ | ⟨-, -, -, e⟩ | ⟨-, -, hl, e⟩ <;> rw [e]
  · exact h
  · exact h
  · exact h.setRing (q := .rxq) (Ring.refresh_sound hq .reader)
  · exact unpackFrame_inv (h.setRing (q := .rxq) (Ring.advanced_sound hq hl)) _

/-- A background operation inside a tick, while the background runs. -/
theorem runBgOp_inv (h : s.Inv) (hb : s.bgRunning = true) {m : MidOp} {p : State × Result}
    (hm : runBgOp m s = .ok p) : p.1.Inv := by
  obtain ⟨op, lag⟩ := m
  cases op <;> simp only [runBgOp] at hm
  case consume n =>
    split at hm
    · next hc => cases hm; exact rbConsume_inv h hc
    · cases hm
  all_goals cases hm
  case write bytes => exact rbWrite_inv h .rxq lag bytes
  case read len => exact rbRead_inv h .txq lag len
  case peek len => exact rbPeek_inv h .txq lag len
  case used q => exact rbUsed_inv h q lag (bgSide q)
  case free q => exact rbFree_inv h q lag (bgSide q)
  case clear q => exact rbClear_inv h q
  case envConn role c => exact h.setConn hb role c

theorem runMid_inv {l : List MidOp} (h : s.Inv) (hl : runMid l s = .ok t) : t.Inv := by
  induction l generalizing s with
  | nil => cases hl; exact h
  | cons m rest ih =>
    unfold runMid at hl
    split at hl
    · next hb =>
      split at hl
      · next hm => exact ih ((runBgOp_inv h hb hm).setMidOut _) hl
      · cases hl
    · cases hl

theorem execTick_inv (h : s.Inv) (ht : execTick s = .next t) : t.Inv := by
  obtain ⟨u, hu, rfl⟩ := execTick_next ht
  have hbefore : (tickBefore { s with midOut := [] }).Inv := tickTransmit_inv (tickCounters_inv (h.setMidOut []))
  exact (tickReceive_inv (runMid_inv hbefore hu)).done

/-! ### All operations -/

/-- An operation the background may issue only while it runs keeps the invariant. -/
theorem exec_inv {i : Instr} (h : s.Inv) (hb : owner i = .bg → s.bgRunning = true) (he : exec i s = .next t) : t.Inv := by
  cases i with
  | rdStatus | rdMode | rdControl | rdStart | rdRxSize | rdTxSize | rdRxOffset | rdTxOffset | rdRam =>
    exact (h.ret _).of_next he
  | wrStatus m d => exact h.acknowledged.done.of_next he
  | wrMode m d => exact (h.setRegs (h.regs.setMode d)).done.of_next he
  | wrControl m d => exact (h.setRegs (h.regs.setControl d)).done.of_next he
  | wrStart m d => exact (h.setRegs (h.regs.setStart d)).done.of_next he
  | wrRxSize m d => exact (h.setRegs (h.regs.setRxSize d)).done.of_next he
  | wrRxOffset m d => exact (h.setRegs (h.regs.setRxOffset d)).done.of_next he
  | wrTxOffset m d => exact (h.setRegs (h.regs.setTxOffset d)).done.of_next he
  | wrTxSize m d =>
    have hx : ({ s with x := { s.x with txSize := maskSize d }, txBlock := delayOf (maskSize d).toNat } : State).Inv :=
      { h with regs := h.regs.setTxSize d, txBlock := delayOf_le (toNat_and_le d 0x00ff) }
    exact hx.done.of_next he
  | wrRam addr d =>
    have hr : ({ s with ram := Memory.write s.ram addr.toNat (ramData d) } : State).Inv :=
      { h with ram := Memory.write_wf h.ram addr.isLt _ }
    exact hr.done.of_next he
  | tick => exact execTick_inv h he
  | reset lh lp rh rp fwd =>
    obtain ⟨rfl, rfl⟩ := execReset_next he
    exact (h.afterReset rh rp).done
  | stop =>
    have hs : ({ s with rxConn := .idle, txConn := .idle, bgRunning := false } : State).Inv :=
      { h with stopped := fun _ => ⟨rfl, rfl⟩ }
    exact hs.done.of_next he
  | rbWrite q bytes => exact ((rbWrite_inv h q _ bytes).ret _).of_next he
  | rbRead q len => exact ((rbRead_inv h q _ len).ret _).of_next he
  | rbPeek q len => exact ((rbPeek_inv h q _ len).ret _).of_next he
  | rbConsume q n =>
    obtain ⟨p, hp, rfl⟩ := execRbConsume_next he
    exact (rbConsume_inv h hp).ret _
  | rbUsed q side => exact ((rbUsed_inv h q _ side).ret _).of_next he
  | rbFree q side => exact ((rbFree_inv h q _ side).ret _).of_next he
  | rbClear q => exact ((rbClear_inv h q).ret _).of_next he
  | ltConnected => exact (h.ret _).of_next he
  | ltReceive size => exact ((ltReceive_inv h _ size).ret _).of_next he
  | ltSend bytes => exact ((ltSend_inv h _ bytes).ret _).of_next he
  | envConn role c => exact (h.setConn (hb rfl) role c).done.of_next he

/-- Settles O46: a step stands still or performs an admitted issue, and every operation admitted keeps the invariant. -/
theorem stepKeepsTheInvariant : Obligations.StepKeepsTheInvariant := by
  intro s t hinv h
  rcases step_next_cases h with ⟨-, rfl⟩ | ⟨iss, rest, i, -, ha, he⟩
  · exact hinv
  · obtain ⟨-, ho, hb⟩ := admitted_ok_iff.mp ha
    exact exec_inv (hinv.take iss rest) (fun e => hb (ho.trans e)) he

end Sys2Proof.Machine

/-!
PROOFS. Who writes the parameters, CONTROL, START and TXOFFSET (R8, R23, R24, R28, R29).
-/
namespace Sys2Proof.Machine

variable {s t u : State}

/-- Neither the parameters nor a register that only the host writes differ. -/
structure HostOnlyKept (s t : State) : Prop where
  par      : t.par = s.par
  control  : t.x.control = s.x.control
  start    : t.x.start = s.x.start
  txOffset : t.x.txOffset = s.x.txOffset

namespace HostOnlyKept

theorem trans (h : HostOnlyKept s t) (h' : HostOnlyKept t u) : HostOnlyKept s u :=
  ⟨h'.par.trans h.par, h'.control.trans h.control, h'.start.trans h.start, h'.txOffset.trans h.txOffset⟩

theorem ret (r : Result) (s : State) : HostOnlyKept s (s.ret r) := ⟨rfl, rfl, rfl, rfl⟩

theorem setRing (q : RingId) (r : Ring) (s : State) : HostOnlyKept s (s.setRing q r) := by
  cases q <;> exact ⟨rfl, rfl, rfl, rfl⟩

theorem setConn (role : Role) (c : RoleState) (s : State) : HostOnlyKept s (s.setConn role c) := by
  cases role <;> exact ⟨rfl, rfl, rfl, rfl⟩

end HostOnlyKept

theorem ltReceive_hostOnlyKept (lag size : Nat) (s : State) : HostOnlyKept s (ltReceive lag size s).1 := by
  rcases ltReceive_cases lag size s with ⟨-, e⟩ | ⟨-, -, e⟩ | ⟨-, -, e⟩ <;> rw [e] <;> exact ⟨rfl, rfl, rfl, rfl⟩

theorem ltSend_hostOnlyKept (lag : Nat) (bytes : List Byte) (s : State) : HostOnlyKept s (ltSend lag bytes s).1 := by
  rcases ltSend_cases lag bytes s with ⟨-, e⟩ | ⟨-, -, e⟩ | ⟨-, -, e⟩ <;> rw [e] <;> exact ⟨rfl, rfl, rfl, rfl⟩

theorem rbConsume_hostOnlyKept {q : RingId} {lag n : Nat} {p : State × Result} (h : rbConsume q lag n s = some p) :
    HostOnlyKept s p.1 := by
  obtain ⟨r, -, rfl⟩ := rbConsume_some h
  exact .setRing q r.1 s

theorem tickCounters_hostOnlyKept (s : State) : HostOnlyKept s (tickCounters s) := by
  rw [tickCounters_eq]
  exact ⟨rfl, rfl, rfl, rfl⟩

theorem tickTransmit_hostOnlyKept (s : State) : HostOnlyKept s (tickTransmit s) := by
  obtain ⟨_, _, _, e⟩ := tickTransmit_frame s
  rw [e]
  exact ⟨rfl, rfl, rfl, rfl⟩

theorem runMid_hostOnlyKept {l : List MidOp} (h : runMid l s = .ok t) : HostOnlyKept s t := by
  obtain ⟨_, _, _, _, _, rfl⟩ := runMid_frame h
  exact ⟨rfl, rfl, rfl, rfl⟩

theorem tickReceive_hostOnlyKept (s : State) : HostOnlyKept s (tickReceive s) := by
  obtain ⟨_, _, _, _, _, _, e⟩ := tickReceive_frame s
  rw [e]
  exact ⟨rfl, rfl, rfl, rfl⟩

/-- A tick writes other registers only: MODE and TXSIZE before the background operations inside it, STATUS, RXSIZE and
RXOFFSET after them. -/
theorem execTick_hostOnlyKept (h : execTick s = .next t) : HostOnlyKept s t := by
  obtain ⟨v, hv, rfl⟩ := execTick_next h
  have hstart : HostOnlyKept s { s with midOut := [] } := ⟨rfl, rfl, rfl, rfl⟩
  have hbefore : HostOnlyKept s (tickBefore { s with midOut := [] }) :=
    (hstart.trans (tickCounters_hostOnlyKept _)).trans (tickTransmit_hostOnlyKept _)
  exact ((hbefore.trans (runMid_hostOnlyKept hv)).trans (tickReceive_hostOnlyKept v)).trans (.ret _ _)

/-- An operation keeps all of them, or is the host's write of one register, or a `RESET`. -/
theorem exec_hostOnly_cases {i : Instr} (h : exec i s = .next t) :
    HostOnlyKept s t ∨
    (∃ m d, i = .wrControl m d ∧ t = { s with x := { s.x with control := maskControl d } }.done) ∨
    (∃ m d, i = .wrStart m d ∧ t = { s with x := { s.x with start := maskStart d } }.done) ∨
    (∃ m d, i = .wrTxOffset m d ∧ t = { s with x := { s.x with txOffset := maskOffset d } }.done) ∨
    ∃ lh lp rh rp, i = .reset lh lp rh rp false ∧ t = (resetState rh rp false s).done := by
  cases i with
  | wrControl m d => cases h; exact .inr (.inl ⟨m, d, rfl, rfl⟩)
  | wrStart m d => cases h; exact .inr (.inr (.inl ⟨m, d, rfl, rfl⟩))
  | wrTxOffset m d => cases h; exact .inr (.inr (.inr (.inl ⟨m, d, rfl, rfl⟩)))
  | reset lh lp rh rp fwd =>
    obtain ⟨rfl, rfl⟩ := execReset_next h
    exact .inr (.inr (.inr (.inr ⟨lh, lp, rh, rp, rfl, rfl⟩)))
  | rdStatus | rdMode | rdControl | rdStart | rdRxSize | rdTxSize | rdRxOffset | rdTxOffset | rdRam | wrStatus | wrMode
  | wrRxSize | wrTxSize | wrRxOffset | wrRam | stop | ltConnected =>
    cases h
    exact .inl ⟨rfl, rfl, rfl, rfl⟩
  | tick => exact .inl (execTick_hostOnlyKept h)
  | rbWrite q | rbRead q | rbPeek q | rbUsed q | rbFree q | rbClear q =>
    cases h
    exact .inl ((HostOnlyKept.setRing q _ s).trans (.ret _ _))
  | rbConsume q n =>
    obtain ⟨p, hp, rfl⟩ := execRbConsume_next h
    exact .inl ((rbConsume_hostOnlyKept hp).trans (.ret _ _))
  | ltReceive size => cases h; exact .inl ((ltReceive_hostOnlyKept _ size s).trans (.ret _ _))
  | ltSend bytes => cases h; exact .inl ((ltSend_hostOnlyKept _ bytes s).trans (.ret _ _))
  | envConn role c => cases h; exact .inl ((HostOnlyKept.setConn role c s).trans (.ret _ _))

/-- Settles O43: in each case of `exec_hostOnly_cases` the parameters stay, and a register that changed is the one
written. -/
theorem writersOfHostOnlyRegisters : Obligations.WritersOfHostOnlyRegisters := by
  intro i s t h
  rcases exec_hostOnly_cases h with hk | ⟨m, d, rfl, rfl⟩ | ⟨m, d, rfl, rfl⟩ | ⟨m, d, rfl, rfl⟩ |
    ⟨lh, lp, rh, rp, rfl, rfl⟩
  · exact ⟨hk.par, fun hc => absurd hk.control hc, fun hc => absurd hk.start hc, fun hc => absurd hk.txOffset hc⟩
  · exact ⟨rfl, fun _ => .inl ⟨m, d, rfl⟩, fun hc => absurd rfl hc, fun hc => absurd rfl hc⟩
  · exact ⟨rfl, fun hc => absurd rfl hc, fun _ => .inl ⟨m, d, rfl⟩, fun hc => absurd rfl hc⟩
  · exact ⟨rfl, fun hc => absurd rfl hc, fun hc => absurd rfl hc, fun _ => .inl ⟨m, d, rfl⟩⟩
  · have hr : ∃ lh' lp' rh' rp' f, Instr.reset lh lp rh rp false = .reset lh' lp' rh' rp' f := ⟨_, _, _, _, _, rfl⟩
    exact ⟨rfl, fun _ => .inr hr, fun _ => .inr hr, fun _ => .inr hr⟩

end Sys2Proof.Machine

/-!
PROOFS. What a STATUS read returns, bit by bit (R21, R151), what one side of a ring counts (R125, R126, R128), and the
state a `RESET` leaves (R41, R210).
-/
namespace Sys2Proof

open Sys2Proof.Machine

/-! ### STATUS -/

theorem Machine.getLsbD_syncMask (p : Params) (k : Nat) : (syncMask p).getLsbD k = decide (p.syncBit.val = k) := by
  have hb := p.syncBit.isLt
  have hlt : p.syncBit.val < 16 := by omega
  rw [syncMask, ← BitVec.twoPow_eq, BitVec.getLsbD_twoPow, decide_eq_true hlt, Bool.true_and]

/-- STATUS stores nothing but the sync bit (R21). -/
theorem Regs.Within.getLsbD_status {p : Params} {x : Regs} (h : Regs.Within p x) {k : Nat} (hk : k ≠ p.syncBit.val) :
    x.status.getLsbD k = false := by
  rcases h.status with e | e <;> rw [e]
  · exact BitVec.getLsbD_zero
  · rw [getLsbD_syncMask, decide_eq_false hk.symm]

namespace Machine

/-- The two computed bits lie over the stored ones (R151). -/
theorem getLsbD_statusValue (x : Regs) (k : Nat) : (statusValue x).getLsbD k =
    (x.status.getLsbD k || (txDone x && decide (2 = k)) || (rxDone x && decide (3 = k))) := by
  have h2 : (0x0004#16).getLsbD k = decide (2 = k) := BitVec.getLsbD_twoPow 2 k
  have h3 : (0x0008#16).getLsbD k = decide (3 = k) := BitVec.getLsbD_twoPow 3 k
  unfold statusValue
  cases txDone x <;> cases rxDone x <;> simp [h2, h3]

/-- Settles O2: the stored bits other than the sync bit are 0, and the sync bit, bit 0 or 1, is neither computed bit. -/
theorem statusReadBitByBit : Obligations.StatusReadBitByBit := by
  intro m s hs
  have hb : s.par.syncBit.val < 2 := s.par.syncBit.isLt
  refine ⟨statusValue s.x, rfl, ?_, ?_, ?_, fun k h2 h3 hk => ?_⟩ <;> rw [getLsbD_statusValue]
  · rw [hs.regs.getLsbD_status (by omega)]
    simp [txDone, Bool.beq_eq_decide_eq]
  · rw [hs.regs.getLsbD_status (by omega)]
    simp [rxDone, Bool.beq_eq_decide_eq]
  · have h2 : 2 ≠ s.par.syncBit.val := by omega
    have h3 : 3 ≠ s.par.syncBit.val := by omega
    simp [h2, h3]
  · rw [hs.regs.getLsbD_status hk]
    simp [h2.symm, h3.symm]

/-! ### Counts -/

/-- Under `sc` a refreshed side counts exactly what waits in the ring (R31). -/
theorem Ring.usedBy_refresh_sc (n lag : Nat) (side : Side) (q : Ring) :
    usedBy n side (q.refresh n .sc lag side) = used n q := by
  cases side <;> rfl

/-- What a side counts as used and as free fills the ring but for one byte (R126). -/
theorem Ring.usedBy_add_freeBy {n : Nat} {q : Ring} (h : q.wf n = true) (side : Side) :
    usedBy n side q + freeBy n side q = n - 1 := by
  have := usedBy_lt h side
  unfold freeBy
  omega

/-- Settles O16: both operations leave the refreshed ring, and the bounds of its view are those of R128. -/
theorem ringCountsAddUp : Obligations.RingCountsAddUp := by
  intro q side s hs
  have hq := (hs.ring_sound q).wf
  have hr := Ring.refresh_wf (v := s.par.ringView) (lag := s.lag side) (side := side) hq
  refine ⟨(s.ring q).refresh s.par.ringN s.par.ringView (s.lag side) side, _, _, exec_rbUsed q side s,
    exec_rbFree q side s, Ring.usedBy_add_freeBy hr side, ?_, ?_, fun hsc => ?_⟩
  · rintro rfl
    exact ⟨rfl, rfl, Ring.usedBy_reader_refresh hq, by simpa using Ring.usedBy_reader_le hr⟩
  · rintro rfl
    exact ⟨rfl, rfl, by simpa using Ring.used_le_usedBy_writer hr, Ring.usedBy_writer_refresh hq⟩
  · rw [hsc, Ring.usedBy_refresh_sc]

/-! ### `RESET` -/

/-- The four strings are ASCII exactly when all their bytes are below 0x80 (R212). -/
theorem isAscii_strings_iff {lh lp rh rp : List Byte} :
    (isAscii lh && isAscii lp && isAscii rh && isAscii rp) = true ↔ ∀ b ∈ lh ++ lp ++ rh ++ rp, b.toNat < 128 := by
  simp only [isAscii, ← List.all_append, List.all_eq_true, decide_eq_true_eq]

/-- A `RESET` that is not refused (R210). -/
theorem execReset_of_ascii {lh lp rh rp : List Byte} (h : ∀ b ∈ lh ++ lp ++ rh ++ rp, b.toNat < 128) (s : State) :
    execReset lh lp rh rp false s = .next (resetState rh rp false s).done := by
  rw [execReset, if_pos (isAscii_strings_iff.mpr h), if_neg Bool.false_ne_true]

/-- Settles O48: `resetState` writes out the fields of R41 and keeps the others. -/
theorem resetLeavesTheResetState : Obligations.ResetLeavesTheResetState :=
  fun _ _ rh rp s h => ⟨linkIdOf rh rp, s.inp.resolved, execReset_of_ascii h s⟩

end Machine
end Sys2Proof

/-!
PROOFS. What the background's operations leave unchanged (R29, R245): alone they are what `runBgOp` gives inside a tick.
-/
namespace Sys2Proof.Machine

variable {s t : State}

/-! ### Which cursors a ring operation keeps (R131) -/

namespace Ring

variable {n : Nat} (v : RingView) (lag : Nat) (q : Ring)

theorem write_r (bytes : List Byte) : (q.write n v lag bytes).1.r = q.r := by
  rcases write_cases (n := n) v lag bytes q with ⟨-, e⟩ | ⟨-, e⟩ <;> rw [e] <;> rfl

theorem read_w (len : Nat) : (q.read n v lag len).1.w = q.w := by
  rcases read_cases (n := n) v lag len q with ⟨-, e⟩ | ⟨-, e⟩ <;> rw [e] <;> rfl

theorem peek_w (len : Nat) : (q.peek n v lag len).1.w = q.w := by
  rcases peek_cases (n := n) v lag len q with ⟨-, e⟩ | ⟨-, e⟩ <;> rw [e] <;> rfl

theorem consume_w {k : Nat} {p : Ring × Result} (h : q.consume n v lag k = some p) : p.1.w = q.w := by
  rcases consume_cases (n := n) v lag k q with ⟨-, e⟩ | ⟨-, e⟩ <;> rw [e] at h <;> cases h
  rfl

end Ring

/-- A background operation moves the cursors of the background's own sides only, or it is a clear (R120, R245). -/
theorem runBgOp_foreground_cursors {m : MidOp} {p : State × Result} (h : runBgOp m s = .ok p)
    (hc : ∀ q, m.op ≠ .clear q) : p.1.rxq.r = s.rxq.r ∧ p.1.txq.w = s.txq.w := by
  obtain ⟨op, lag⟩ := m
  cases op <;> simp only [runBgOp] at h
  case clear q => exact absurd rfl (hc q)
  case consume n =>
    split at h
    · next p' hp =>
      cases h
      obtain ⟨r, hr, rfl⟩ := rbConsume_some hp
      exact ⟨rfl, Ring.consume_w _ _ _ hr⟩
    · cases h
  all_goals cases h
  case write bytes => exact ⟨Ring.write_r _ _ _ bytes, rfl⟩
  case read len => exact ⟨rfl, Ring.read_w _ _ _ len⟩
  case peek len => exact ⟨rfl, Ring.peek_w _ _ _ len⟩
  case used q => cases q <;> exact ⟨rfl, rfl⟩
  case free q => cases q <;> exact ⟨rfl, rfl⟩
  case envConn role c => cases role <;> exact ⟨rfl, rfl⟩

/-! ### The operations of the background, issued alone -/

/-- What the background owns is the operations it may also issue inside a tick (R245). -/
theorem exists_bgOp_of_owner {i : Instr} (h : owner i = .bg) : ∃ b : BgOp, i = b.instr := by
  cases i with
  | rbWrite q bytes => cases q <;> cases h; exact ⟨.write bytes, rfl⟩
  | rbRead q len => cases q <;> cases h; exact ⟨.read len, rfl⟩
  | rbPeek q len => cases q <;> cases h; exact ⟨.peek len, rfl⟩
  | rbConsume q n => cases q <;> cases h; exact ⟨.consume n, rfl⟩
  | rbUsed q side => cases q <;> cases side <;> cases h <;> exact ⟨.used _, rfl⟩
  | rbFree q side => cases q <;> cases side <;> cases h <;> exact ⟨.free _, rfl⟩
  | rbClear q => exact ⟨.clear q, rfl⟩
  | envConn role c => exact ⟨.envConn role c, rfl⟩
  | _ => cases h

/-- A background operation issued alone does what it does inside a tick, under the view choice of its side, and answers
its result. -/
theorem exec_bgOp_next {b : BgOp} (h : exec b.instr s = .next t) :
    ∃ lag p, runBgOp ⟨b, lag⟩ s = .ok p ∧ t = p.1.ret p.2 := by
  cases b with
  | consume n =>
    obtain ⟨p, hp, rfl⟩ := execRbConsume_next h
    exact ⟨s.lag .reader, p, by simp only [runBgOp, hp], rfl⟩
  | write bytes => cases h; exact ⟨s.lag .writer, _, rfl, rfl⟩
  | read len => cases h; exact ⟨s.lag .reader, _, rfl, rfl⟩
  | peek len => cases h; exact ⟨s.lag .reader, _, rfl, rfl⟩
  | used q => cases h; exact ⟨s.lag (bgSide q), _, rfl, rfl⟩
  | free q => cases h; exact ⟨s.lag (bgSide q), _, rfl, rfl⟩
  | clear q => cases h; exact ⟨0, _, rfl, rfl⟩
  | envConn role c => cases h; exact ⟨0, _, rfl, rfl⟩

/-- Settles O42: the operation writes rings and roles alone (`runBgOp_frame`), and of the cursors only the background's
own (`runBgOp_foreground_cursors`). -/
theorem backgroundLeavesForegroundState : Obligations.BackgroundLeavesForegroundState := by
  intro i s t ho h
  obtain ⟨b, rfl⟩ := exists_bgOp_of_owner ho
  obtain ⟨lag, ⟨u, res⟩, hb, rfl⟩ := exec_bgOp_next h
  have hcursor := runBgOp_foreground_cursors hb
  obtain ⟨_, _, _, _, rfl⟩ := runBgOp_frame hb
  refine ⟨rfl, rfl, rfl, rfl, rfl, rfl, rfl, rfl, rfl, rfl, rfl, rfl, fun q hq => ?_⟩
  obtain ⟨hr, hw⟩ := hcursor fun q' (e : b = .clear q') => hq q' (e ▸ rfl)
  exact ⟨fun e => e ▸ hr, fun e => e ▸ hw⟩

end Sys2Proof.Machine

/-!
PROOFS. What START and stored bit 12 of RXOFFSET can affect (R24, R27). `State.vary` gives both registers other values; an
operation that neither returns nor overwrites START takes the varied state to a varied next state, where RXOFFSET is kept
on both sides or written alike.
-/
namespace Sys2Proof.Machine

variable {s t : State} {v w : Word}

/-! ### RXOFFSET words that agree outside bit 12 -/

/-- The value a read of RXOFFSET returns does not depend on stored bit 12 (R157). -/
theorem or_0x1000_congr {a b : Word} (h : a &&& 0xefff = b &&& 0xefff) : a ||| 0x1000 = b ||| 0x1000 := by
  have absorb : ∀ c : Word, c ||| 0x1000 = (c &&& 0xefff) ||| 0x1000 := by
    intro c
    have hbit : ∀ k, (0x1000 : Word).getLsbD k = decide (12 = k) := BitVec.getLsbD_twoPow 12
    have hmask : (0xefff : Word) = ~~~0x1000 := rfl
    apply BitVec.eq_of_getLsbD_eq
    intro k hk
    rw [BitVec.getLsbD_or, BitVec.getLsbD_or, BitVec.getLsbD_and, hmask, BitVec.getLsbD_not, hbit, decide_eq_true hk]
    cases c.getLsbD k <;> cases decide (12 = k) <;> rfl
  rw [absorb a, absorb b, h]

theorem toNat_and_0x0fff (c : Word) : (c &&& 0x0fff).toNat = c.toNat % 0x1000 :=
  (BitVec.toNat_and c 0x0fff).trans (Nat.and_two_pow_sub_one_eq_mod c.toNat 12)

theorem toNat_mod_0x1000_congr {a b : Word} (h : a &&& 0xefff = b &&& 0xefff) :
    a.toNat % 0x1000 = b.toNat % 0x1000 := by
  have narrow : ∀ c : Word, c &&& 0x0fff = c &&& 0xefff &&& 0x0fff := fun c => (BitVec.and_assoc c 0xefff 0x0fff).symm
  rw [← toNat_and_0x0fff, ← toNat_and_0x0fff, narrow a, narrow b, h]

/-- Receive addresses do not depend on stored bit 12 (R63). -/
theorem rxAddr_congr {a b : Word} (h : a &&& 0xefff = b &&& 0xefff) : rxAddr a = rxAddr b := by
  have hm := toNat_mod_0x1000_congr h
  funext i
  unfold rxAddr
  omega

/-- What a received frame leaves in RXOFFSET does not depend on stored bit 12 (R193). -/
theorem add_and_0x0fff_congr {a b : Word} (h : a &&& 0xefff = b &&& 0xefff) (n : Word) :
    (a + n) &&& 0x0fff = (b + n) &&& 0x0fff := by
  have hm := toNat_mod_0x1000_congr h
  apply BitVec.eq_of_toNat_eq
  rw [toNat_and_0x0fff, toNat_and_0x0fff, BitVec.toNat_add, BitVec.toNat_add]
  omega

/-! ### The varied state -/

/-- The state with other values in START and RXOFFSET. -/
def State.vary (v w : Word) (s : State) : State := { s with x := { s.x with start := v, rxOffset := w } }

@[simp] theorem State.vary_par : (s.vary v w).par = s.par := rfl
@[simp] theorem State.vary_rxq : (s.vary v w).rxq = s.rxq := rfl
@[simp] theorem State.vary_txq : (s.vary v w).txq = s.txq := rfl
@[simp] theorem State.vary_txBlock : (s.vary v w).txBlock = s.txBlock := rfl
@[simp] theorem State.vary_txDelay : (s.vary v w).txDelay = s.txDelay := rfl
@[simp] theorem State.vary_rxDelay : (s.vary v w).rxDelay = s.rxDelay := rfl
@[simp] theorem State.vary_rxConn : (s.vary v w).rxConn = s.rxConn := rfl
@[simp] theorem State.vary_txConn : (s.vary v w).txConn = s.txConn := rfl
@[simp] theorem State.vary_bgRunning : (s.vary v w).bgRunning = s.bgRunning := rfl
@[simp] theorem State.vary_lag : (s.vary v w).lag = s.lag := rfl
@[simp] theorem State.vary_haltFlag : haltFlag (s.vary v w).x = haltFlag s.x := rfl
@[simp] theorem State.vary_txSize : (s.vary v w).x.txSize = s.x.txSize := rfl
@[simp] theorem State.vary_txFrame : txFrame (s.vary v w) = txFrame s := rfl

@[simp] theorem State.vary_ring (q : RingId) : (s.vary v w).ring q = s.ring q := by
  cases q <;> rfl

/-! ### Ring, transport and background operations -/

@[simp] theorem setRing_vary (q : RingId) (r : Ring) : (s.vary v w).setRing q r = (s.setRing q r).vary v w := by
  cases q <;> rfl

theorem rbWrite_vary (q : RingId) (lag : Nat) (bytes : List Byte) :
    rbWrite q lag bytes (s.vary v w) = ((rbWrite q lag bytes s).1.vary v w, (rbWrite q lag bytes s).2) := by
  simp [rbWrite, applyRing]

theorem rbRead_vary (q : RingId) (lag len : Nat) :
    rbRead q lag len (s.vary v w) = ((rbRead q lag len s).1.vary v w, (rbRead q lag len s).2) := by
  simp [rbRead, applyRing]

theorem rbConsume_vary {q : RingId} {lag n : Nat} {p : State × Result} (h : rbConsume q lag n s = some p) :
    rbConsume q lag n (s.vary v w) = some (p.1.vary v w, p.2) := by
  obtain ⟨r, hr, rfl⟩ := rbConsume_some h
  simp [rbConsume, hr, applyRing]

theorem ltReceive_vary (lag size : Nat) :
    ltReceive lag size (s.vary v w) = ((ltReceive lag size s).1.vary v w, (ltReceive lag size s).2) := by
  simp only [ltReceive, rbRead_vary, State.vary_rxConn]
  split_ifs <;> rfl

theorem ltSend_vary (lag : Nat) (bytes : List Byte) :
    ltSend lag bytes (s.vary v w) = ((ltSend lag bytes s).1.vary v w, (ltSend lag bytes s).2) := by
  simp only [ltSend, rbWrite_vary, State.vary_txConn, State.vary_txq, State.vary_par]
  split_ifs <;> rfl

theorem ltReceive_x (lag size : Nat) (s : State) : (ltReceive lag size s).1.x = s.x := by
  rcases ltReceive_cases lag size s with ⟨-, e⟩ | ⟨-, -, e⟩ | ⟨-, -, e⟩ <;> rw [e]

theorem ltSend_x (lag : Nat) (bytes : List Byte) (s : State) : (ltSend lag bytes s).1.x = s.x := by
  rcases ltSend_cases lag bytes s with ⟨-, e⟩ | ⟨-, -, e⟩ | ⟨-, -, e⟩ <;> rw [e]

theorem runBgOp_vary {m : MidOp} {p : State × Result} (h : runBgOp m s = .ok p) :
    runBgOp m (s.vary v w) = .ok (p.1.vary v w, p.2) := by
  obtain ⟨op, lag⟩ := m
  cases op <;> simp only [runBgOp] at h ⊢
  case consume n =>
    split at h
    · next hp => cases h; rw [rbConsume_vary hp]
    · cases h
  all_goals cases h
  case write bytes => rfl
  case read len => rfl
  case peek len => rfl
  case used q => cases q <;> rfl
  case free q => cases q <;> rfl
  case clear q => cases q <;> rfl
  case envConn role c => cases role <;> rfl

theorem runMid_vary {l : List MidOp} (h : runMid l s = .ok t) : runMid l (s.vary v w) = .ok (t.vary v w) := by
  induction l generalizing s with
  | nil => cases h; rfl
  | cons m rest ih =>
    unfold runMid at h ⊢
    split at h
    · next hb =>
      split at h
      · next p hp =>
        rw [State.vary_bgRunning, if_pos hb, runBgOp_vary hp]
        exact ih h
      · cases h
    · cases h

/-! ### The tick -/

theorem tickCounters_vary : tickCounters (s.vary v w) = (tickCounters s).vary v w := by
  rw [tickCounters_eq, tickCounters_eq]
  rfl

theorem transmitPass_vary : transmitPass (s.vary v w) = (transmitPass s).vary v w := by
  simp only [transmitPass, State.vary_haltFlag, State.vary_txSize, State.vary_lag, State.vary_txFrame, ltSend_vary]
  split_ifs <;> rfl

theorem tickTransmit_vary : tickTransmit (s.vary v w) = (tickTransmit s).vary v w := by
  simp only [tickTransmit, State.vary_txBlock, State.vary_txDelay, transmitPass_vary]
  split_ifs <;> rfl

theorem tickBefore_vary : tickBefore (s.vary v w) = (tickBefore s).vary v w := by
  rw [tickBefore_eq, tickBefore_eq, tickCounters_vary, tickTransmit_vary]

/-- One state's RXOFFSET goes from `a` to `a'`, the other's from `b` to `b'`: both are kept, or the same is written to
both. -/
def KeptOrWrittenAlike (a b a' b' : Word) : Prop := (a' = a ∧ b' = b) ∨ b' = a'

namespace KeptOrWrittenAlike

variable {a b a' b' : Word}

theorem right_eq (h : KeptOrWrittenAlike a a a' b') : b' = a' := by
  rcases h with ⟨ha, hb⟩ | e
  · rw [ha, hb]
  · exact e

theorem and_0xefff_eq (h : KeptOrWrittenAlike a b a' b') (hab : b &&& 0xefff = a &&& 0xefff) :
    b' &&& 0xefff = a' &&& 0xefff := by
  rcases h with ⟨ha, hb⟩ | e
  · rw [ha, hb, hab]
  · rw [e]

end KeptOrWrittenAlike

theorem unpackFrame_vary (h : w &&& 0xefff = s.x.rxOffset &&& 0xefff) (f : List Byte) :
    unpackFrame f (s.vary v w) = (unpackFrame f s).vary v (unpackFrame f s).x.rxOffset := by
  have hram : unpackRam f w (frameCount f) s.ram = unpackRam f s.x.rxOffset (frameCount f) s.ram := by
    rw [unpackRam, rxAddr_congr h]
    rfl
  simp only [unpackFrame, State.vary, hram, add_and_0x0fff_congr h]

/-- The varied state receives the same frame; RXOFFSET is written when there is one. -/
theorem receivePass_vary (h : w &&& 0xefff = s.x.rxOffset &&& 0xefff) :
    ∃ w', KeptOrWrittenAlike s.x.rxOffset w (receivePass s).x.rxOffset w' ∧
      receivePass (s.vary v w) = (receivePass s).vary v w' := by
  unfold receivePass
  rw [State.vary_lag, ltReceive_vary]
  have hx := congrArg Regs.rxOffset (ltReceive_x (s.lag .reader) frameBytes s)
  generalize ltReceive (s.lag .reader) frameBytes s = p at hx ⊢
  obtain ⟨u, st, value⟩ := p
  cases value with
  | bytes f =>
    cases f with
    | nil => exact ⟨w, .inl ⟨hx, rfl⟩, rfl⟩
    | cons b f => exact ⟨_, .inr rfl, unpackFrame_vary (by rw [h, ← hx]) _⟩
  | none | word | nat | bool => exact ⟨w, .inl ⟨hx, rfl⟩, rfl⟩

theorem tickReceive_vary (h : w &&& 0xefff = s.x.rxOffset &&& 0xefff) :
    ∃ w', KeptOrWrittenAlike s.x.rxOffset w (tickReceive s).x.rxOffset w' ∧
      tickReceive (s.vary v w) = (tickReceive s).vary v w' := by
  unfold tickReceive
  rw [State.vary_rxDelay]
  by_cases hd : s.rxDelay = 0
  · rw [if_pos hd, if_pos hd]
    exact receivePass_vary h
  · rw [if_neg hd, if_neg hd]
    exact ⟨w, .inl ⟨rfl, rfl⟩, rfl⟩

/-- Nothing before the receive pass writes RXOFFSET. -/
theorem tickBefore_rxOffset (s : State) : (tickBefore s).x.rxOffset = s.x.rxOffset := by
  obtain ⟨_, _, _, e⟩ := tickTransmit_frame (tickCounters s)
  rw [tickBefore_eq, e, tickCounters_eq]

/-- A tick whose background operations are not refused runs (R181, R182). -/
theorem execTick_of_runMid {u : State} (h : runMid s.inp.mid (tickBefore { s with midOut := [] }) = .ok u) :
    execTick s = .next (tickReceive u).done := by
  rw [execTick, h]

theorem execTick_vary (h : w &&& 0xefff = s.x.rxOffset &&& 0xefff) (ht : execTick s = .next t) :
    ∃ w', KeptOrWrittenAlike s.x.rxOffset w t.x.rxOffset w' ∧ execTick (s.vary v w) = .next (t.vary v w') := by
  obtain ⟨u, hu, rfl⟩ := execTick_next ht
  have hoff : u.x.rxOffset = s.x.rxOffset := by
    obtain ⟨_, _, _, _, _, rfl⟩ := runMid_frame hu
    exact tickBefore_rxOffset { s with midOut := [] }
  have hmid : runMid s.inp.mid (tickBefore (State.vary v w { s with midOut := [] })) = .ok (u.vary v w) := by
    rw [tickBefore_vary]
    exact runMid_vary hu
  rw [← hoff] at h ⊢
  obtain ⟨w', hw, e⟩ := tickReceive_vary (v := v) h
  refine ⟨w', hw, (execTick_of_runMid (s := s.vary v w) hmid).trans ?_⟩
  rw [e]
  rfl

/-! ### All operations -/

/-- `RESET` overwrites both registers (R210). -/
theorem execReset_vary (lh lp rh rp : List Byte) (fwd : Bool) :
    execReset lh lp rh rp fwd (s.vary v w) = execReset lh lp rh rp fwd s := rfl

theorem finish_vary {p p' : State × Result} (hp : p' = (p.1.vary v w, p.2)) (hx : p.1.x = s.x)
    (h : finish p = .next t) :
    ∃ w', KeptOrWrittenAlike s.x.rxOffset w t.x.rxOffset w' ∧ finish p' = .next (t.vary v w') := by
  cases h
  exact ⟨w, .inl ⟨congrArg Regs.rxOffset hx, rfl⟩, by rw [hp]; rfl⟩

/-- The operations that return START or overwrite it. -/
def TouchesStart (i : Instr) : Prop :=
  (∃ m, i = .rdStart m) ∨ (∃ m d, i = .wrStart m d) ∨ ∃ lh lp rh rp fwd, i = .reset lh lp rh rp fwd

/-- The varied state answers alike. -/
theorem exec_vary {i : Instr} (v : Word) (hw : w &&& 0xefff = s.x.rxOffset &&& 0xefff) (hi : ¬ TouchesStart i)
    (h : exec i s = .next t) :
    ∃ w', KeptOrWrittenAlike s.x.rxOffset w t.x.rxOffset w' ∧ exec i (s.vary v w) = .next (t.vary v w') := by
  cases i with
  | rdStart m => exact absurd (.inl ⟨m, rfl⟩) hi
  | wrStart m d => exact absurd (.inr (.inl ⟨m, d, rfl⟩)) hi
  | reset lh lp rh rp fwd => exact absurd (.inr (.inr ⟨lh, lp, rh, rp, fwd, rfl⟩)) hi
  | rdRxOffset m =>
    cases h
    refine ⟨w, .inl ⟨rfl, rfl⟩, ?_⟩
    show Host.Outcome.next ((s.vary v w).retWord (w ||| 0x1000)) = _
    rw [or_0x1000_congr hw]
    rfl
  | wrRxOffset m d => cases h; exact ⟨_, .inr rfl, rfl⟩
  | rdStatus | rdMode | rdControl | rdRxSize | rdTxSize | rdTxOffset | rdRam | wrStatus | wrMode | wrControl | wrRxSize
  | wrTxSize | wrTxOffset | wrRam | stop | ltConnected =>
    cases h
    exact ⟨w, .inl ⟨rfl, rfl⟩, rfl⟩
  | tick => exact execTick_vary hw h
  | rbWrite q | rbRead q | rbPeek q | rbUsed q | rbFree q | rbClear q =>
    cases q <;> cases h <;> exact ⟨w, .inl ⟨rfl, rfl⟩, rfl⟩
  | rbConsume q n =>
    obtain ⟨p, hp, rfl⟩ := execRbConsume_next h
    obtain ⟨r, -, hr⟩ := rbConsume_some hp
    refine ⟨w, .inl ⟨?_, rfl⟩, ?_⟩
    · rw [hr]
      exact congrArg Regs.rxOffset (State.setRing_x ..)
    · show execRbConsume q n (s.vary v w) = _
      rw [execRbConsume, State.vary_lag, rbConsume_vary hp]
      rfl
  | ltReceive size => exact finish_vary (ltReceive_vary _ size) (ltReceive_x ..) h
  | ltSend bytes => exact finish_vary (ltSend_vary _ bytes) (ltSend_x ..) h
  | envConn role c => cases role <;> cases h <;> exact ⟨w, .inl ⟨rfl, rfl⟩, rfl⟩

theorem exec_start_kept {i : Instr} (hi : ¬ TouchesStart i) (h : exec i s = .next t) : t.x.start = s.x.start := by
  obtain ⟨-, -, hstart, -⟩ := writersOfHostOnlyRegisters i s t h
  by_contra hne
  exact hi (.inr (hstart hne))

/-- Settles O44: vary START alone; RXOFFSET, the same in both states, stays the same in both. -/
theorem startAffectsNothing : Obligations.StartAffectsNothing := by
  intro i s t v hrd hwr hreset h
  have hi : ¬ TouchesStart i := by
    rintro (⟨m, e⟩ | ⟨m, d, e⟩ | ⟨lh, lp, rh, rp, fwd, e⟩)
    · exact hrd m e
    · exact hwr m d e
    · exact hreset lh lp rh rp fwd e
  obtain ⟨w', hw, e⟩ := exec_vary v rfl hi h
  rw [hw.right_eq] at e
  exact e

/-- Settles O45: vary RXOFFSET alone; reads and writes of START do not touch it, and a `RESET` overwrites it. -/
theorem storedRxOffsetBit12IsUnobservable : Obligations.StoredRxOffsetBit12IsUnobservable := by
  intro i s t v hv h
  by_cases hi : TouchesStart i
  · rcases hi with ⟨m, rfl⟩ | ⟨m, d, rfl⟩ | ⟨lh, lp, rh, rp, fwd, rfl⟩
    · cases h
      exact ⟨v, hv, rfl⟩
    · cases h
      exact ⟨v, hv, rfl⟩
    · exact ⟨t.x.rxOffset, rfl, (execReset_vary lh lp rh rp fwd).trans h⟩
  · obtain ⟨w', hw, e⟩ := exec_vary s.x.start hv hi h
    refine ⟨w', hw.and_0xefff_eq hv, e.trans ?_⟩
    rw [← exec_start_kept hi h]
    rfl

end Sys2Proof.Machine

/-!
PROOFS. RAM accesses (R61, R84, R169, R170).
-/
namespace Sys2Proof.Machine

theorem toNat_ramData (d : Word) : (ramData d).toNat = d.toNat % 512 := BitVec.toNat_setWidth 9 d

theorem toNat_ramValue (v : RamWord) : (ramValue v).toNat = v.toNat :=
  BitVec.toNat_setWidth_of_le (by decide)

/-- Settles O9: the value returned is the 9-bit entry, widened. -/
theorem ramReadReturnsTheEntry : Obligations.RamReadReturnsTheEntry := by
  intro addr s
  have hv := toNat_ramValue (Memory.read s.ram addr.toNat)
  exact ⟨_, rfl, hv, hv.trans_lt (BitVec.isLt _)⟩

/-- Settles O8: a read after a write, of the entry written and of another one. -/
theorem ramWriteStoresNineBits : Obligations.RamWriteStoresNineBits := by
  intro addr d s hs
  refine ⟨Memory.write s.ram addr.toNat (ramData d), rfl, ?_, fun a ha => Memory.read_write_other _ _ ha⟩
  rw [Memory.read_write_same hs.ram, toNat_ramData]

/-- Settles O10: the write (O8), then the read of the entry it left (O9). -/
theorem ramReadAfterWrite : Obligations.RamReadAfterWrite := by
  intro addr d s t hs ht
  obtain ⟨ram, hwrite, hentry, -⟩ := ramWriteStoresNineBits addr d s hs
  obtain ⟨v, hread, hv, -⟩ := ramReadReturnsTheEntry addr t
  rw [hwrite] at ht
  cases ht
  exact ⟨v, hread, hv.trans hentry⟩

end Sys2Proof.Machine

/-!
PROOFS. What a reader side that refreshed its view sees and takes (R122, R128), and `RB_WRITE` (R64, R121).
-/
namespace Sys2Proof.Machine

/-- A refreshed reader side sees no more than there is (R128). -/
theorem Ring.usedBy_reader_refresh_le {n lag : Nat} {v : RingView} {r : Ring} (hr : r.wf n = true) :
    (r.refresh n v lag .reader).usedBy n .reader ≤ r.used n := by
  simpa using usedBy_reader_le (refresh_wf (v := v) (lag := lag) (side := .reader) hr)

/-- A reader that moves over `k` bytes it sees drops the `k` oldest (R122, R124). -/
theorem Ring.advanced_contents {n lag k : Nat} {v : RingView} {r : Ring} (hr : r.wf n = true)
    (hk : k ≤ (r.refresh n v lag .reader).usedBy n .reader) :
    (publishR v ((r.r + k) % n) (r.refresh n v lag .reader)).contents n = (r.contents n).drop k := by
  have hq := refresh_wf (v := v) (lag := lag) (side := .reader) hr
  simpa using advance_contents (v := v) hq (hk.trans (usedBy_reader_le hq))

theorem Ring.write_rv (n : Nat) (v : RingView) (lag : Nat) (bytes : List Byte) (q : Ring) :
    (q.write n v lag bytes).1.rv = (q.refresh n v lag .writer).rv := by
  rcases write_cases (n := n) v lag bytes q with ⟨-, e⟩ | ⟨-, e⟩
  · rw [e]
  · rw [e]
    rfl

/-- Settles O11: the bounds are those of the refreshed view, and the two clauses are the two cases of
`Ring.write_cases`. -/
theorem ringWriteIsAllOrNothing : Obligations.RingWriteIsAllOrNothing := by
  intro q bytes s hs
  have hq := (hs.ring_sound q).wf
  have hr := Ring.refresh_wf (v := s.par.ringView) (lag := s.inp.lagW) (side := .writer) hq
  refine ⟨_, _, exec_rbWrite q bytes s, ?_⟩
  rw [Ring.write_rv]
  refine ⟨Ring.used_le_usedBy_writer hr, Ring.usedBy_writer_refresh hq, fun hsc => by rw [hsc]; rfl, ?_⟩
  have hfree : s.par.ringN - 1 - Ring.dist s.par.ringN
      ((s.ring q).refresh s.par.ringN s.par.ringView s.inp.lagW .writer).rv (s.ring q).w =
      ((s.ring q).refresh s.par.ringN s.par.ringView s.inp.lagW .writer).freeBy s.par.ringN .writer := rfl
  rw [hfree]
  rcases Ring.write_cases (n := s.par.ringN) s.par.ringView s.inp.lagW bytes (s.ring q) with ⟨hl, e⟩ | ⟨hl, e⟩
  · rw [e]
    exact ⟨fun hfit => absurd hfit (Nat.not_le.mpr hl), fun _ => ⟨rfl, rfl⟩⟩
  · rw [e]
    have hlen : bytes.length ≤ s.par.ringN := hl.trans ((Nat.sub_le _ _).trans (Nat.sub_le _ _))
    have hbuf : Memory.wf s.par.ringN (s.ring q).buf = true := (Ring.wf_iff.mp hq).2.2.2.2.2.2
    refine ⟨fun _ => ⟨rfl, rfl, rfl, fun hv => by rw [hv]; rfl, ?_, ?_⟩, fun hover => absurd hl (Nat.not_le.mpr hover)⟩
    · exact Ring.read_putBytes_inside hbuf (s.ring q).w bytes hlen
    · exact Ring.read_putBytes_outside (s.ring q).buf (s.ring q).w bytes

end Sys2Proof.Machine

/-!
PROOFS. The tick as a whole (R62, R181, R182, R195).
-/
namespace Sys2Proof.Machine

variable {s : State}

/-- The notifications of step 2 follow those there were (R40). -/
theorem tickCounters_irqEvents (s : State) : ∃ l, (tickCounters s).irqEvents = s.irqEvents ++ l := by
  have hhold : ∃ l, eventsAfterHold s = s.irqEvents ++ l := by
    unfold eventsAfterHold
    split
    · exact ⟨[false], rfl⟩
    · exact ⟨[], (List.append_nil _).symm⟩
  obtain ⟨l, hl⟩ := hhold
  rw [tickCounters_eq]
  dsimp only
  split
  · exact ⟨l, hl⟩
  · exact ⟨l ++ [policyNow s], by rw [hl, List.append_assoc]⟩

/-- The fields steps 1 to 6 can write. -/
theorem tickBefore_frame (s : State) : ∃ (latch : Bool) (hold k : Nat) (events : List Bool) (mode size block delay : Word)
    (q : Ring), tickBefore s = { s with
      irqLatch := latch, irqHold := hold, irqEvents := s.irqEvents ++ events
      x := { s.x with mode := mode, txSize := size }
      txBlock := block, txDelay := delay, rxDelay := if s.rxDelay = 0 then 0 else s.rxDelay - 1
      txq := q, drainKicks := s.drainKicks + k } := by
  obtain ⟨q, k, delay, e⟩ := tickTransmit_frame (tickCounters s)
  obtain ⟨events, hevents⟩ := tickCounters_irqEvents s
  rw [tickCounters_eq] at hevents
  dsimp only at hevents
  rw [tickBefore_eq, e, tickCounters_eq, hevents]
  exact ⟨_, _, _, _, _, _, _, _, _, rfl⟩

@[simp] theorem tickBefore_par (s : State) : (tickBefore s).par = s.par := by
  obtain ⟨_, _, _, _, _, _, _, _, _, e⟩ := tickBefore_frame s
  rw [e]

@[simp] theorem tickBefore_rxq (s : State) : (tickBefore s).rxq = s.rxq := by
  obtain ⟨_, _, _, _, _, _, _, _, _, e⟩ := tickBefore_frame s
  rw [e]

@[simp] theorem tickBefore_midOut (s : State) : (tickBefore s).midOut = s.midOut := by
  obtain ⟨_, _, _, _, _, _, _, _, _, e⟩ := tickBefore_frame s
  rw [e]

/-- TXSIZE is cleared in the tick in which `txDelay` reaches 0 (R187). -/
theorem tickBefore_txSize (s : State) : (tickBefore s).x.txSize = if s.txDelay = 1 then 0 else s.x.txSize := by
  obtain ⟨_, _, _, e⟩ := tickTransmit_frame (tickCounters s)
  rw [tickBefore_eq, e, tickCounters_eq]

@[simp] theorem tickReceive_txq (s : State) : (tickReceive s).txq = s.txq := by
  obtain ⟨_, _, _, _, _, _, e⟩ := tickReceive_frame s
  rw [e]

@[simp] theorem tickReceive_txDelay (s : State) : (tickReceive s).txDelay = s.txDelay := by
  obtain ⟨_, _, _, _, _, _, e⟩ := tickReceive_frame s
  rw [e]

@[simp] theorem tickReceive_txSize (s : State) : (tickReceive s).x.txSize = s.x.txSize := by
  obtain ⟨_, _, _, _, _, _, e⟩ := tickReceive_frame s
  rw [e]

@[simp] theorem tickReceive_midOut (s : State) : (tickReceive s).midOut = s.midOut := by
  obtain ⟨_, _, _, _, _, _, e⟩ := tickReceive_frame s
  rw [e]

theorem runBgOp_of_neverRefused {m : MidOp} (hm : m.op.neverRefused = true) (s : State) :
    ∃ p, runBgOp m s = .ok p := by
  obtain ⟨op, lag⟩ := m
  cases op with
  | consume k => cases hm
  | write | read | peek | used | free | clear | envConn => exact ⟨_, rfl⟩

/-- Background operations that are never refused on their own all run, while the background runs (R182, R211). -/
theorem runMid_of_neverRefused {l : List MidOp} (hl : ∀ m ∈ l, m.op.neverRefused = true)
    (hb : l = [] ∨ s.bgRunning = true) : ∃ u, runMid l s = .ok u := by
  induction l generalizing s with
  | nil => exact ⟨s, rfl⟩
  | cons m rest ih =>
    obtain ⟨hm, hrest⟩ := List.forall_mem_cons.mp hl
    have hrun : s.bgRunning = true := by simpa using hb
    obtain ⟨p, hp⟩ := runBgOp_of_neverRefused hm s
    obtain ⟨_, _, _, _, e⟩ := runBgOp_frame hp
    obtain ⟨u, hu⟩ := ih (s := { p.1 with midOut := p.1.midOut ++ [p.2] }) hrest (.inr (by rw [e]; exact hrun))
    exact ⟨u, by simp only [runMid, hrun, hp, hu, if_true]⟩

/-- Step 7 leaves the RAM, or unpacks a frame into it (R193). -/
theorem tickReceive_ram (s : State) : (tickReceive s).ram = s.ram ∨
    ∃ f : List Byte, (tickReceive s).ram = unpackRam f s.x.rxOffset (frameCount f) s.ram := by
  rcases tickReceive_cases s with ⟨-, e⟩ | ⟨-, -, e⟩ | ⟨-, -, -, e⟩ | ⟨-, -, -, e⟩
  · exact .inl (by rw [e])
  · exact .inl (by rw [e])
  · exact .inl (by rw [e])
  · exact .inr ⟨_, by rw [e]; rfl⟩

/-- The lower half of the RAM is the host's (R62). -/
theorem tickReceive_read_lower {a : Nat} (ha : a < 0x1000) (s : State) :
    Memory.read (tickReceive s).ram a = Memory.read s.ram a := by
  rcases tickReceive_ram s with e | ⟨f, e⟩
  · rw [e]
  · rw [e, read_unpackRam_lower f _ _ _ ha]

/-- Settles O24: the background operations inside the tick run (`runMid_of_neverRefused`), and what a tick never changes
stands in the frames of its three parts. -/
theorem tickCompletes : Obligations.TickCompletes := by
  intro s hmid hb
  obtain ⟨_, _, k, events, _, _, _, _, _, hbefore⟩ := tickBefore_frame { s with midOut := [] }
  obtain ⟨u, hu⟩ := runMid_of_neverRefused (s := tickBefore { s with midOut := [] }) hmid (by rw [hbefore]; exact hb)
  have ht := execTick_of_runMid hu
  have hroles : s.inp.mid = [] → u.rxConn = s.rxConn ∧ u.txConn = s.txConn := by
    intro hq
    rw [hq, hbefore] at hu
    cases hu
    exact ⟨rfl, rfl⟩
  have hhost := execTick_hostOnlyKept ht
  have hram (a : Nat) (ha : a < 0x1000) : Memory.read (tickReceive u).ram a = Memory.read u.ram a :=
    tickReceive_read_lower ha u
  obtain ⟨_, _, _, _, _, hafter⟩ := runMid_frame hu
  obtain ⟨_, _, _, _, _, _, hreceive⟩ := tickReceive_frame u
  rw [hreceive] at ht hhost hram
  rw [hbefore] at hafter
  subst hafter
  exact ⟨_, ht, hhost.par, hhost.control, hhost.start, hhost.txOffset, rfl, rfl, rfl, rfl, rfl, rfl, rfl, hram,
    ⟨events, rfl⟩, Nat.le_add_right _ k, hroles⟩

end Sys2Proof.Machine

/-!
PROOFS. First in, first out (R79, R130, R182). A history agrees with a ring when the bytes accepted are those given out
followed by those waiting. Each ring operation keeps the agreement, so each step of a tick does, so each operation does.
-/
namespace Sys2Proof.Machine

variable {s t : State} {h : History} {q : RingId}

/-- The ring is well formed, and the history accounts for the bytes waiting in it (R130). -/
structure History.Agrees (n : Nat) (r : Ring) (h : History) : Prop where
  wf       : r.wf n = true
  accepted : h.accepted = h.given ++ r.contents n

@[simp] theorem History.give_nil (h : History) : h.give [] = h := by simp [History.give]

@[simp] theorem History.accept_nil (h : History) : h.accept [] = h := by simp [History.accept]

namespace History.Agrees

/-! ### One ring -/

section Ring

variable {n lag k : Nat} {v : RingView} {r : Ring} {bytes : List Byte}

theorem length_sub_length (ha : h.Agrees n r) : h.accepted.length - h.given.length = r.used n := by
  simp [ha.accepted]

theorem skip_eq (ha : h.Agrees n r) (k : Nat) : h.skip k = h.give ((r.contents n).take k) :=
  h.skip_eq_give ha.accepted k

/-- A view refresh moves no byte (R128). -/
theorem refresh (ha : h.Agrees n r) (side : Side) : h.Agrees n (r.refresh n v lag side) :=
  ⟨Ring.refresh_wf ha.wf, by simp [ha.accepted]⟩

theorem clear (hr : r.wf n = true) : History.fresh.Agrees n r.clear := ⟨Ring.clear_wf hr, by simp⟩

/-- The ring after a write that found room (R121). -/
theorem written (ha : h.Agrees n r) (hl : bytes.length ≤ (r.refresh n v lag .writer).freeBy n .writer) :
    (h.accept bytes).Agrees n (Ring.publishW v ((r.w + bytes.length) % n)
      { r.refresh n v lag .writer with buf := Ring.putBytes n r.buf r.w bytes }) := by
  have hwf := Ring.write_wf (v := v) (lag := lag) (bytes := bytes) ha.wf
  have hcontents := Ring.write_ok_contents ha.wf hl
  rcases Ring.write_cases (n := n) v lag bytes r with ⟨hlt, -⟩ | ⟨-, e⟩
  · omega
  · rw [e] at hwf hcontents
    exact ⟨hwf, by rw [hcontents]; simp [ha.accepted]⟩

/-- The ring after its reader moved over `k` bytes it sees (R122, R124). -/
theorem advanced (ha : h.Agrees n r) (hk : k ≤ (r.refresh n v lag .reader).usedBy n .reader) :
    (h.give ((r.contents n).take k)).Agrees n (Ring.publishR v ((r.r + k) % n) (r.refresh n v lag .reader)) := by
  have hq := Ring.refresh_wf (v := v) (lag := lag) (side := .reader) ha.wf
  exact ⟨by simpa using Ring.advance_wf (v := v) hq hk, by simp [Ring.advanced_contents ha.wf hk, ha.accepted]⟩

/-- The ring after its reader took the `k` oldest bytes it sees (R122). -/
theorem taken (ha : h.Agrees n r) (hk : k ≤ (r.refresh n v lag .reader).usedBy n .reader) :
    (h.give (Ring.getBytes n r.buf r.r k)).Agrees n
      (Ring.publishR v ((r.r + k) % n) (r.refresh n v lag .reader)) := by
  rw [Ring.getBytes_eq_take (hk.trans (Ring.usedBy_reader_refresh_le ha.wf))]
  exact ha.advanced hk

theorem write (ha : h.Agrees n r) (v : RingView) (lag : Nat) (bytes : List Byte) :
    (if (r.write n v lag bytes).2.st = some .ok then h.accept bytes else h).Agrees n (r.write n v lag bytes).1 := by
  rcases Ring.write_cases (n := n) v lag bytes r with ⟨-, e⟩ | ⟨hl, e⟩ <;> rw [e]
  · exact ha.refresh .writer
  · exact ha.written hl

theorem read (ha : h.Agrees n r) (v : RingView) (lag len : Nat) :
    (if (r.read n v lag len).2.st = some .ok then h.give (r.read n v lag len).2.bytes else h).Agrees n
      (r.read n v lag len).1 := by
  rcases Ring.read_cases (n := n) v lag len r with ⟨-, e⟩ | ⟨hl, e⟩ <;> rw [e]
  · exact ha.refresh .reader
  · exact ha.taken hl

theorem peek (ha : h.Agrees n r) (v : RingView) (lag len : Nat) : h.Agrees n (r.peek n v lag len).1 := by
  rcases Ring.peek_cases (n := n) v lag len r with ⟨-, e⟩ | ⟨-, e⟩ <;> rw [e] <;> exact ha.refresh .reader

theorem consume (ha : h.Agrees n r) {p : Ring × Result} (hc : r.consume n v lag k = some p) :
    (h.give ((r.contents n).take k)).Agrees n p.1 := by
  rcases Ring.consume_cases (n := n) v lag k r with ⟨-, e⟩ | ⟨hk, e⟩ <;> rw [e] at hc <;> cases hc
  exact ha.advanced hk

end Ring

/-! ### Ring and transport operations on the state -/

/-- Replacing a ring of the state: the other ring keeps its history. -/
theorem setRing (ha : h.Agrees s.par.ringN (s.ring q)) {q' : RingId} {r : Ring} {h' : History}
    (hsame : q' = q → h'.Agrees s.par.ringN r) (hother : q' ≠ q → h' = h) :
    h'.Agrees s.par.ringN ((s.setRing q' r).ring q) := by
  rw [State.ring_setRing]
  split
  · next e => exact hsame e.symm
  · next e => exact hother (Ne.symm e) ▸ ha

theorem setRing_refresh (ha : h.Agrees s.par.ringN (s.ring q)) (q' : RingId) (lag : Nat) (side : Side) :
    h.Agrees s.par.ringN ((s.setRing q' ((s.ring q').refresh s.par.ringN s.par.ringView lag side)).ring q) :=
  ha.setRing (fun e => e ▸ ha.refresh side) fun _ => rfl

theorem rbWrite (ha : h.Agrees s.par.ringN (s.ring q)) (q' : RingId) (lag : Nat) (bytes : List Byte) :
    (if q' = q ∧ (rbWrite q' lag bytes s).2.st = some .ok then h.accept bytes else h).Agrees s.par.ringN
      ((rbWrite q' lag bytes s).1.ring q) := by
  refine ha.setRing (fun e => ?_) fun e => by simp [e]
  subst e
  simp only [true_and]
  exact ha.write s.par.ringView lag bytes

theorem rbRead (ha : h.Agrees s.par.ringN (s.ring q)) (q' : RingId) (lag len : Nat) :
    (if q' = q ∧ (rbRead q' lag len s).2.st = some .ok then h.give (rbRead q' lag len s).2.bytes else h).Agrees
      s.par.ringN ((rbRead q' lag len s).1.ring q) := by
  refine ha.setRing (fun e => ?_) fun e => by simp [e]
  subst e
  simp only [true_and]
  exact ha.read s.par.ringView lag len

theorem rbPeek (ha : h.Agrees s.par.ringN (s.ring q)) (q' : RingId) (lag len : Nat) :
    h.Agrees s.par.ringN ((rbPeek q' lag len s).1.ring q) :=
  ha.setRing (fun e => e ▸ ha.peek s.par.ringView lag len) fun _ => rfl

theorem rbConsume (ha : h.Agrees s.par.ringN (s.ring q)) {q' : RingId} {lag k : Nat} {p : State × Result}
    (hp : rbConsume q' lag k s = some p) :
    (if q' = q then h.give (((s.ring q).contents s.par.ringN).take k) else h).Agrees s.par.ringN (p.1.ring q) := by
  obtain ⟨r, hr, rfl⟩ := rbConsume_some hp
  refine ha.setRing (fun e => ?_) fun e => by simp [e]
  subst e
  simpa using ha.consume hr

theorem rbClear (ha : h.Agrees s.par.ringN (s.ring q)) (q' : RingId) :
    (if q' = q then History.fresh else h).Agrees s.par.ringN ((rbClear q' s).ring q) := by
  refine ha.setRing (fun e => ?_) fun e => by simp [e]
  subst e
  simpa using clear ha.wf

/-- `LT_RECEIVE` gives out what it returns, nothing when too few bytes are seen (R142). -/
theorem ltReceive (ha : h.Agrees s.par.ringN (s.ring q)) (lag size : Nat) :
    (if q = .rxq ∧ (ltReceive lag size s).2.st = some .ok then h.give (ltReceive lag size s).2.bytes else h).Agrees
      s.par.ringN ((ltReceive lag size s).1.ring q) := by
  cases q with
  | txq => rcases ltReceive_cases lag size s with ⟨-, e⟩ | ⟨-, -, e⟩ | ⟨-, -, e⟩ <;> rw [e] <;> exact ha
  | rxq =>
    rcases ltReceive_cases lag size s with ⟨-, e⟩ | ⟨-, -, e⟩ | ⟨-, hl, e⟩ <;> rw [e]
    · exact ha
    · exact h.give_nil.symm ▸ ha.refresh .reader
    · exact ha.taken hl

/-- `LT_SEND` accepts its bytes when it answers `Ok` (R143). -/
theorem ltSend (ha : h.Agrees s.par.ringN (s.ring q)) (lag : Nat) (bytes : List Byte) :
    (if q = .txq ∧ (ltSend lag bytes s).2.st = some .ok then h.accept bytes else h).Agrees s.par.ringN
      ((ltSend lag bytes s).1.ring q) := by
  cases q with
  | rxq => rcases ltSend_cases lag bytes s with ⟨-, e⟩ | ⟨-, -, e⟩ | ⟨-, -, e⟩ <;> rw [e] <;> exact ha
  | txq =>
    rcases ltSend_cases lag bytes s with ⟨-, e⟩ | ⟨-, -, e⟩ | ⟨-, hl, e⟩ <;> rw [e]
    · exact ha
    · exact ha.refresh .writer
    · exact ha.written hl

/-! ### The tick (R181, R182) -/

/-- A background operation inside a tick. -/
theorem runBgOp (ha : h.Agrees s.par.ringN (s.ring q)) {m : MidOp} {p : State × Result} (hm : runBgOp m s = .ok p) :
    (History.note q h (m, p.2)).Agrees s.par.ringN (p.1.ring q) := by
  obtain ⟨op, lag⟩ := m
  cases op <;> simp only [Machine.runBgOp] at hm
  case consume k =>
    split at hm
    · next p' hp =>
      cases hm
      have hskip := ha.rbConsume hp
      rw [← ha.skip_eq] at hskip
      simpa only [History.note, eq_comm] using hskip
    · cases hm
  all_goals cases hm
  case write bytes => simpa only [History.note, eq_comm] using ha.rbWrite .rxq lag bytes
  case read len => simpa only [History.note, eq_comm] using ha.rbRead .txq lag len
  case peek len => exact ha.rbPeek .txq lag len
  case used q' => exact ha.setRing_refresh q' lag (bgSide q')
  case free q' => exact ha.setRing_refresh q' lag (bgSide q')
  case clear q' => exact ha.rbClear q'
  case envConn role c => cases role <;> cases q <;> exact ha

/-- The background operations inside a tick, with the results the tick keeps for them. -/
theorem runMid {l : List MidOp} (ha : h.Agrees s.par.ringN (s.ring q)) (hl : runMid l s = .ok t) :
    ∃ outs, t.midOut = s.midOut ++ outs ∧
      ((l.zip outs).foldl (History.note q) h).Agrees t.par.ringN (t.ring q) := by
  induction l generalizing s h with
  | nil => cases hl; exact ⟨[], by simp, ha⟩
  | cons m rest ih =>
    unfold Machine.runMid at hl
    split at hl
    · split at hl
      · next p hp =>
        have hnote := ha.runBgOp hp
        obtain ⟨a, b, c, d, e⟩ := runBgOp_frame hp
        obtain ⟨outs, houts, hrest⟩ := ih (h := History.note q h (m, p.2)) (by cases q <;> simpa [e] using hnote) hl
        exact ⟨p.2 :: outs, by simpa [e] using houts, hrest⟩
      · cases hl
    · cases hl

end History.Agrees

/-- A background operation leaves the read cursor of `RXQ`, unless it clears that ring (R120, R131). -/
theorem runBgOp_rxq_r {m : MidOp} {p : State × Result} (hm : runBgOp m s = .ok p) :
    p.1.rxq.r = if m.op == .clear .rxq then 0 else s.rxq.r := by
  by_cases hc : ∀ q, m.op ≠ .clear q
  · rw [(runBgOp_foreground_cursors hm hc).1, if_neg (by simpa using hc .rxq)]
  · obtain ⟨op, lag⟩ := m
    simp only [not_forall, not_not] at hc
    obtain ⟨q, rfl⟩ := hc
    cases hm
    cases q <;> rfl

theorem runMid_rxq_r {l : List MidOp} (hl : runMid l s = .ok t) :
    t.rxq.r = if l.any (fun m => m.op == .clear .rxq) then 0 else s.rxq.r := by
  induction l generalizing s with
  | nil => cases hl; rfl
  | cons m rest ih =>
    unfold runMid at hl
    split at hl
    · split at hl
      · next p hp =>
        rw [ih hl, List.any_cons]
        show (if _ then 0 else p.1.rxq.r) = _
        rw [runBgOp_rxq_r hp]
        cases (m.op == .clear .rxq) <;> simp
      · cases hl
    · cases hl

/-- No frame is queued by a tick that leaves `txDelay` at 0. -/
theorem frameQueued_eq_nil (ht : s.txDelay = 0 → t.txDelay = 0) : frameQueued s t = [] :=
  if_neg fun hc => hc.2 (ht hc.1)

/-- The transmit pass is open only where `txDelay` was 0 before the tick: where it reaches 0 in the tick, TXSIZE is
cleared (R187, R188). -/
theorem txDelay_eq_zero_of_txGate (hg : txGate (tickCounters s)) : s.txDelay = 0 := by
  obtain ⟨-, hd, -, hx⟩ := hg
  rw [tickCounters_eq] at hd hx
  by_contra h0
  have h1 : s.txDelay = 1 := by
    simp only [if_neg h0] at hd
    bv_omega
  simp [h1] at hx

/-- The frame the transmit pass builds, in terms of the state before the tick (R186, R189). -/
theorem txFrame_tickCounters (hd : s.txDelay = 0) : txFrame (tickCounters s) =
    buildFrame (if policyNow s then false else !s.x.mode.getLsbD 0) s.linkId s.ram s.x.txOffset s.x.txSize.toNat := by
  rw [tickCounters_eq]
  cases policyNow s <;> simp [txFrame, noSyncFlag, hd]

theorem delayOf_ne_zero {v : Word} (hle : v.toNat ≤ 255) (hv : v ≠ 0) : delayOf v.toNat ≠ 0 := by
  intro e
  have := delayOf_toNat hle
  rw [e] at this
  bv_omega

namespace History.Agrees

/-- Steps 1 to 6 accept the frame queued, if any. -/
theorem tickBefore (ha : h.Agrees s.par.ringN (s.ring .txq)) (hsize : s.x.txSize.toNat ≤ 255)
    (ht : t.txDelay = (tickBefore s).txDelay) :
    (h.accept (frameQueued s t)).Agrees s.par.ringN ((tickBefore s).ring .txq) := by
  rw [tickBefore_eq] at ht ⊢
  have hcounted : h.Agrees (tickCounters s).par.ringN (tickCounters s).txq := by rw [tickCounters_eq]; exact ha
  have hpar : s.par = (tickCounters s).par := by rw [tickCounters_eq]
  have hnone (e : (tickTransmit (tickCounters s)).txDelay = (tickCounters s).txDelay) : frameQueued s t = [] :=
    frameQueued_eq_nil fun hd => by rw [ht, e, tickCounters_eq]; simp [hd]
  rw [hpar]
  rcases tickTransmit_cases (tickCounters s) with ⟨-, e⟩ | ⟨-, -, e⟩ | ⟨-, -, -, e⟩ | ⟨hg, -, hl, e⟩
  · rw [hnone (by rw [e]), h.accept_nil, e]
    exact hcounted
  · rw [hnone (by rw [e]), h.accept_nil, e]
    exact hcounted
  · rw [hnone (by rw [e]), h.accept_nil, e]
    exact hcounted.refresh .writer
  · have hd := txDelay_eq_zero_of_txGate hg
    have hx : (tickCounters s).x.txSize = s.x.txSize := by rw [tickCounters_eq]; simp [hd]
    have hloaded : t.txDelay ≠ 0 := by
      rw [ht, e]
      exact delayOf_ne_zero (hx ▸ hsize) hg.2.2.2
    have hqueued : frameQueued s t = txFrame (tickCounters s) :=
      (if_pos ⟨hd, hloaded⟩).trans (txFrame_tickCounters hd).symm
    rw [hqueued, e]
    exact hcounted.written hl

/-- Step 7 gives out a frame exactly when it moves the read cursor: 1024 is not a multiple of `N` (R8, R191). -/
theorem tickReceive (ha : h.Agrees s.par.ringN s.rxq) (hN : 1025 ≤ s.par.ringN) :
    ((tickReceive s).rxq.r = s.rxq.r ∧ h.Agrees s.par.ringN (tickReceive s).rxq) ∨
    ((tickReceive s).rxq.r ≠ s.rxq.r ∧ (h.skip frameBytes).Agrees s.par.ringN (tickReceive s).rxq) := by
  rcases tickReceive_cases s with ⟨-, e⟩ | ⟨-, -, e⟩ | ⟨-, -, -, e⟩ | ⟨-, -, hl, e⟩ <;> rw [e]
  · exact .inl ⟨rfl, ha⟩
  · exact .inl ⟨rfl, ha⟩
  · exact .inl ⟨rfl, ha.refresh .reader⟩
  · have hmoved : (s.rxq.r + frameBytes) % s.par.ringN ≠ s.rxq.r := by
      have hr : s.rxq.r < s.par.ringN := (Ring.wf_iff.mp ha.wf).2.1
      have hne : (s.rxq.r + 0) % s.par.ringN ≠ (s.rxq.r + frameBytes) % s.par.ringN :=
        Ring.add_mod_ne (by decide) (Nat.lt_of_succ_le hN)
      rw [Nat.add_zero, Nat.mod_eq_of_lt hr] at hne
      exact hne.symm
    rw [ha.skip_eq]
    exact .inr ⟨hmoved, ha.advanced hl⟩

end History.Agrees

/-- A tick that starts with no results kept: what is queued, what the background operations do, what is taken. -/
theorem tick_agrees {u : State} (ha : h.Agrees s.par.ringN (s.ring q)) (hN : 1025 ≤ s.par.ringN)
    (hsize : s.x.txSize.toNat ≤ 255) (hout : s.midOut = []) (hu : runMid s.inp.mid (tickBefore s) = .ok u) :
    (h.tick q s (tickReceive u).done).Agrees s.par.ringN ((tickReceive u).done.ring q) := by
  obtain ⟨a, b, c, d, o, e⟩ := runMid_frame hu
  have hpar : u.par = s.par := by simp [e]
  have hdelay : (tickReceive u).done.txDelay = (tickBefore s).txDelay := by simp [e]
  have hbefore : (if q = .txq then h.accept (frameQueued s (tickReceive u).done) else h).Agrees (tickBefore s).par.ringN
      ((tickBefore s).ring q) := by
    rw [tickBefore_par]
    cases q with
    | rxq => simpa using ha
    | txq => exact ha.tickBefore hsize hdelay
  obtain ⟨outs, houts, hmid⟩ := hbefore.runMid hu
  have hkept : (tickReceive u).done.midOut = outs := by simp [houts, hout]
  unfold History.tick
  rw [hkept]
  cases q with
  | txq => simpa [hpar] using hmid
  | rxq =>
    have htaken : frameTaken s (tickReceive u).done = ((tickReceive u).rxq.r != u.rxq.r) := by
      simp [frameTaken, runMid_rxq_r hu]
    rw [htaken]
    rcases hmid.tickReceive (s := u) (hpar ▸ hN) with ⟨hr, hq⟩ | ⟨hr, hq⟩
    · simpa [hr, hpar] using hq
    · simpa [hr, hpar] using hq

/-- Results kept from the tick before play no part (log entry 8). -/
theorem execTick_agrees (ha : h.Agrees s.par.ringN (s.ring q)) (hN : 1025 ≤ s.par.ringN) (hsize : s.x.txSize.toNat ≤ 255)
    (ht : execTick s = .next t) : (h.tick q s t).Agrees s.par.ringN (t.ring q) := by
  obtain ⟨u, hu, rfl⟩ := execTick_next ht
  exact tick_agrees (s := { s with midOut := [] }) (by cases q <;> exact ha) hN hsize rfl hu

/-! ### All operations -/

/-- Every operation keeps history and ring in agreement. -/
theorem exec_agrees {i : Instr} (ha : h.Agrees s.par.ringN (s.ring q)) (hN : 1025 ≤ s.par.ringN)
    (hsize : s.x.txSize.toNat ≤ 255) (he : exec i s = .next t) :
    (h.extend q i s t).Agrees s.par.ringN (t.ring q) := by
  cases i with
  | rdStatus | rdMode | rdControl | rdStart | rdRxSize | rdTxSize | rdRxOffset | rdTxOffset | rdRam | wrStatus | wrMode
  | wrControl | wrStart | wrRxSize | wrTxSize | wrRxOffset | wrTxOffset | wrRam | stop | ltConnected =>
    cases he
    cases q <;> exact ha
  | tick => exact execTick_agrees ha hN hsize he
  | reset lh lp rh rp fwd =>
    obtain ⟨rfl, rfl⟩ := execReset_next he
    cases q <;> exact .clear ha.wf
  | rbWrite q' bytes => cases he; exact ha.rbWrite q' _ bytes
  | rbRead q' len => cases he; exact ha.rbRead q' _ len
  | rbPeek q' len => cases he; exact ha.rbPeek q' _ len
  | rbConsume q' n =>
    obtain ⟨p, hp, rfl⟩ := execRbConsume_next he
    exact ha.rbConsume hp
  | rbUsed q' side => cases he; exact ha.setRing_refresh q' _ side
  | rbFree q' side => cases he; exact ha.setRing_refresh q' _ side
  | rbClear q' => cases he; exact ha.rbClear q'
  | ltReceive size => cases he; exact ha.ltReceive _ size
  | ltSend bytes => cases he; exact ha.ltSend _ bytes
  | envConn role c => cases he; cases role <;> cases q <;> exact ha

/-- TXSIZE stays within its mask (R20), whatever operation is performed and whoever issues it. -/
theorem exec_txSize_le {i : Instr} (hreset : s.par.regReset.txSize.toNat ≤ 255) (hsize : s.x.txSize.toNat ≤ 255)
    (he : exec i s = .next t) : t.x.txSize.toNat ≤ 255 := by
  cases i with
  | wrTxSize m d => cases he; exact toNat_and_le d 0x00ff
  | reset lh lp rh rp fwd =>
    obtain ⟨rfl, rfl⟩ := execReset_next he
    exact hreset
  | tick =>
    obtain ⟨u, hu, rfl⟩ := execTick_next he
    obtain ⟨a, b, c, d, o, rfl⟩ := runMid_frame hu
    have htx := tickBefore_txSize { s with midOut := [] }
    split at htx
    · simp [htx]
    · simpa [htx] using hsize
  | rdStatus | rdMode | rdControl | rdStart | rdRxSize | rdTxSize | rdRxOffset | rdTxOffset | rdRam | wrStatus | wrMode
  | wrControl | wrStart | wrRxSize | wrRxOffset | wrTxOffset | wrRam | stop | ltConnected => cases he; exact hsize
  | rbWrite q | rbRead q | rbPeek q | rbUsed q | rbFree q | rbClear q => cases q <;> cases he <;> exact hsize
  | rbConsume q n =>
    obtain ⟨p, hp, rfl⟩ := execRbConsume_next he
    obtain ⟨r, -, rfl⟩ := rbConsume_some hp
    cases q <;> exact hsize
  | ltReceive size => cases he; rw [State.ret_x, ltReceive_x]; exact hsize
  | ltSend bytes => cases he; rw [State.ret_x, ltSend_x]; exact hsize
  | envConn role c => cases role <;> cases he <;> exact hsize

/-- History and ring agree after a run. Beside them the induction carries the parameters and the bound of TXSIZE only: the
invariant of the state is not kept here, since a run may move a role after `STOP`. -/
theorem runHistory_agrees {p : Params} {l : List (Instr × StepInput)} {h' : History} (hp : s.par = p) (hlegal : p.Legal)
    (ha : h.Agrees p.ringN (s.ring q)) (hsize : s.x.txSize.toNat ≤ 255) (hl : runHistory q l s h = some (t, h')) :
    h'.Agrees p.ringN (t.ring q) := by
  induction l generalizing s h with
  | nil => cases hl; exact ha
  | cons op rest ih =>
    obtain ⟨i, inp⟩ := op
    subst hp
    unfold runHistory at hl
    split at hl
    · next u hu =>
      have hstart : h.Agrees s.par.ringN (State.ring { s with inp := inp } q) := by cases q <;> exact ha
      have hkept := (writersOfHostOnlyRegisters _ _ _ hu).1
      have hagree := exec_agrees (s := { s with inp := inp }) hstart hlegal.ringN hsize hu
      exact ih hkept hagree (exec_txSize_le (s := { s with inp := inp }) hlegal.regReset.txSize hsize hu) hl
    · cases hl
    · cases hl

/-- Settles O20: the history agrees with the ring at the start, after the operation (`exec_agrees`) and after the run
(`runHistory_agrees`). -/
theorem ringIsFirstInFirstOut : Obligations.RingIsFirstInFirstOut := by
  intro q s t h hs hh
  have ha : h.Agrees s.par.ringN (s.ring q) := ⟨(hs.ring_sound q).wf, hh⟩
  refine ⟨fun i he => ?_, fun l h' hl => ?_⟩
  · have ha' := exec_agrees ha hs.par.ringN hs.regs.txSize he
    exact ⟨ha'.accepted, ha'.length_sub_length⟩
  · have ha' := runHistory_agrees rfl hs.par ha hs.regs.txSize hl
    exact ⟨ha'.accepted, ha'.length_sub_length⟩

end Sys2Proof.Machine

/-!
PROOFS. The receive pass (R62, R63, R191 to R193).
-/
namespace Sys2Proof.Machine

/-! ### A received frame (R96, R193) -/

/-- A wire word is stored with its low 9 bits. -/
theorem ramData_rxWord (f : List Byte) (i : Nat) :
    ramData (rxWord f i) = BitVec.ofNat 9 ((f.getD (2 * i) 0).toNat * 256 + (f.getD (2 * i + 1) 0).toNat) := by
  have hlow : (frameByte f (2 * i + 1)).toNat < 2 ^ 8 := frameByte_lt f _
  apply BitVec.eq_of_toNat_eq
  rw [toNat_ramData, rxWord, BitVec.toNat_append, ← Nat.shiftLeft_add_eq_or_of_lt hlow, Nat.shiftLeft_eq,
    BitVec.toNat_ofNat]
  rfl

/-- Bit 8 of a wire word is bit 0 of its high byte. -/
theorem unpackSync_iff (f : List Byte) (n : Nat) :
    unpackSync f n = true ↔ ∃ i < n, (f.getD (2 * i) 0).getLsbD 0 = true := by
  have hbit (i : Nat) : (rxWord f i).getLsbD 8 = (f.getD (2 * i) 0).getLsbD 0 := by
    rw [rxWord, BitVec.getLsbD_append]
    rfl
  simp only [unpackSync, List.any_eq_true, List.mem_range, hbit]

/-- The sync bit is set if some word has bit 8 set, and else kept: STATUS stores nothing else (R21). -/
theorem status_of_unpackSync {p : Params} {x : Regs} (hx : Regs.Within p x) (f : List Byte) (n : Nat) :
    (if unpackSync f n then x.status ||| syncMask p else x.status) =
      if ∃ i < n, (f.getD (2 * i) 0).getLsbD 0 = true then 1#16 <<< p.syncBit.val else x.status := by
  rw [hx.status_or_syncMask]
  exact if_congr (unpackSync_iff f n) rfl rfl

/-- RXSIZE goes down modulo 256. -/
theorem toNat_sub_and_0x00ff {size : Word} {n : Nat} (hsize : size.toNat ≤ 255) (hn : n < 256) :
    ((size - BitVec.ofNat 16 n) &&& 0x00ff).toNat = (256 + size.toNat - n) % 256 := by
  show (maskSize (size - BitVec.ofNat 16 n)).toNat = _
  rw [maskSize_toNat, BitVec.toNat_sub, BitVec.toNat_ofNat]
  omega

/-- RXOFFSET goes up modulo 4096. -/
theorem toNat_add_and_0x0fff (offset : Word) (n : Nat) :
    ((offset + BitVec.ofNat 16 n) &&& 0x0fff).toNat = (offset.toNat + n) % 4096 := by
  rw [toNat_and_0x0fff, BitVec.toNat_add, BitVec.toNat_ofNat]
  omega

/-- Settles O34: step 5 opens the gate, and the clauses are the cases of `tickReceive_cases`. -/
theorem receivePassUnpacksOneFrame : Obligations.ReceivePassUnpacksOneFrame := by
  intro s hs hmid hdelay
  have ht := execTick_quiet hmid
  have hcases := tickReceive_cases (tickBefore { s with midOut := [] })
  obtain ⟨_, _, _, _, _, _, _, _, _, hbefore⟩ := tickBefore_frame { s with midOut := [] }
  rw [← tickBefore_eq, hbefore] at ht
  rw [hbefore] at hcases
  have hopen : (if s.rxDelay = 0 then 0 else s.rxDelay - 1 : Word) = 0 := by
    apply BitVec.eq_of_toNat_eq
    rw [toNat_countDown]
    exact Nat.sub_eq_zero_of_le hdelay
  have hq : s.rxq.wf s.par.ringN = true := hs.rxq
  have hseen := Ring.usedBy_reader_refresh (v := s.par.ringView) (lag := s.inp.lagR) hq
  have hwaiting := Ring.usedBy_reader_refresh_le (v := s.par.ringView) (lag := s.inp.lagR) hq
  rcases hcases with ⟨hclosed, -⟩ | ⟨-, hc, e⟩ | ⟨-, -, hl, e⟩ | ⟨-, hc, hl, e⟩
  · exact absurd hopen hclosed
  · rw [e] at ht
    exact ⟨_, ht, le_refl _, Ring.usedBy_reader_le hq, fun h => absurd h.1 hc, fun _ => ⟨rfl, rfl, rfl, rfl, rfl, hopen⟩⟩
  · rw [e] at ht
    exact ⟨_, ht, hseen, hwaiting, fun h => absurd h.2 (Nat.not_le.mpr hl), fun _ => ⟨rfl, rfl, rfl, rfl, rfl, hopen⟩⟩
  · have hframe := Ring.getBytes_eq_take (hl.trans hwaiting)
    rw [e] at ht
    refine ⟨_, ht, hseen, hwaiting, fun _ f n hf hn => ?_, fun h => absurd ⟨hc, hl⟩ h⟩
    dsimp only
    rw [hframe, ← hf]
    subst hn
    have hlt : frameCount f < 256 := frameCount_lt f
    refine ⟨Ring.advanced_contents hq hl, rfl, rfl, fun i hi => ?_, fun a ha => ?_, status_of_unpackSync hs.regs f _,
      toNat_sub_and_0x00ff hs.regs.rxSize hlt, toNat_add_and_0x0fff s.x.rxOffset _, delayOf_toNat (Nat.le_of_lt_succ hlt)⟩
    · rw [← ramData_rxWord]
      exact read_unpackRam_same f s.x.rxOffset (by omega) hs.ram hi
    · exact read_unpackRam_other f s.x.rxOffset (frameCount f) s.ram ha

end Sys2Proof.Machine

/-!
PROOFS. The decoder and the encoder (R90 to R92, R94, R101, R102): what each operand decoder accepts, then the code
byte, then each format, then the operation word as a whole.
-/
namespace Sys2Proof

/-! ### Operand values (R91, R94) -/

theorem ofNat_eq_iff {k n : Nat} (hn : n < 2 ^ k) {x : BitVec k} : BitVec.ofNat k n = x ↔ x.toNat = n := by
  rw [← BitVec.toNat_inj, BitVec.toNat_ofNat, Nat.mod_eq_of_lt hn, eq_comm]

theorem wordOperand_eq_ok {n : Nat} {d : Word} : wordOperand n = .ok d ↔ d.toNat = n := by
  unfold wordOperand
  split
  · next hn => rw [Except.ok.injEq, ofNat_eq_iff hn]
  · next hn => simp only [reduceCtorEq, false_iff]; exact fun h => hn (h ▸ d.isLt)

theorem addrOperand_eq_ok {n : Nat} {a : RamAddr} : addrOperand n = .ok a ↔ a.toNat = n := by
  unfold addrOperand
  split
  · next hn => rw [Except.ok.injEq, ofNat_eq_iff hn]
  · next hn => simp only [reduceCtorEq, false_iff]; exact fun h => hn (h ▸ a.isLt)

theorem sideOperand_eq_ok {n : Nat} {side : Side} : sideOperand n = .ok side ↔ sideCode side = n := by
  match n with
  | 0 | 1 | k + 2 => cases side <;> simp [sideOperand, sideCode]

theorem boolOperand_eq_ok {n : Nat} {b : Bool} : boolOperand n = .ok b ↔ b.toNat = n := by
  match n with
  | 0 | 1 | k + 2 => cases b <;> simp [boolOperand]

theorem withOperand_eq_ok {α : Type} {v : Except DecodeError α} {f : α → Instr} {i : Instr} :
    withOperand v f = .ok i ↔ ∃ a, v = .ok a ∧ f a = i := by
  cases v <;> simp [withOperand]

/-- Only a code is reserved, never an operand (R102). -/
@[simp] theorem wordOperand_ne_reserved (n : Nat) : wordOperand n ≠ .error .reservedCode := by
  unfold wordOperand
  split <;> simp

@[simp] theorem addrOperand_ne_reserved (n : Nat) : addrOperand n ≠ .error .reservedCode := by
  unfold addrOperand
  split <;> simp

@[simp] theorem sideOperand_ne_reserved (n : Nat) : sideOperand n ≠ .error .reservedCode := by
  unfold sideOperand
  split <;> simp

@[simp] theorem boolOperand_ne_reserved (n : Nat) : boolOperand n ≠ .error .reservedCode := by
  unfold boolOperand
  split <;> simp

@[simp] theorem withOperand_eq_error {α : Type} {v : Except DecodeError α} {f : α → Instr} {e : DecodeError} :
    withOperand v f = .error e ↔ v = .error e := by
  cases v <;> simp [withOperand]

/-! ### The code byte (R91) -/

/-- The code byte as its format spells it from its fields. -/
inductive CodeByte : BitVec 8 → Prop where
  | hostRead (m : Bool) {k : Nat} : k < 8 → CodeByte (hostCode 0x00 m (BitVec.ofNat 8 k))
  | hostWrite (m : Bool) {k : Nat} : k < 8 → CodeByte (hostCode 0x10 m (BitVec.ofNat 8 k))
  | ram {lo : Nat} : lo < 16 → CodeByte (BitVec.ofNat 8 (0x20 + lo))
  | event {lo : Nat} : lo < 16 → CodeByte (BitVec.ofNat 8 (0x30 + lo))
  | ring (q : RingId) {f : Nat} : f < 8 → CodeByte (ringCode q (BitVec.ofNat 8 f))
  | transport {lo : Nat} : lo < 16 → CodeByte (BitVec.ofNat 8 (0x50 + lo))
  | env {lo : Nat} : lo < 16 → CodeByte (BitVec.ofNat 8 (0x60 + lo))
  | reserved {op : BitVec 8} : 0x70 ≤ op.toNat → CodeByte op

theorem ofNat_formatField_lowField (op : BitVec 8) : BitVec.ofNat 8 (16 * formatField op + lowField op) = op := by
  rw [formatField, lowField, Nat.div_add_mod]
  exact BitVec.ofNat_toNat 8 op

theorem hostCode_read_fields : ∀ op : BitVec 8, formatField op = 0 →
    hostCode 0x00 (bit3 op) (BitVec.ofNat 8 (low3 op)) = op := by decide

theorem hostCode_write_fields : ∀ op : BitVec 8, formatField op = 1 →
    hostCode 0x10 (bit3 op) (BitVec.ofNat 8 (low3 op)) = op := by decide

theorem ringCode_fields : ∀ op : BitVec 8, formatField op = 4 →
    ringCode (ringOf (bit3 op)) (BitVec.ofNat 8 (low3 op)) = op := by decide

/-- Every code byte is of one of the forms. -/
theorem codeByte (op : BitVec 8) : CodeByte op := by
  have hlow : low3 op < 8 := Nat.mod_lt _ (by decide)
  have hlo : lowField op < 16 := Nat.mod_lt _ (by decide)
  have hop := ofNat_formatField_lowField op
  match hf : formatField op with
  | 0 => exact hostCode_read_fields op hf ▸ .hostRead (bit3 op) hlow
  | 1 => exact hostCode_write_fields op hf ▸ .hostWrite (bit3 op) hlow
  | 2 => rw [← hop, hf]; exact .ram hlo
  | 3 => rw [← hop, hf]; exact .event hlo
  | 4 => exact ringCode_fields op hf ▸ .ring (ringOf (bit3 op)) hlow
  | 5 => rw [← hop, hf]; exact .transport hlo
  | 6 => rw [← hop, hf]; exact .env hlo
  | f + 7 => exact .reserved (by unfold formatField at hf; omega)

/-! ### The format that decodes a code byte (R90, R91) -/

theorem hostRead_fields : ∀ m, ∀ k < 8, formatField (hostCode 0x00 m (BitVec.ofNat 8 k)) = 0 ∧
    bit3 (hostCode 0x00 m (BitVec.ofNat 8 k)) = m ∧ low3 (hostCode 0x00 m (BitVec.ofNat 8 k)) = k := by decide

theorem hostWrite_fields : ∀ m, ∀ k < 8, formatField (hostCode 0x10 m (BitVec.ofNat 8 k)) = 1 ∧
    bit3 (hostCode 0x10 m (BitVec.ofNat 8 k)) = m ∧ low3 (hostCode 0x10 m (BitVec.ofNat 8 k)) = k := by decide

theorem ring_fields (q : RingId) : ∀ f < 8, formatField (ringCode q (BitVec.ofNat 8 f)) = 4 ∧
    ringOf (bit3 (ringCode q (BitVec.ofNat 8 f))) = q ∧ low3 (ringCode q (BitVec.ofNat 8 f)) = f := by
  cases q <;> decide

theorem ofNat_fields {f lo : Nat} (hf : f < 16) (hlo : lo < 16) :
    formatField (BitVec.ofNat 8 (16 * f + lo)) = f ∧ lowField (BitVec.ofNat 8 (16 * f + lo)) = lo := by
  simp only [formatField, lowField, BitVec.toNat_ofNat]
  omega

section
variable {lo f k : Nat} (ops : List Operand)

theorem decode_hostRead (m : Bool) (hk : k < 8) :
    decode ⟨hostCode 0x00 m (BitVec.ofNat 8 k), ops⟩ = decodeHostRead m k ops := by
  obtain ⟨hf, hm, hl⟩ := hostRead_fields m k hk
  simp only [decode, hf, hm, hl]

theorem decode_hostWrite (m : Bool) (hk : k < 8) :
    decode ⟨hostCode 0x10 m (BitVec.ofNat 8 k), ops⟩ = decodeHostWrite m k ops := by
  obtain ⟨hf, hm, hl⟩ := hostWrite_fields m k hk
  simp only [decode, hf, hm, hl]

theorem decode_ram (hlo : lo < 16) : decode ⟨BitVec.ofNat 8 (0x20 + lo), ops⟩ = decodeRam lo ops := by
  obtain ⟨hf, hl⟩ := ofNat_fields (f := 2) (by decide) hlo
  simp only [decode, hf, hl]

theorem decode_event (hlo : lo < 16) : decode ⟨BitVec.ofNat 8 (0x30 + lo), ops⟩ = decodeEvent lo ops := by
  obtain ⟨hf, hl⟩ := ofNat_fields (f := 3) (by decide) hlo
  simp only [decode, hf, hl]

theorem decode_ring (q : RingId) (hf : f < 8) :
    decode ⟨ringCode q (BitVec.ofNat 8 f), ops⟩ = decodeRing q f ops := by
  obtain ⟨hformat, hq, hl⟩ := ring_fields q f hf
  simp only [decode, hformat, hq, hl]

theorem decode_transport (hlo : lo < 16) : decode ⟨BitVec.ofNat 8 (0x50 + lo), ops⟩ = decodeTransport lo ops := by
  obtain ⟨hf, hl⟩ := ofNat_fields (f := 5) (by decide) hlo
  simp only [decode, hf, hl]

theorem decode_env (hlo : lo < 16) : decode ⟨BitVec.ofNat 8 (0x60 + lo), ops⟩ = decodeEnv lo ops := by
  obtain ⟨hf, hl⟩ := ofNat_fields (f := 6) (by decide) hlo
  simp only [decode, hf, hl]

theorem decode_reserved {op : BitVec 8} (h : 0x70 ≤ op.toNat) : decode ⟨op, ops⟩ = .error .reservedCode := by
  obtain ⟨f, hf⟩ : ∃ f, formatField op = f + 7 := ⟨formatField op - 7, by unfold formatField; omega⟩
  simp only [decode, hf]

end

/-! ### Each format: what decodes is the encoding of what it decodes to -/

section
variable {m : Bool} {k lo : Nat} {q : RingId} {ops : List Operand} {i : Instr}

theorem encode_of_decodeHostRead (h : decodeHostRead m k ops = .ok i) :
    i.wf = true ∧ encode i = ⟨hostCode 0x00 m (BitVec.ofNat 8 k), ops⟩ := by
  unfold decodeHostRead at h
  split at h
  · split at h <;> cases h <;> exact ⟨rfl, rfl⟩
  · cases h

theorem encode_of_decodeHostWrite (h : decodeHostWrite m k ops = .ok i) :
    i.wf = true ∧ encode i = ⟨hostCode 0x10 m (BitVec.ofNat 8 k), ops⟩ := by
  unfold decodeHostWrite at h
  split at h
  · split at h
    case h_9 => cases h
    all_goals
      simp only [withOperand_eq_ok, wordOperand_eq_ok] at h
      obtain ⟨d, rfl, rfl⟩ := h
      exact ⟨rfl, rfl⟩
  · cases h

theorem encode_of_decodeRam (h : decodeRam lo ops = .ok i) :
    i.wf = true ∧ encode i = ⟨BitVec.ofNat 8 (0x20 + lo), ops⟩ := by
  unfold decodeRam at h
  split at h
  · split at h
    · simp only [withOperand_eq_ok, addrOperand_eq_ok] at h
      obtain ⟨a, rfl, rfl⟩ := h
      exact ⟨rfl, rfl⟩
    · cases h
  · split at h
    · split at h
      · next addr ha =>
        simp only [withOperand_eq_ok, wordOperand_eq_ok] at h
        obtain ⟨d, rfl, rfl⟩ := h
        rw [addrOperand_eq_ok] at ha
        subst ha
        exact ⟨rfl, rfl⟩
      · cases h
    · cases h
  · cases h

theorem encode_of_decodeReset (h : decodeReset ops = .ok i) : i.wf = true ∧ encode i = ⟨0x31, ops⟩ := by
  unfold decodeReset at h
  split at h
  · split at h
    · next hascii =>
      simp only [withOperand_eq_ok, boolOperand_eq_ok] at h
      obtain ⟨fwd, rfl, rfl⟩ := h
      exact ⟨hascii, rfl⟩
    · cases h
  · cases h

theorem encode_of_decodeEvent (h : decodeEvent lo ops = .ok i) :
    i.wf = true ∧ encode i = ⟨BitVec.ofNat 8 (0x30 + lo), ops⟩ := by
  unfold decodeEvent at h
  split at h
  · split at h
    · next hops => cases h; exact ⟨rfl, hops ▸ rfl⟩
    · cases h
  · exact encode_of_decodeReset h
  · split at h
    · next hops => cases h; exact ⟨rfl, hops ▸ rfl⟩
    · cases h
  · cases h

theorem encode_of_decodeRing (h : decodeRing q k ops = .ok i) :
    i.wf = true ∧ encode i = ⟨ringCode q (BitVec.ofNat 8 k), ops⟩ := by
  unfold decodeRing at h
  split at h
  case h_5 | h_6 =>
    split at h
    · simp only [withOperand_eq_ok, sideOperand_eq_ok] at h
      obtain ⟨side, rfl, rfl⟩ := h
      exact ⟨rfl, rfl⟩
    · cases h
  case h_7 =>
    split at h
    · next hops => cases h; exact ⟨rfl, hops ▸ rfl⟩
    · cases h
  case h_8 => cases h
  all_goals
    split at h <;> cases h
    exact ⟨rfl, rfl⟩

theorem encode_of_decodeTransport (h : decodeTransport lo ops = .ok i) :
    i.wf = true ∧ encode i = ⟨BitVec.ofNat 8 (0x50 + lo), ops⟩ := by
  unfold decodeTransport at h
  split at h
  · split at h
    · next hops => cases h; exact ⟨rfl, hops ▸ rfl⟩
    · cases h
  · split at h <;> cases h
    exact ⟨rfl, rfl⟩
  · split at h <;> cases h
    exact ⟨rfl, rfl⟩
  · cases h

theorem encode_of_decodeEnv (h : decodeEnv lo ops = .ok i) :
    i.wf = true ∧ encode i = ⟨BitVec.ofNat 8 (0x60 + lo), ops⟩ := by
  unfold decodeEnv at h
  split at h
  · next hops =>
    subst hops
    split at h <;> cases h <;> exact ⟨rfl, rfl⟩
  · split at h <;> cases h

end

/-- Settles O59: the form of the code byte, then the lemma of its format. -/
theorem encodeOfDecode : Obligations.EncodeOfDecode := by
  rintro ⟨op, ops⟩ i h
  cases codeByte op with
  | hostRead m hk => exact encode_of_decodeHostRead (decode_hostRead ops m hk ▸ h)
  | hostWrite m hk => exact encode_of_decodeHostWrite (decode_hostWrite ops m hk ▸ h)
  | ram hlo => exact encode_of_decodeRam (decode_ram ops hlo ▸ h)
  | event hlo => exact encode_of_decodeEvent (decode_event ops hlo ▸ h)
  | ring q hf => exact encode_of_decodeRing (decode_ring ops q hf ▸ h)
  | transport hlo => exact encode_of_decodeTransport (decode_transport ops hlo ▸ h)
  | env hlo => exact encode_of_decodeEnv (decode_env ops hlo ▸ h)
  | reserved hop => rw [decode_reserved ops hop] at h; cases h

/-! ### Decoding an encoding -/

/-- Settles O58: the code byte selects the format and function of the operation, and each operand decodes to the value
it encodes. -/
theorem decodeOfEncode : Obligations.DecodeOfEncode := by
  intro i hwf
  cases i with
  | rdStatus m | rdMode m | rdControl m | rdStart m | rdRxSize m | rdTxSize m | rdRxOffset m | rdTxOffset m =>
    exact decode_hostRead _ m (by decide)
  | wrStatus m d | wrMode m d | wrControl m d | wrStart m d | wrRxSize m d | wrTxSize m d | wrRxOffset m d
  | wrTxOffset m d =>
    exact (decode_hostWrite _ m (by decide)).trans (withOperand_eq_ok.mpr ⟨d, wordOperand_eq_ok.mpr rfl, rfl⟩)
  | rdRam a =>
    exact (decode_ram (lo := 0) _ (by decide)).trans (withOperand_eq_ok.mpr ⟨a, addrOperand_eq_ok.mpr rfl, rfl⟩)
  | wrRam a d =>
    have ha : addrOperand a.toNat = .ok a := addrOperand_eq_ok.mpr rfl
    have hd : wordOperand d.toNat = .ok d := wordOperand_eq_ok.mpr rfl
    refine (decode_ram (lo := 1) _ (by decide)).trans ?_
    simp only [decodeRam, ha, hd, withOperand]
  | tick => exact decode_event (lo := 0) _ (by decide)
  | reset lh lp rh rp fwd =>
    have hfwd : boolOperand fwd.toNat = .ok fwd := boolOperand_eq_ok.mpr rfl
    refine (decode_event (lo := 1) _ (by decide)).trans ((if_pos hwf).trans ?_)
    simp only [hfwd, withOperand]
  | stop => exact decode_event (lo := 2) _ (by decide)
  | rbWrite q _ | rbRead q _ | rbPeek q _ | rbConsume q _ | rbClear q => exact decode_ring _ q (by decide)
  | rbUsed q side | rbFree q side =>
    exact (decode_ring _ q (by decide)).trans (withOperand_eq_ok.mpr ⟨side, sideOperand_eq_ok.mpr rfl, rfl⟩)
  | ltConnected => exact decode_transport (lo := 0) _ (by decide)
  | ltReceive size => exact decode_transport (lo := 1) _ (by decide)
  | ltSend bytes => exact decode_transport (lo := 2) _ (by decide)
  | envConn role state => cases role <;> cases state <;> rfl

/-- Settles O57: each of the words is the encoding of its operation (O58). -/
theorem operationMapSamples : Obligations.OperationMapSamples :=
  ⟨decodeOfEncode (.rdTxSize true) rfl, decodeOfEncode (.wrTxSize false 0x0102) rfl,
    decodeOfEncode (.wrRam 0x1fff 0xff05) rfl, decodeOfEncode .tick rfl, decodeOfEncode (.rbRead .txq 1024) rfl,
    decodeOfEncode (.ltSend [0xab]) rfl, decodeOfEncode (.envConn .tx .connected) rfl⟩

/-! ### Reserved codes (R102) -/

section
variable (m : Bool) (q : RingId) {k lo : Nat} (ops : List Operand)

theorem decodeHostRead_ne_reserved (hk : k < 8) : decodeHostRead m k ops ≠ .error .reservedCode := by
  unfold decodeHostRead
  split
  · interval_cases k <;> simp
  · simp

theorem decodeHostWrite_ne_reserved (hk : k < 8) : decodeHostWrite m k ops ≠ .error .reservedCode := by
  unfold decodeHostWrite
  split
  · interval_cases k <;> simp
  · simp

theorem decodeRam_reserved_iff : decodeRam lo ops = .error .reservedCode ↔ 2 ≤ lo := by
  match lo with
  | 0 => simp only [decodeRam]; split <;> simp
  | 1 =>
    simp only [decodeRam]
    split
    · next a d =>
      cases ha : addrOperand a with
      | ok addr => simp
      | error e => simpa [ha] using addrOperand_ne_reserved a
    · simp
  | _ + 2 => simp [decodeRam]

theorem decodeReset_ne_reserved : decodeReset ops ≠ .error .reservedCode := by
  unfold decodeReset
  split
  · split <;> simp
  · simp

theorem decodeEvent_reserved_iff : decodeEvent lo ops = .error .reservedCode ↔ 3 ≤ lo := by
  match lo with
  | 0 | 2 => simp only [decodeEvent]; split <;> simp
  | 1 => simp [decodeEvent, decodeReset_ne_reserved]
  | _ + 3 => simp [decodeEvent]

theorem decodeRing_reserved_iff : decodeRing q k ops = .error .reservedCode ↔ 7 ≤ k := by
  match k with
  | 0 | 1 | 2 | 3 | 4 | 5 | 6 => simp only [decodeRing]; split <;> simp
  | _ + 7 => simp [decodeRing]

theorem decodeTransport_reserved_iff : decodeTransport lo ops = .error .reservedCode ↔ 3 ≤ lo := by
  match lo with
  | 0 | 1 | 2 => simp only [decodeTransport]; split <;> simp
  | _ + 3 => simp [decodeTransport]

theorem decodeEnv_reserved_iff : decodeEnv lo ops = .error .reservedCode ↔ lo = 3 ∨ 7 ≤ lo := by
  unfold decodeEnv
  split
  · match lo with
    | 0 | 1 | 2 | 3 | 4 | 5 | 6 => simp
    | _ + 7 => simp
  · split <;> simp [*]

end

/-- Settles O60: the form of the code byte, then the lemma of its format; the rest is where the byte lies. -/
theorem reservedCodesAreRefused : Obligations.ReservedCodesAreRefused := by
  intro op ops
  cases codeByte op with
  | hostRead m hk =>
    have hf := (hostRead_fields m _ hk).1
    unfold formatField at hf
    rw [decode_hostRead ops m hk, iff_false_left (decodeHostRead_ne_reserved m ops hk)]
    omega
  | hostWrite m hk =>
    have hf := (hostWrite_fields m _ hk).1
    unfold formatField at hf
    rw [decode_hostWrite ops m hk, iff_false_left (decodeHostWrite_ne_reserved m ops hk)]
    omega
  | ram hlo =>
    rw [decode_ram ops hlo, decodeRam_reserved_iff, BitVec.toNat_ofNat]
    omega
  | event hlo =>
    rw [decode_event ops hlo, decodeEvent_reserved_iff, BitVec.toNat_ofNat]
    omega
  | ring q hf =>
    obtain ⟨hformat, -, hlow⟩ := ring_fields q _ hf
    unfold formatField at hformat
    unfold low3 at hlow
    rw [decode_ring ops q hf, decodeRing_reserved_iff]
    omega
  | transport hlo =>
    rw [decode_transport ops hlo, decodeTransport_reserved_iff, BitVec.toNat_ofNat]
    omega
  | env hlo =>
    rw [decode_env ops hlo, decodeEnv_reserved_iff, BitVec.toNat_ofNat]
    omega
  | reserved hop =>
    rw [decode_reserved ops hop]
    simp only [true_iff]
    omega

end Sys2Proof

/-!
PROOFS. Steps that perform issued operations: the two copies of a register in the host's window (R92), and the
operations that drop a connection (R107).
-/
namespace Sys2Proof.Machine

/-! ### The mirrored window (R92) -/

/-- A register operation of the foreground, by its mirror bit, that completes in every state, with the same outcome for
both mirror bits. -/
def MirrorsAlike (f : Bool → Instr) : Prop :=
  (∀ m, owner (f m) = .fg) ∧ ∀ s : State, ∃ t, ∀ m, exec (f m) s = .next t

theorem decodeHostRead_mirrorsAlike {k : Nat} (hk : k < 8) :
    ∃ f, MirrorsAlike f ∧ ∀ m, decodeHostRead m k [] = .ok (f m) := by
  interval_cases k <;> exact ⟨_, ⟨fun _ => rfl, fun _ => ⟨_, fun _ => rfl⟩⟩, fun _ => rfl⟩

theorem decodeHostWrite_mirrorsAlike {k : Nat} (hk : k < 8) (d : Word) :
    ∃ f, MirrorsAlike f ∧ ∀ m, decodeHostWrite m k [.num d.toNat] = .ok (f m) := by
  have hd : wordOperand d.toNat = .ok d := wordOperand_eq_ok.mpr rfl
  simp only [decodeHostWrite, hd, withOperand]
  interval_cases k <;> exact ⟨_, ⟨fun _ => rfl, fun _ => ⟨_, fun _ => rfl⟩⟩, fun _ => rfl⟩

/-- Operation words that decode to the two copies of one register step alike. -/
theorem step_of_mirrorsAlike {f : Bool → Instr} (hf : MirrorsAlike f) {m m' : Bool} {w w' : OpWord}
    (hw : decode w = .ok (f m)) (hw' : decode w' = .ok (f m')) (inp : StepInput) (rest : List Issue) (s : State) :
    ∃ t, step { s with pending := ⟨.fg, w, inp⟩ :: rest } = .next t ∧
      step { s with pending := ⟨.fg, w', inp⟩ :: rest } = .next t := by
  obtain ⟨howner, hexec⟩ := hf
  obtain ⟨t, ht⟩ := hexec { s with inp := inp, pending := rest }
  have hstep {w : OpWord} {m : Bool} (hw : decode w = .ok (f m)) :
      step { s with pending := ⟨.fg, w, inp⟩ :: rest } = .next t := by
    rw [← ht m]
    exact stepRunsTheIssuedOperation.1 ⟨.fg, w, inp⟩ rest (f m) _ rfl hw (howner m).symm nofun
  exact ⟨t, hstep hw, hstep hw'⟩

/-- Window addresses `a` and `a + 8` spell the two copies of one register, for reads and for writes. -/
theorem window_codes : ∀ a : BitVec 4, ∃ m, ∃ k < 8,
    0x00#8 ||| a.setWidth 8 = hostCode 0x00 m (BitVec.ofNat 8 k) ∧
    0x00#8 ||| (a ^^^ 8).setWidth 8 = hostCode 0x00 (!m) (BitVec.ofNat 8 k) ∧
    0x10#8 ||| a.setWidth 8 = hostCode 0x10 m (BitVec.ofNat 8 k) ∧
    0x10#8 ||| (a ^^^ 8).setWidth 8 = hostCode 0x10 (!m) (BitVec.ofNat 8 k) := by decide

/-- Settles O7: the two addresses decode to the two copies of one register operation. -/
theorem mirroredWindowAddressesStepAlike : Obligations.MirroredWindowAddressesStepAlike := by
  intro a d inp rest s
  obtain ⟨m, k, hk, hrd, hrd', hwr, hwr'⟩ := window_codes a
  obtain ⟨f, hf, hdecode⟩ := decodeHostRead_mirrorsAlike hk
  obtain ⟨g, hg, hdecode'⟩ := decodeHostWrite_mirrorsAlike hk d
  have hread (m : Bool) := (decode_hostRead [] m hk).trans (hdecode m)
  have hwrite (m : Bool) := (decode_hostWrite [.num d.toNat] m hk).trans (hdecode' m)
  obtain ⟨t, ht, ht'⟩ := step_of_mirrorsAlike hf (hread m) (hread !m) inp rest s
  obtain ⟨u, hu, hu'⟩ := step_of_mirrorsAlike hg (hwrite m) (hwrite !m) inp rest s
  unfold rdRegIssue wrRegIssue
  rw [hrd, hrd', hwr, hwr']
  exact ⟨ht.trans ht'.symm, hu.trans hu'.symm, t, u, ht, hu⟩

/-! ### Dropping a connection (R107, R216) -/

/-- An operation issued with its own encoding by the agent that owns it is performed, the background running. -/
theorem step_of_issueOf {i : Instr} (hi : i.wf = true) {inp : StepInput} {rest : List Issue} {s t : State}
    (hb : s.bgRunning = true) (hp : s.pending = issueOf inp i :: rest)
    (he : exec i { s with inp := inp, pending := rest } = .next t) : step s = .next t :=
  (stepRunsTheIssuedOperation.1 _ rest i s hp (decodeOfEncode i hi) rfl fun _ => hb).trans he

theorem exec_envConn (role : Role) (c : RoleState) (s : State) :
    exec (.envConn role c) s = .next ((s.setConn role c).ret Result.nothing) := rfl

/-- The role of a ring leaves it, the ring is cleared, the role waits for the next connection. -/
theorem step_drop (q : RingId) {inp : StepInput} {rest : List Issue} {s : State} (hb : s.bgRunning = true)
    (hp : s.pending = issueOf inp (.envConn q.role .idle) :: issueOf inp (.rbClear q) ::
      issueOf inp (.envConn q.role .pending) :: rest) :
    ∃ t u, step s = .next t ∧ step t = .next u ∧ step u = .next
      { (s.setRing q (s.ring q).clear).setConn q.role .pending with
        inp := inp, pending := rest, out := Result.nothing } := by
  cases q <;>
  · refine ⟨_, _, step_of_issueOf rfl hb hp (exec_envConn ..), step_of_issueOf rfl hb rfl (exec_rbClear ..),
      step_of_issueOf rfl hb rfl ?_⟩
    simp only [exec_envConn, State.setConn, State.setRing, State.ret, State.ring, Ring.clear, RingId.role]

/-- Settles O54: the three operations of each drop, one step each. -/
theorem droppingAConnectionClearsItsRing : Obligations.DroppingAConnectionClearsItsRing :=
  fun _ _ _ hb => ⟨step_drop .rxq hb rfl, step_drop .txq hb rfl⟩

end Sys2Proof.Machine

/-!
PROOFS. Frames (R95 to R99, R189): the payload bytes as numbers, and the round trip of the sync-bit variant.
-/
namespace Sys2Proof.Machine

theorem toNat_highByte (w : Word) : (w.extractLsb' 8 8).toNat = w.toNat / 256 % 256 := by
  rw [BitVec.extractLsb'_toNat, Nat.shiftRight_eq_div_pow]

theorem toNat_lowByte (w : Word) : (w.extractLsb' 0 8).toNat = w.toNat % 256 := by
  rw [BitVec.extractLsb'_toNat, Nat.shiftRight_zero]

/-- A transmit word is the RAM entry, of which the no-sync variant keeps the low byte. -/
theorem toNat_txWord (nosync : Bool) (ram : Memory 9) (off : Word) (i : Nat) : (txWord nosync ram off i).toNat =
    if nosync then (Memory.read ram (txAddr off i)).toNat % 256 else (Memory.read ram (txAddr off i)).toNat := by
  have hentry := toNat_ramValue (Memory.read ram (txAddr off i))
  cases nosync
  · exact hentry
  · exact (maskSize_toNat _).trans (congrArg (· % 256) hentry)

/-- The mark of the no-sync variant is bit 0 of the last byte (R189). -/
theorem markEnd_getD (nosync : Bool) {n k : Nat} {l : List Byte} (hl : l.length = 2 * n) (hk : k < 2 * n) :
    (markEnd nosync n l).getD k 0 = l.getD k 0 ||| if nosync = true ∧ k + 1 = 2 * n then 0x01 else 0x00 := by
  have hlast : 2 * n - 1 = k ↔ k + 1 = 2 * n := by omega
  cases nosync
  · simp [markEnd]
  · rw [List.getD_eq_getElem _ _ (by rw [markEnd_length]; omega), List.getD_eq_getElem _ _ (by omega)]
    simp only [markEnd, if_true, List.getElem_modify, hlast, true_and]
    split <;> simp

/-- The two bytes of word `i` of a frame (R96, R189). -/
theorem frameByte_txWord (nosync : Bool) (id : Byte) (ram : Memory 9) (off : Word) {n i : Nat} (hi : i < n) :
    frameByte (buildFrame nosync id ram off n) (2 * i) = (txWord nosync ram off i).extractLsb' 8 8 ∧
    frameByte (buildFrame nosync id ram off n) (2 * i + 1) = (txWord nosync ram off i).extractLsb' 0 8 |||
      (if nosync = true ∧ i + 1 = n then 0x01 else 0x00) := by
  obtain ⟨hhigh, hlow⟩ := payload_getD nosync ram off hi
  have hl := payload_length nosync ram off n
  have hodd : ¬ 2 * i + 1 = 2 * n := by omega
  have hlast : 2 * i + 1 + 1 = 2 * n ↔ i + 1 = n := by omega
  rw [frameByte_payload _ _ _ _ (by omega), frameByte_payload _ _ _ _ (by omega), markEnd_getD nosync hl (by omega),
    markEnd_getD nosync hl (by omega), hhigh, hlow]
  simp [hodd, hlast]

/-- Settles O30: length, padding, identifier and count by the laws of the frame, each word by `frameByte_txWord`. -/
theorem frameLayout : Obligations.FrameLayout := by
  rintro nosync id ram off n - hn f rfl
  refine ⟨buildFrame_length nosync id ram off hn, frameByte_id nosync id ram off hn,
    frameCount_buildFrame nosync id ram off hn, fun k => frameByte_padding nosync id ram off, ?_⟩
  intro i hi w hw
  obtain ⟨hhigh, hlow⟩ := frameByte_txWord nosync id ram off hi
  have hread : Memory.read ram (txAddr off i) = w := hw.symm
  have hword := toNat_txWord nosync ram off i
  have hlt : w.toNat < 512 := w.isLt
  rw [hread] at hword
  rw [hhigh, hlow]
  constructor <;> rintro rfl
  · simp only [Bool.false_eq_true, false_and, if_false] at hword ⊢
    simp only [BitVec.ofNat_eq_ofNat, BitVec.or_zero, toNat_highByte, toNat_lowByte, hword]
    exact ⟨by omega, trivial⟩
  · simp only [if_true, true_and] at hword ⊢
    have hbyte : (txWord true ram off i).extractLsb' 0 8 = w.setWidth 8 := by
      apply BitVec.eq_of_toNat_eq
      rw [toNat_lowByte, hword, Nat.mod_mod, BitVec.toNat_setWidth]
    rw [hbyte, toNat_highByte, hword]
    exact ⟨by omega, rfl⟩

/-- Settles O31: the two bytes of a word (O30) put together again are the RAM entry. -/
theorem receiverUnpacksWhatWasPacked : Obligations.ReceiverUnpacksWhatWasPacked := by
  intro id ram off n hn
  refine ⟨frameCount_buildFrame false id ram off hn, fun i hi => ?_⟩
  obtain ⟨-, -, -, -, hwords⟩ := frameLayout false id ram off n (by omega) hn _ rfl
  obtain ⟨hhigh, hlow⟩ := (hwords i hi _ rfl).1 rfl
  unfold frameByte at hhigh hlow
  rw [ramData_rxWord, hhigh, hlow, Nat.div_add_mod']
  exact BitVec.ofNat_toNat 9 _

end Sys2Proof.Machine

/-!
PROOFS. What single operations do: register reads and writes (R151 to R168), `RB_CLEAR` (R127), `LT_CONNECTED` (R141).
-/
namespace Sys2Proof.Machine

theorem statusValue_eq (x : Regs) : statusValue x =
    x.status ||| (if x.txSize = 0 then 0x0004 else 0) ||| (if x.rxSize = 0 then 0x0008 else 0) := by
  simp only [statusValue, txDone, rxDone, beq_iff_eq]

/-- Settles O1: each read returns its register; STATUS and RXOFFSET add bits. -/
theorem hostReadsReturnTheRegisterMapValue : Obligations.HostReadsReturnTheRegisterMapValue := by
  intro m s
  rw [← statusValue_eq]
  exact ⟨rfl, rfl, rfl, rfl, rfl, rfl, rfl, rfl⟩

/-- Settles O4: each mask of R93 is the one the write applies. -/
theorem plainHostWritesStoreMaskedData : Obligations.PlainHostWritesStoreMaskedData :=
  fun _ _ _ => ⟨rfl, rfl, rfl, rfl, rfl, rfl⟩

/-- Settles O5: the delay of a masked size is below 2^16, so `txBlock` holds the product itself. -/
theorem txSizeWriteLoadsTxBlock : Obligations.TxSizeWriteLoadsTxBlock := by
  intro m d s
  have hsize : (maskSize d).toNat = d.toNat % 256 := maskSize_toNat d
  refine ⟨delayOf (maskSize d).toNat, rfl, ?_⟩
  rw [delayOf_toNat (by omega), hsize]

/-- Settles O17: `exec_rbClear`; the cursors of a cleared ring meet. -/
theorem ringClearEmptiesTheRing : Obligations.RingClearEmptiesTheRing := by
  refine fun q s => ⟨exec_rbClear q s, fun t ht => ?_⟩
  rw [exec_rbClear] at ht
  cases ht
  simp [Ring.free]

/-- Settles O21: `ltConnected` decides that both roles are connected. -/
theorem connectedNeedsBothRoles : Obligations.ConnectedNeedsBothRoles := by
  intro s
  have hconn : ltConnected s = decide (s.rxConn = .connected ∧ s.txConn = .connected) := by
    rw [ltConnected, Bool.decide_and, Bool.beq_eq_decide_eq, Bool.beq_eq_decide_eq]
  rw [← hconn]
  rfl

end Sys2Proof.Machine

/-!
PROOFS. `RB_READ`, `RB_PEEK`, `RB_CONSUME` (R122 to R124): the view each leaves, and how a peek, a consume and a read of
the same length go together.
-/
namespace Sys2Proof.Machine

variable {n : Nat} {v : RingView} {lag : Nat} {r : Ring}

/-- A read leaves the view it refreshed. -/
theorem Ring.read_wv (n : Nat) (v : RingView) (lag len : Nat) (q : Ring) :
    (q.read n v lag len).1.wv = (q.refresh n v lag .reader).wv := by
  rcases read_cases (n := n) v lag len q with ⟨-, e⟩ | ⟨-, e⟩
  · rw [e]
  · rw [e]
    rfl

/-- A peek stores nothing but the refreshed view (R123). -/
theorem Ring.peek_fst (n : Nat) (v : RingView) (lag len : Nat) (q : Ring) :
    (q.peek n v lag len).1 = q.refresh n v lag .reader := by
  rcases peek_cases (n := n) v lag len q with ⟨-, e⟩ | ⟨-, e⟩ <;> rw [e]

/-- A read answers what a peek answers (R122, R123). -/
theorem Ring.read_snd (n : Nat) (v : RingView) (lag len : Nat) (q : Ring) :
    (q.read n v lag len).2 = (q.peek n v lag len).2 := by
  unfold read peek
  dsimp only
  split <;> rfl

theorem Ring.peek_of_le {len : Nat} (hl : len ≤ (r.refresh n v lag .reader).usedBy n .reader) : r.peek n v lag len =
    (r.refresh n v lag .reader, Result.okWith (.bytes (getBytes n r.buf r.r len))) :=
  ((peek_cases v lag len r).resolve_left fun hfew => absurd hfew.1 (Nat.not_lt.mpr hl)).2

theorem Ring.read_of_le {len : Nat} (hl : len ≤ (r.refresh n v lag .reader).usedBy n .reader) : r.read n v lag len =
    (publishR v ((r.r + len) % n) (r.refresh n v lag .reader), Result.okWith (.bytes (getBytes n r.buf r.r len))) :=
  ((read_cases v lag len r).resolve_left fun hfew => absurd hfew.1 (Nat.not_lt.mpr hl)).2

theorem Ring.consume_of_le {k : Nat} (hl : k ≤ (r.refresh n v lag .reader).usedBy n .reader) : r.consume n v lag k =
    some (publishR v ((r.r + k) % n) (r.refresh n v lag .reader), Result.okWith .none) :=
  ((consume_cases v lag k r).resolve_left fun hfew => absurd hfew.1 (Nat.not_lt.mpr hl)).2

/-- A peek answers `Ok` exactly when it sees enough bytes (R123). -/
theorem Ring.peek_ok_iff {len : Nat} :
    (r.peek n v lag len).2.st = some .ok ↔ len ≤ (r.refresh n v lag .reader).usedBy n .reader := by
  rcases peek_cases (n := n) v lag len r with ⟨hl, e⟩ | ⟨hl, e⟩
  · simp [e, hl]
  · simp [e, hl]

/-- A peek of bytes the reader side has seen already answers them, whatever its view becomes (R123). -/
theorem exec_rbPeek_of_seen {q : RingId} {len : Nat} {s : State} (hq : (s.ring q).wf s.par.ringN = true)
    (hl : len ≤ (s.ring q).usedBy s.par.ringN .reader) : ∃ w, exec (.rbPeek q len) s =
      .next ((s.setRing q { s.ring q with wv := w }).ret
        (Result.okWith (.bytes (Ring.getBytes s.par.ringN (s.ring q).buf (s.ring q).r len)))) := by
  have hseen := Ring.usedBy_reader_refresh (v := s.par.ringView) (lag := s.inp.lagR) hq
  rw [exec_rbPeek, Ring.peek_of_le (hl.trans hseen)]
  exact ⟨_, rfl⟩

/-- Settles O12: the bounds are those of the refreshed view, and the two clauses are the two cases of
`Ring.read_cases`. -/
theorem ringReadIsAllOrNothing : Obligations.RingReadIsAllOrNothing := by
  intro q len s hs
  have hq := (hs.ring_sound q).wf
  refine ⟨_, _, exec_rbRead q len s, ?_⟩
  rw [Ring.read_wv, Ring.read_w]
  refine ⟨Ring.usedBy_reader_refresh hq, Ring.usedBy_reader_refresh_le hq, fun hsc => by rw [hsc]; rfl, ?_⟩
  rcases Ring.read_cases (n := s.par.ringN) s.par.ringView s.inp.lagR len (s.ring q) with ⟨hl, e⟩ | ⟨hl, e⟩ <;> rw [e]
  · exact ⟨rfl, rfl, fun hfit => absurd hfit (Nat.not_le.mpr hl), fun _ => ⟨rfl, rfl⟩⟩
  · exact ⟨rfl, rfl, fun _ => ⟨rfl, rfl, fun hv => by rw [hv]; rfl⟩, fun hfew => absurd hl (Nat.not_le.mpr hfew)⟩

/-- Settles O13: a second refresh shows the reader side no less (`Ring.usedBy_reader_refresh`), and a peek leaves the
bytes and the read cursor where they are. -/
theorem ringPeekReturnsWhatReadReturns : Obligations.RingPeekReturnsWhatReadReturns := by
  intro q len s hs
  have hread := exec_rbRead q len s
  have hpeek := exec_rbPeek q len s
  rw [Ring.read_snd] at hread
  rw [Ring.peek_fst] at hpeek
  refine ⟨_, _, _, hpeek, hread, Ring.read_wv .., fun inp hok => ?_⟩
  have hl := Ring.peek_ok_iff.mp hok
  have hwf := Ring.refresh_wf (v := s.par.ringView) (lag := s.inp.lagR) (side := .reader) (hs.ring_sound q).wf
  rw [Ring.peek_of_le hl]
  cases q <;> exact exec_rbPeek_of_seen hwf hl

/-- Settles O14: the view is the refreshed one, and the two clauses are the two cases of `Ring.consume_cases`; what an
earlier view counts, the refreshed one counts too. -/
theorem ringConsumeAdvancesOrIsRefused : Obligations.RingConsumeAdvancesOrIsRefused := by
  intro q n s hs
  have hq := (hs.ring_sound q).wf
  have hseen := Ring.usedBy_reader_refresh (v := s.par.ringView) (lag := s.inp.lagR) hq
  refine ⟨((s.ring q).refresh s.par.ringN s.par.ringView s.inp.lagR .reader).wv, hseen,
    Ring.usedBy_reader_refresh_le hq, fun hsc => by rw [hsc]; rfl, ?_⟩
  rw [exec_rbConsume]
  rcases Ring.consume_cases (n := s.par.ringN) s.par.ringView s.inp.lagR n (s.ring q) with ⟨hl, e⟩ | ⟨hl, e⟩ <;> rw [e]
  · exact ⟨fun hfit => absurd hfit (Nat.not_le.mpr hl), fun _ => rfl,
      fun hold => absurd (hold.trans hseen) (Nat.not_le.mpr hl)⟩
  · exact ⟨fun _ => ⟨_, rfl, fun hv => by rw [hv]; rfl⟩, fun hmore => absurd hl (Nat.not_le.mpr hmore), fun _ => ⟨_, rfl⟩⟩

/-- Settles O15: the consume takes the view the peek took, so its refresh changes nothing (`Ring.refresh_refresh`). -/
theorem peekThenConsumeIsRead : Obligations.PeekThenConsumeIsRead := by
  intro q n s t hs hpeek hok
  rw [exec_rbPeek] at hpeek
  cases hpeek
  have hl := Ring.peek_ok_iff.mp hok
  have hagain := Ring.refresh_refresh (v := s.par.ringView) (lag := s.inp.lagR) (side := .reader) (hs.ring_sound q).wf
  have hconsume := Ring.consume_of_le (n := s.par.ringN) (v := s.par.ringView) (lag := s.inp.lagR) (k := n)
    (hagain.symm ▸ hl)
  rw [hagain] at hconsume
  refine ⟨_, ?_, exec_rbRead q n s, by rw [Ring.read_snd]; rfl⟩
  rw [Ring.peek_of_le hl, Ring.read_of_le hl, exec_rbConsume]
  simp only [State.ret_ring, State.setRing_ring_same, State.ret_par, State.setRing_par, State.ret_inp,
    State.setRing_inp, hconsume]
  cases q <;> rfl

end Sys2Proof.Machine

/-!
PROOFS. The operations that answer a signal (R230 to R233), and which agent owns an operation (R120, R235, R245).
-/
namespace Sys2Proof.Machine

variable {s t : State}

/-! ### Signals -/

/-- A write that does not answer `Ok` refreshed the writer side's view (R121, R232). -/
theorem Ring.write_of_not_ok {n : Nat} {v : RingView} {lag : Nat} {bytes : List Byte} {q : Ring}
    (h : (q.write n v lag bytes).2.st ≠ some .ok) :
    q.write n v lag bytes = (q.refresh n v lag .writer, Result.signal .overflow) :=
  ((write_cases v lag bytes q).resolve_right fun hok => h (by rw [hok.2]; rfl)).2

/-- A peek that does not answer `Ok` refreshed the reader side's view (R123, R231). -/
theorem Ring.peek_of_not_ok {n : Nat} {v : RingView} {lag len : Nat} {q : Ring}
    (h : (q.peek n v lag len).2.st ≠ some .ok) :
    q.peek n v lag len = (q.refresh n v lag .reader, Result.signal .wouldBlock) :=
  ((peek_cases v lag len q).resolve_right fun hok => h (by rw [hok.2]; rfl)).2

/-- A read that does not answer `Ok` refreshed the reader side's view (R122, R231). -/
theorem Ring.read_of_not_ok {n : Nat} {v : RingView} {lag len : Nat} {q : Ring}
    (h : (q.read n v lag len).2.st ≠ some .ok) :
    q.read n v lag len = (q.refresh n v lag .reader, Result.signal .wouldBlock) :=
  ((read_cases v lag len q).resolve_right fun hok => h (by rw [hok.2]; rfl)).2

/-- The two things an operation that answers a signal can have done: nothing, or one view refresh (R128, R230). -/
def SignalEffect (s t : State) : Prop :=
  t = s.ret (.signal .notConnected) ∨
  ∃ (q : RingId) (side : Side) (lag : Nat) (c : ResultCode), c ≠ .notConnected ∧
    t = (s.setRing q ((s.ring q).refresh s.par.ringN s.par.ringView lag side)).ret (.signal c)

/-- A ring operation that did no more than refresh a view. -/
theorem SignalEffect.of_refresh {q : RingId} {side : Side} {lag : Nat} {c : ResultCode} {p : Ring × Result}
    (hp : p = ((s.ring q).refresh s.par.ringN s.par.ringView lag side, .signal c)) (hc : c ≠ .notConnected) :
    SignalEffect s ((s.setRing q p.1).ret p.2) :=
  .inr ⟨q, side, lag, c, hc, by rw [hp]⟩

/-- An operation that answers a result code other than `Ok` has one of the two effects. -/
theorem exec_signalEffect {i : Instr} {c : ResultCode} (h : exec i s = .next t) (hst : t.out.st = some c)
    (hc : c ≠ .ok) : SignalEffect s t := by
  have hne : t.out.st ≠ some .ok := fun e => hc (Option.some.inj (hst.symm.trans e))
  cases i with
  | rbWrite q bytes =>
    rw [exec_rbWrite] at h
    cases h
    exact .of_refresh (Ring.write_of_not_ok hne) nofun
  | rbRead q len =>
    rw [exec_rbRead] at h
    cases h
    exact .of_refresh (Ring.read_of_not_ok hne) nofun
  | rbPeek q len =>
    rw [exec_rbPeek] at h
    cases h
    exact .of_refresh (Ring.peek_of_not_ok hne) nofun
  | rbConsume q n =>
    obtain ⟨p, hp, rfl⟩ := execRbConsume_next h
    obtain ⟨r, hr, rfl⟩ := rbConsume_some hp
    rcases Ring.consume_cases (n := s.par.ringN) s.par.ringView (s.lag .reader) n (s.ring q) with ⟨-, e⟩ | ⟨-, e⟩ <;>
      rw [e] at hr <;> cases hr
    exact absurd rfl hne
  | ltReceive size =>
    cases h
    rcases ltReceive_cases (s.lag .reader) size s with ⟨-, e⟩ | ⟨-, -, e⟩ | ⟨-, -, e⟩ <;> rw [e] at hne ⊢
    · exact .inl rfl
    · exact absurd rfl hne
    · exact absurd rfl hne
  | ltSend bytes =>
    cases h
    rcases ltSend_cases (s.lag .writer) bytes s with ⟨-, e⟩ | ⟨-, -, e⟩ | ⟨-, -, e⟩ <;> rw [e] at hne ⊢
    · exact .inl rfl
    · exact .inr ⟨.txq, .writer, s.lag .writer, .overflow, nofun, rfl⟩
    · exact absurd rfl hne
  | tick =>
    obtain ⟨u, -, rfl⟩ := execTick_next h
    cases hst
  | reset lh lp rh rp fwd =>
    obtain ⟨-, rfl⟩ := execReset_next h
    cases hst
  | rbUsed | rbFree | rbClear | ltConnected => cases h; exact absurd rfl hne
  | rdStatus | rdMode | rdControl | rdStart | rdRxSize | rdTxSize | rdRxOffset | rdTxOffset | rdRam | wrStatus | wrMode
  | wrControl | wrStart | wrRxSize | wrTxSize | wrRxOffset | wrTxOffset | wrRam | stop | envConn => cases h; cases hst

/-- Settles O18: nothing changed is a view set to what it was; a refreshed view is within the bounds of R128. -/
theorem signalsChangeNothingButAView : Obligations.SignalsChangeNothingButAView := by
  intro i s t c h hst hc
  rcases exec_signalEffect h hst hc with rfl | ⟨q, side, lag, c', hc', rfl⟩
  · exact ⟨rfl, fun _ => rfl, .rxq, s.rxq.wv,
      .inl ⟨rfl, fun hs => ⟨le_refl _, Ring.usedBy_reader_le (hs.ring_sound .rxq).wf⟩⟩⟩
  · refine ⟨rfl, fun e => absurd (Option.some.inj (hst.trans (congrArg some e))) hc', q, ?_⟩
    cases side with
    | reader =>
      refine ⟨_, .inl ⟨rfl, fun hs => ?_⟩⟩
      have hq := (hs.ring_sound q).wf
      exact ⟨Ring.usedBy_reader_refresh hq, Ring.usedBy_reader_refresh_le hq⟩
    | writer =>
      refine ⟨_, .inr ⟨rfl, fun hs => ?_⟩⟩
      have hq := (hs.ring_sound q).wf
      have hr := Ring.refresh_wf (v := s.par.ringView) (lag := lag) (side := .writer) hq
      exact ⟨Ring.used_le_usedBy_writer hr, Ring.usedBy_writer_refresh hq⟩

/-! ### Ownership -/

theorem step_of_wrong_agent {iss : Issue} {rest : List Issue} {i : Instr} (hp : s.pending = iss :: rest)
    (hd : decode iss.word = .ok i) (ho : iss.agent ≠ owner i) : step s = .refused .wrongSide := by
  simp [step, hp, admitted, hd, admission, ho]

/-- The interrupt consumer owns nothing (R245). -/
theorem owner_ne_ic (i : Instr) : owner i ≠ .ic := by
  cases i with
  | rbWrite q | rbRead q | rbPeek q | rbConsume q => cases q <;> exact nofun
  | rbUsed q side | rbFree q side => cases q <;> cases side <;> exact nofun
  | _ => exact nofun

/-- Settles O56: `admission` tests the agent, and the table of `owner` is the one listed. -/
theorem wrongAgentIsRefused : Obligations.WrongAgentIsRefused := by
  refine ⟨fun iss rest i s => step_of_wrong_agent, owner_ne_ic, fun m d addr lh lp rh rp bytes f k => ?_,
    fun q role c => ⟨rfl, rfl⟩⟩
  simp [owner]

end Sys2Proof.Machine

/-!
PROOFS. A count is out of date in the safe direction only (R128, R282): what a side of a ring could move its cursor over,
it still can after any operation that does not move that cursor.
-/
namespace Sys2Proof.Machine

variable {s t : State} {q q' : RingId} {side : Side} {k : Nat}

/-! ### One ring -/

/-- How many bytes a side may move its cursor over: the writer's free bytes, the reader's used bytes (R125, R126). -/
def Ring.available (n : Nat) (side : Side) (r : Ring) : Nat :=
  match side with
  | .writer => freeBy n .writer r
  | .reader => usedBy n .reader r

/-- The ring is well formed and lets a side move its cursor over `k` bytes. -/
structure Ring.Offers (n : Nat) (side : Side) (k : Nat) (r : Ring) : Prop where
  wf : r.wf n = true
  le : k ≤ r.available n side

namespace Ring.Offers

variable {n lag : Nat} {v : RingView} {r : Ring}

/-- A refresh of either side's view shows each side no less than it saw (R128). -/
theorem refresh (h : r.Offers n side k) (side' : Side) : (r.refresh n v lag side').Offers n side k := by
  refine ⟨refresh_wf h.wf, h.le.trans ?_⟩
  cases side <;> cases side'
  · exact Nat.sub_le_sub_left (usedBy_writer_refresh h.wf) _
  · exact le_refl _
  · exact le_refl _
  · exact usedBy_reader_refresh h.wf

/-- A write that found room takes nothing from the reader side: under `stale` its view stays, under `sc` it is the write
cursor, which has moved on (R31, R131). -/
theorem written (h : r.Offers n .reader k) {bytes : List Byte}
    (hl : bytes.length ≤ freeBy n .writer (r.refresh n v lag .writer)) :
    (publishW v ((r.w + bytes.length) % n)
      { r.refresh n v lag .writer with buf := putBytes n r.buf r.w bytes }).Offers n .reader k := by
  have hwf := write_wf (v := v) (lag := lag) (bytes := bytes) h.wf
  have hwaiting := congrArg List.length (write_ok_contents h.wf hl)
  rcases write_cases (n := n) v lag bytes r with ⟨hlt, -⟩ | ⟨-, e⟩
  · omega
  rw [e] at hwf hwaiting
  simp only [contents_length, List.length_append] at hwaiting
  refine ⟨hwf, h.le.trans ?_⟩
  cases v with
  | stale => exact le_refl _
  | sc => exact (usedBy_reader_le h.wf).trans ((Nat.le_add_right _ _).trans_eq hwaiting.symm)

/-- A reader that moves over bytes it sees takes nothing from the writer side: under `stale` its view stays, under `sc` it
is the read cursor, which has moved on (R31, R131). -/
theorem advanced (h : r.Offers n .writer k) {len : Nat} (hl : len ≤ usedBy n .reader (r.refresh n v lag .reader)) :
    (publishR v ((r.r + len) % n) (r.refresh n v lag .reader)).Offers n .writer k := by
  have hr := refresh_wf (v := v) (lag := lag) (side := .reader) h.wf
  have hwaiting := congrArg List.length (advanced_contents h.wf hl)
  simp only [contents_length, List.length_drop] at hwaiting
  refine ⟨advance_wf hr hl, h.le.trans (Nat.sub_le_sub_left ?_ _)⟩
  cases v with
  | stale => exact le_refl _
  | sc => exact (hwaiting.trans_le (Nat.sub_le _ _)).trans (used_le_usedBy_writer h.wf)

/-- A write of no more bytes than the writer side was offered answers `Ok` (R121). -/
theorem write_ok (h : r.Offers n .writer k) (v : RingView) (lag : Nat) {bytes : List Byte} (hl : bytes.length ≤ k) :
    (r.write n v lag bytes).2.st = some .ok := by
  have hroom : bytes.length ≤ freeBy n .writer (r.refresh n v lag .writer) := hl.trans (h.refresh .writer).le
  rcases write_cases (n := n) v lag bytes r with ⟨hlt, -⟩ | ⟨-, e⟩
  · omega
  · rw [e]
    rfl

/-- A read of no more bytes than the reader side was offered answers `Ok` (R122). -/
theorem read_ok (h : r.Offers n .reader k) (v : RingView) (lag : Nat) {len : Nat} (hl : len ≤ k) :
    (r.read n v lag len).2.st = some .ok := by
  rw [read_of_le (hl.trans (h.refresh .reader).le)]
  rfl

end Ring.Offers

/-! ### Operations -/

/-- Whether a background operation may move the cursor of a side of ring `q` (R131). -/
def BgOp.movesCursor (side : Side) (q : RingId) (b : BgOp) : Bool :=
  match side with
  | .writer => b.movesWriteCursor q
  | .reader => b.movesReadCursor q

/-- Whether an operation with its inputs may move the cursor of a side of ring `q` (R131). -/
def movesCursor (side : Side) (q : RingId) (inp : StepInput) (i : Instr) : Bool :=
  match side with
  | .writer => movesWriteCursor q inp i
  | .reader => movesReadCursor q inp i

/-- Ring `q` of the state lets a side move its cursor over `k` bytes. -/
def State.Offers (q : RingId) (side : Side) (k : Nat) (s : State) : Prop := (s.ring q).Offers s.par.ringN side k

namespace State.Offers

/-- Replacing a ring of the state by one that offers the side as much. -/
theorem setRing (h : s.Offers q side k) {r : Ring} (hr : q' = q → r.Offers s.par.ringN side k) :
    (s.setRing q' r).Offers q side k := by
  unfold State.Offers
  rw [State.ring_setRing, State.setRing_par]
  split
  · next e => exact hr e.symm
  · exact h

theorem setRing_refresh (h : s.Offers q side k) (q' : RingId) (lag : Nat) (side' : Side) :
    (s.setRing q' ((s.ring q').refresh s.par.ringN s.par.ringView lag side')).Offers q side k :=
  h.setRing fun e => e ▸ Ring.Offers.refresh h side'

/-- The ring after a write that found room: another ring, or the reader side counts (R121). -/
theorem setRing_written (h : s.Offers q side k) (hm : side = .writer → q' ≠ q) {lag : Nat} {bytes : List Byte}
    (hl : bytes.length ≤
      Ring.freeBy s.par.ringN .writer ((s.ring q').refresh s.par.ringN s.par.ringView lag .writer)) :
    (s.setRing q' (Ring.publishW s.par.ringView (((s.ring q').w + bytes.length) % s.par.ringN)
      { (s.ring q').refresh s.par.ringN s.par.ringView lag .writer with
        buf := Ring.putBytes s.par.ringN (s.ring q').buf (s.ring q').w bytes })).Offers q side k := by
  refine h.setRing fun e => ?_
  subst e
  cases side with
  | writer => exact absurd rfl (hm rfl)
  | reader => exact Ring.Offers.written h hl

/-- The ring after its reader moved over bytes it sees: another ring, or the writer side counts (R122, R124). -/
theorem setRing_advanced (h : s.Offers q side k) (hm : side = .reader → q' ≠ q) {lag len : Nat}
    (hl : len ≤ Ring.usedBy s.par.ringN .reader ((s.ring q').refresh s.par.ringN s.par.ringView lag .reader)) :
    (s.setRing q' (Ring.publishR s.par.ringView (((s.ring q').r + len) % s.par.ringN)
      ((s.ring q').refresh s.par.ringN s.par.ringView lag .reader))).Offers q side k := by
  refine h.setRing fun e => ?_
  subst e
  cases side with
  | writer => exact Ring.Offers.advanced h hl
  | reader => exact absurd rfl (hm rfl)

theorem rbWrite (h : s.Offers q side k) (hm : side = .writer → q' ≠ q) (lag : Nat) (bytes : List Byte) :
    (rbWrite q' lag bytes s).1.Offers q side k := by
  unfold Machine.rbWrite applyRing
  rcases Ring.write_cases (n := s.par.ringN) s.par.ringView lag bytes (s.ring q') with ⟨-, e⟩ | ⟨hl, e⟩ <;> rw [e]
  · exact h.setRing_refresh q' lag .writer
  · exact h.setRing_written hm hl

theorem rbRead (h : s.Offers q side k) (hm : side = .reader → q' ≠ q) (lag len : Nat) :
    (rbRead q' lag len s).1.Offers q side k := by
  unfold Machine.rbRead applyRing
  rcases Ring.read_cases (n := s.par.ringN) s.par.ringView lag len (s.ring q') with ⟨-, e⟩ | ⟨hl, e⟩ <;> rw [e]
  · exact h.setRing_refresh q' lag .reader
  · exact h.setRing_advanced hm hl

theorem rbPeek (h : s.Offers q side k) (q' : RingId) (lag len : Nat) : (rbPeek q' lag len s).1.Offers q side k := by
  unfold Machine.rbPeek applyRing
  rw [Ring.peek_fst]
  exact h.setRing_refresh q' lag .reader

theorem rbConsume (h : s.Offers q side k) (hm : side = .reader → q' ≠ q) {lag len : Nat} {p : State × Result}
    (hp : rbConsume q' lag len s = some p) : p.1.Offers q side k := by
  obtain ⟨r, hr, rfl⟩ := rbConsume_some hp
  rcases Ring.consume_cases (n := s.par.ringN) s.par.ringView lag len (s.ring q') with ⟨-, e⟩ | ⟨hl, e⟩ <;>
    rw [e] at hr <;> cases hr
  exact h.setRing_advanced hm hl

theorem rbClear (h : s.Offers q side k) (hm : q' ≠ q) : (rbClear q' s).Offers q side k :=
  h.setRing fun e => absurd e hm

theorem setConn (h : s.Offers q side k) (role : Role) (c : RoleState) : (s.setConn role c).Offers q side k := by
  cases role <;> cases q <;> exact h

/-- `LT_RECEIVE` reads `RXQ` or less (R142). -/
theorem ltReceive (h : s.Offers q side k) (hm : side = .reader → .rxq ≠ q) (lag size : Nat) :
    (ltReceive lag size s).1.Offers q side k := by
  rcases ltReceive_cases lag size s with ⟨-, e⟩ | ⟨-, -, e⟩ | ⟨-, hl, e⟩ <;> rw [e]
  · exact h
  · exact h.setRing_refresh .rxq lag .reader
  · exact h.setRing_advanced (q' := .rxq) hm hl

/-- `LT_SEND` writes `TXQ` or less (R143). -/
theorem ltSend (h : s.Offers q side k) (hm : side = .writer → .txq ≠ q) (lag : Nat) (bytes : List Byte) :
    (ltSend lag bytes s).1.Offers q side k := by
  rcases ltSend_cases lag bytes s with ⟨-, e⟩ | ⟨-, -, e⟩ | ⟨-, hl, e⟩ <;> rw [e]
  · exact h
  · exact h.setRing_refresh .txq lag .writer
  · have hwritten := h.setRing_written (q' := .txq) hm hl
    cases q <;> exact hwritten

/-! ### The tick (R181, R182) -/

theorem tickCounters (h : s.Offers q side k) : (tickCounters s).Offers q side k := by
  rw [tickCounters_eq]
  cases q <;> exact h

theorem tickTransmit (h : s.Offers q side k) (hm : side = .writer → .txq ≠ q) : (tickTransmit s).Offers q side k := by
  rcases tickTransmit_cases s with ⟨-, e⟩ | ⟨-, -, e⟩ | ⟨-, -, -, e⟩ | ⟨-, -, hl, e⟩ <;> rw [e]
  · exact h
  · exact h
  · exact h.setRing_refresh .txq s.inp.lagW .writer
  · have hwritten := h.setRing_written (q' := .txq) hm hl
    cases q <;> exact hwritten

theorem unpackFrame (h : s.Offers q side k) (f : List Byte) : (unpackFrame f s).Offers q side k := by
  cases q <;> exact h

theorem tickReceive (h : s.Offers q side k) (hm : side = .reader → .rxq ≠ q) : (tickReceive s).Offers q side k := by
  rcases tickReceive_cases s with ⟨-, e⟩ | ⟨-, -, e⟩ | ⟨-, -, -, e⟩ | ⟨-, -, hl, e⟩ <;> rw [e]
  · exact h
  · exact h
  · exact h.setRing_refresh .rxq s.inp.lagR .reader
  · exact (h.setRing_advanced (q' := .rxq) hm hl).unpackFrame _

theorem runBgOp (h : s.Offers q side k) {m : MidOp} (hm : m.op.movesCursor side q = false) {p : State × Result}
    (hp : runBgOp m s = .ok p) : p.1.Offers q side k := by
  obtain ⟨op, lag⟩ := m
  cases op <;> simp only [Machine.runBgOp] at hp
  case consume n =>
    split at hp
    · next hc =>
      cases hp
      exact h.rbConsume (by rintro rfl rfl; cases hm) hc
    · cases hp
  all_goals cases hp
  case write bytes => exact h.rbWrite (by rintro rfl rfl; cases hm) lag bytes
  case read len => exact h.rbRead (by rintro rfl rfl; cases hm) lag len
  case peek len => exact h.rbPeek .txq lag len
  case used q' => exact h.setRing_refresh q' lag (bgSide q')
  case free q' => exact h.setRing_refresh q' lag (bgSide q')
  case clear q' => exact h.rbClear (by rintro rfl; cases side <;> cases q' <;> cases hm)
  case envConn role c => exact h.setConn role c

theorem runMid (h : s.Offers q side k) {l : List MidOp} (hm : ∀ m ∈ l, m.op.movesCursor side q = false)
    (hl : runMid l s = .ok t) : t.Offers q side k := by
  induction l generalizing s with
  | nil => cases hl; exact h
  | cons m rest ih =>
    obtain ⟨hfirst, hrest⟩ := List.forall_mem_cons.mp hm
    unfold Machine.runMid at hl
    split at hl
    · split at hl
      · next p hp =>
        have hnext := h.runBgOp hfirst hp
        exact ih (by cases q <;> exact hnext) hrest hl
      · cases hl
    · cases hl

/-- A tick moves the write cursor of `TXQ` and the read cursor of `RXQ`, and what the operations inside it move. -/
theorem execTick (h : s.Offers q side k) (hm : movesCursor side q s.inp .tick = false) (ht : execTick s = .next t) :
    t.Offers q side k := by
  obtain ⟨u, hu, rfl⟩ := execTick_next ht
  have hmid : ∀ m ∈ s.inp.mid, m.op.movesCursor side q = false := by
    intro m hmem
    cases side <;> exact Bool.eq_false_iff.mpr (List.any_eq_false.mp (Bool.or_eq_false_iff.mp hm).2 m hmem)
  have hsend : side = .writer → .txq ≠ q := by rintro rfl rfl; cases hm
  have hreceive : side = .reader → .rxq ≠ q := by rintro rfl rfl; cases hm
  have hstart : State.Offers q side k { s with midOut := [] } := by cases q <;> exact h
  have hafter := ((hstart.tickCounters.tickTransmit hsend).runMid hmid hu).tickReceive hreceive
  cases q <;> exact hafter

/-! ### All operations -/

/-- An operation that does not move the cursor of a side leaves it what it offered. -/
theorem exec {i : Instr} (h : s.Offers q side k) (hm : movesCursor side q s.inp i = false) (he : exec i s = .next t) :
    t.Offers q side k := by
  cases i with
  | rdStatus | rdMode | rdControl | rdStart | rdRxSize | rdTxSize | rdRxOffset | rdTxOffset | rdRam | wrStatus | wrMode
  | wrControl | wrStart | wrRxSize | wrTxSize | wrRxOffset | wrTxOffset | wrRam | stop | ltConnected =>
    cases he
    cases q <;> exact h
  | tick => exact h.execTick hm he
  | reset lh lp rh rp fwd => cases side <;> cases hm
  | rbWrite q' bytes => cases he; exact h.rbWrite (by rintro rfl rfl; cases q' <;> cases hm) _ bytes
  | rbRead q' len => cases he; exact h.rbRead (by rintro rfl rfl; cases q' <;> cases hm) _ len
  | rbPeek q' len => cases he; exact h.rbPeek q' _ len
  | rbConsume q' n =>
    obtain ⟨p, hp, rfl⟩ := execRbConsume_next he
    exact h.rbConsume (by rintro rfl rfl; cases q' <;> cases hm) hp
  | rbUsed q' side' => cases he; exact h.setRing_refresh q' _ side'
  | rbFree q' side' => cases he; exact h.setRing_refresh q' _ side'
  | rbClear q' => cases he; exact h.rbClear (by rintro rfl; cases side <;> cases q' <;> cases hm)
  | ltReceive size => cases he; exact h.ltReceive (by rintro rfl rfl; cases hm) _ size
  | ltSend bytes => cases he; exact h.ltSend (by rintro rfl rfl; cases hm) _ bytes
  | envConn role c => cases he; exact h.setConn role c

theorem runOps {l : List (Instr × StepInput)} (h : s.Offers q side k)
    (hm : ∀ p ∈ l, movesCursor side q p.2 p.1 = false) (hl : runOps l s = .next t) : t.Offers q side k := by
  induction l generalizing s with
  | nil => cases hl; exact h
  | cons op rest ih =>
    obtain ⟨hfirst, hrest⟩ := List.forall_mem_cons.mp hm
    unfold Machine.runOps at hl
    split at hl
    · next u hu =>
      have hstart : State.Offers q side k { s with inp := op.2 } := by cases q <;> exact h
      exact ih (hstart.exec hfirst hu) hrest hl
    · cases hl
    · cases hl

/-- The ring a count leaves offers the side what it counted (R125, R126). -/
theorem of_refresh (hs : s.Inv) (q : RingId) (side : Side) (lag : Nat) (r : Result) :
    ((s.setRing q ((s.ring q).refresh s.par.ringN s.par.ringView lag side)).ret r).Offers q side
      (((s.ring q).refresh s.par.ringN s.par.ringView lag side).available s.par.ringN side) := by
  unfold State.Offers
  rw [State.ret_ring, State.setRing_ring_same, State.ret_par, State.setRing_par]
  exact ⟨Ring.refresh_wf (hs.ring_sound q).wf, le_refl _⟩

/-- A write of no more bytes than offered answers `Ok`, whatever its view (R121). -/
theorem exec_rbWrite_ok (h : s.Offers q .writer k) {bytes : List Byte} (hl : bytes.length ≤ k) (inp : StepInput) :
    ∃ t, Machine.exec (.rbWrite q bytes) { s with inp := inp } = .next t ∧ t.out.st = some .ok :=
  ⟨_, exec_rbWrite .., by cases q <;> exact Ring.Offers.write_ok h s.par.ringView inp.lagW hl⟩

/-- A read of no more bytes than offered answers `Ok`, whatever its view (R122). -/
theorem exec_rbRead_ok (h : s.Offers q .reader k) {len : Nat} (hl : len ≤ k) (inp : StepInput) :
    ∃ t, Machine.exec (.rbRead q len) { s with inp := inp } = .next t ∧ t.out.st = some .ok :=
  ⟨_, exec_rbRead .., by cases q <;> exact Ring.Offers.read_ok h s.par.ringView inp.lagR hl⟩

end State.Offers

/-- Settles O19: the count is what the refreshed ring offers, every operation in between keeps the offer
(`State.Offers.runOps`), and the write or read stays within it. -/
theorem sizingByASnapshotNeverFails : Obligations.SizingByASnapshotNeverFails := by
  intro q l inp s t u k hs hk hu
  constructor
  · intro hfree hl bytes hbytes
    rw [exec_rbFree] at hfree
    cases hfree
    cases hk
    exact ((State.Offers.of_refresh hs q .writer _ _).runOps hl hu).exec_rbWrite_ok hbytes inp
  · intro hused hl len hlen
    rw [exec_rbUsed] at hused
    cases hused
    cases hk
    exact ((State.Offers.of_refresh hs q .reader _ _).runOps hl hu).exec_rbRead_ok hlen inp

end Sys2Proof.Machine

/-!
PROOFS. Background operations inside a tick and issued alone (R124, R182). They touch the rings and the roles only, so a
tick in which neither pass runs performs them on the rings and roles the state had before it.
-/
namespace Sys2Proof.Machine

variable {s b : State} {m : MidOp} {inp : StepInput}

/-! ### One background operation, inside a tick and alone -/

theorem exec_rbConsume_of_some {q : RingId} {n : Nat} {p : Ring × Result}
    (h : (s.ring q).consume s.par.ringN s.par.ringView s.inp.lagR n = some p) :
    exec (.rbConsume q n) s = .next ((s.setRing q p.1).ret p.2) := by
  rw [exec_rbConsume, h]

theorem exec_rbConsume_of_none {q : RingId} {n : Nat}
    (h : (s.ring q).consume s.par.ringN s.par.ringView s.inp.lagR n = none) :
    exec (.rbConsume q n) s = .refused .consumeBeyondUsed := by
  rw [exec_rbConsume, h]

theorem rbConsume_none {q : RingId} {lag n : Nat} (h : rbConsume q lag n s = none) :
    (s.ring q).consume s.par.ringN s.par.ringView lag n = none := by
  unfold rbConsume at h
  split at h
  · cases h
  · assumption

/-- The inputs under which a background operation inside a tick, issued on its own, makes the same choice of view. -/
def MidOp.inputs (inp : StepInput) (m : MidOp) : StepInput := { inp with lagW := m.lag, lagR := m.lag }

/-- A background operation that runs inside a tick runs alike on its own. -/
theorem exec_of_runBgOp_ok {p : State × Result} (h : runBgOp m s = .ok p) (inp : StepInput) :
    exec m.op.instr { s with inp := m.inputs inp } = .next { p.1 with inp := m.inputs inp, out := p.2 } := by
  obtain ⟨op, lag⟩ := m
  cases op <;> simp only [runBgOp] at h
  case consume n =>
    split at h
    · next hp =>
      cases h
      obtain ⟨r, hr, rfl⟩ := rbConsume_some hp
      exact exec_rbConsume_of_some (q := .txq) hr
    · cases h
  all_goals cases h
  case write bytes => rfl
  case read len => rfl
  case peek len => rfl
  case used q => cases q <;> rfl
  case free q => cases q <;> rfl
  case clear q => cases q <;> rfl
  case envConn role c => cases role <;> rfl

/-- A background operation that is refused inside a tick is refused alike on its own. -/
theorem exec_of_runBgOp_error {e : Refusal} (h : runBgOp m s = .error e) (inp : StepInput) :
    exec m.op.instr { s with inp := m.inputs inp } = .refused e := by
  obtain ⟨op, lag⟩ := m
  cases op <;> simp only [runBgOp] at h
  case consume n =>
    split at h
    · cases h
    · next hp =>
      cases h
      have hn := rbConsume_none hp
      exact exec_rbConsume_of_none (q := .txq) hn
  all_goals cases h

/-! ### The rings and roles the background works on -/

/-- The state `b` with the rings and the role states of `s`, and what a background operation reads beside them. -/
def State.onto (s b : State) : State :=
  { b with par := s.par, rxq := s.rxq, txq := s.txq, rxConn := s.rxConn, txConn := s.txConn, bgRunning := s.bgRunning }

theorem rbConsume_onto (q : RingId) (lag n : Nat) : rbConsume q lag n (s.onto b) =
    (rbConsume q lag n s).map fun p => (p.1.onto b, p.2) := by
  have hq : (s.onto b).ring q = s.ring q := by cases q <;> rfl
  have hp : (s.onto b).par = s.par := rfl
  unfold rbConsume
  rw [hq, hp]
  cases (s.ring q).consume s.par.ringN s.par.ringView lag n
  · rfl
  · cases q <;> rfl

/-- A background operation touches nothing but rings and roles, and answers by them. -/
theorem runBgOp_onto (m : MidOp) (s b : State) :
    runBgOp m (s.onto b) = (runBgOp m s).map fun p => (p.1.onto b, p.2) := by
  obtain ⟨op, lag⟩ := m
  cases op with
  | consume n =>
    simp only [runBgOp, rbConsume_onto]
    cases rbConsume .txq lag n s <;> rfl
  | write bytes => rfl
  | read len => rfl
  | peek len => rfl
  | used q => cases q <;> rfl
  | free q => cases q <;> rfl
  | clear q => cases q <;> rfl
  | envConn role c => cases role <;> rfl

theorem runBgOp_bgRunning {p : State × Result} (h : runBgOp m s = .ok p) : p.1.bgRunning = s.bgRunning := by
  obtain ⟨_, _, _, _, e⟩ := runBgOp_frame h
  rw [e]

/-! ### The background operations of a tick, one after the other -/

/-- The background operations of a list as operations issued alone. -/
def aloneOps (inp : StepInput) (l : List MidOp) : List (Instr × StepInput) :=
  l.map fun m => (m.op.instr, m.inputs inp)

/-- The background operations of a list run inside a tick: each is performed, and its result kept. -/
theorem runMid_cons_ok {rest : List MidOp} {p : State × Result} (hb : s.bgRunning = true) (hm : runBgOp m s = .ok p) :
    runMid (m :: rest) (s.onto b) = runMid rest (p.1.onto { b with midOut := b.midOut ++ [p.2] }) := by
  have hrun : (s.onto b).bgRunning = true := hb
  simp only [runMid, hrun, runBgOp_onto, hm, Except.map, if_true]
  rfl

theorem runMid_cons_error {rest : List MidOp} {e : Refusal} (hb : s.bgRunning = true) (hm : runBgOp m s = .error e) :
    runMid (m :: rest) (s.onto b) = .error e := by
  have hrun : (s.onto b).bgRunning = true := hb
  simp only [runMid, hrun, runBgOp_onto, hm, Except.map, if_true]

/-- What the background operations inside a tick do, they do one after the other on their own: the results kept are
theirs, the last one standing in the result port; or one of them is refused either way. -/
theorem runMid_eq_runOps (l : List MidOp) (hb : s.bgRunning = true) :
    (∃ (u : State) (outs : List Result), runOps (aloneOps inp l) s = .next u ∧
      runMid l (s.onto b) = .ok (u.onto { b with midOut := b.midOut ++ outs }) ∧
      outs.length = l.length ∧ outs.getLastD s.out = u.out) ∨
    ∃ e, runOps (aloneOps inp l) s = .refused e ∧ runMid l (s.onto b) = .error e := by
  induction l generalizing s b with
  | nil => exact .inl ⟨s, [], rfl, by simp [runMid], rfl, rfl⟩
  | cons m rest ih =>
    cases hm : runBgOp m s with
    | error e =>
      refine .inr ⟨e, ?_, runMid_cons_error hb hm⟩
      simp only [aloneOps, List.map_cons, runOps, exec_of_runBgOp_error hm]
    | ok p =>
      have halone : runOps (aloneOps inp (m :: rest)) s =
          runOps (aloneOps inp rest) { p.1 with inp := m.inputs inp, out := p.2 } := by
        simp only [aloneOps, List.map_cons, runOps, exec_of_runBgOp_ok hm]
      rw [halone, runMid_cons_ok hb hm]
      rcases ih (s := { p.1 with inp := m.inputs inp, out := p.2 }) (b := { b with midOut := b.midOut ++ [p.2] })
        ((runBgOp_bgRunning hm).trans hb) with ⟨u, outs, hu, hr, hlen, hlast⟩ | he
      · refine .inl ⟨u, p.2 :: outs, hu, hr.trans ?_, congrArg (· + 1) hlen, (List.getLastD_cons ..).trans hlast⟩
        simp
      · exact .inr he

/-! ### A tick in which neither pass runs -/

/-- A counter above 1 does not reach 0 in this tick (R187). -/
theorem countDown_ne_zero {v : Word} (h : 1 < v.toNat) : (if v = 0 then 0 else v - 1 : Word) ≠ 0 := by
  intro h0
  have hdown := toNat_countDown v
  rw [h0] at hdown
  have : (0 : Word).toNat = 0 := rfl
  omega

/-- The transmit pass stays closed over a tick in which a counter runs on, or the block is halted or has nothing to send
(R188). -/
theorem not_txGate_tickCounters
    (h : 1 < s.txBlock.toNat ∨ s.txDelay.toNat ≠ 0 ∨ s.x.control.getLsbD 0 = true ∨ s.x.txSize = 0) :
    ¬ txGate (tickCounters s) := by
  intro hg
  have hdelay := txDelay_eq_zero_of_txGate hg
  obtain ⟨hblock, -, hhalt, hsize⟩ := hg
  rw [tickCounters_eq] at hblock hhalt hsize
  rcases h with h | h | h | h
  · exact countDown_ne_zero h hblock
  · exact h (by rw [hdelay]; rfl)
  · exact absurd (hhalt.symm.trans h) nofun
  · simp [h] at hsize

theorem tickTransmit_of_not_txGate (h : ¬ txGate s) : tickTransmit s = s := by
  rcases tickTransmit_cases s with ⟨-, e⟩ | ⟨hg, -⟩ | ⟨hg, -⟩ | ⟨hg, -⟩
  · exact e
  all_goals exact absurd hg h

theorem tickBefore_rxDelay (s : State) : (tickBefore s).rxDelay = if s.rxDelay = 0 then 0 else s.rxDelay - 1 := by
  obtain ⟨_, _, _, _, _, _, _, _, _, e⟩ := tickBefore_frame s
  rw [e]

/-- With the transmit pass closed, the background operations of a tick find the rings and roles the state had (R181). -/
theorem tickBefore_onto (h : ¬ txGate (tickCounters s)) : tickBefore s = s.onto (tickBefore s) := by
  rw [tickBefore_eq, tickTransmit_of_not_txGate h, tickCounters_eq]
  rfl

/-- While the receive counter runs on, step 7 does nothing (R191). -/
theorem tickReceive_of_rxDelay (h : s.rxDelay ≠ 0) : tickReceive s = s := if_neg h

/-- A tick in which neither pass runs performs its background operations, as they are on their own, or is refused with
them. -/
theorem execTick_of_closed_passes (hb : s.bgRunning = true) (hrx : 1 < s.rxDelay.toNat)
    (htx : 1 < s.txBlock.toNat ∨ s.txDelay.toNat ≠ 0 ∨ s.x.control.getLsbD 0 = true ∨ s.x.txSize = 0) :
    (∃ (u b : State) (outs : List Result), runOps (aloneOps s.inp s.inp.mid) s = .next u ∧
      execTick s = .next (u.onto { b with midOut := outs }).done ∧
      outs.length = s.inp.mid.length ∧ outs.getLastD s.out = u.out) ∨
    ∃ e, runOps (aloneOps s.inp s.inp.mid) s = .refused e ∧ execTick s = .refused e := by
  have honto := tickBefore_onto (s := { s with midOut := [] }) (not_txGate_tickCounters htx)
  have hout := tickBefore_midOut { s with midOut := [] }
  have hdelay := tickBefore_rxDelay { s with midOut := [] }
  generalize hbefore : tickBefore { s with midOut := [] } = b at honto hout hdelay
  rcases runMid_eq_runOps (inp := s.inp) (b := b) s.inp.mid hb with ⟨u, outs, hu, hmid, hlen, hlast⟩ | ⟨e, he, hmid⟩
  · rw [hout, List.nil_append] at hmid
    have ht := execTick_of_runMid ((congrArg (runMid s.inp.mid) (hbefore.trans honto)).trans hmid)
    have hclosed : (u.onto { b with midOut := outs }).rxDelay ≠ 0 := hdelay ▸ countDown_ne_zero hrx
    rw [tickReceive_of_rxDelay hclosed] at ht
    exact .inl ⟨u, b, outs, hu, ht, hlen, hlast⟩
  · refine .inr ⟨e, he, ?_⟩
    rw [execTick, (congrArg (runMid s.inp.mid) (hbefore.trans honto)).trans hmid]

/-- Settles O25: the operations are compared one by one, then in a row, as the tick performs them
(`execTick_of_closed_passes`). -/
theorem backgroundOpsInsideATickActAsAlone : Obligations.BackgroundOpsInsideATickActAsAlone := by
  refine ⟨fun m u _ => ?_, fun s hb hrx htx => ?_⟩
  · cases hm : runBgOp m u with
    | ok p => exact exec_of_runBgOp_ok hm u.inp
    | error e => exact exec_of_runBgOp_error hm u.inp
  · rcases execTick_of_closed_passes hb hrx htx with ⟨u, b, outs, hu, ht, hlen, hlast⟩ | ⟨e, he, ht⟩
    · simp only [aloneOps, MidOp.inputs] at hu
      rw [hu]
      refine ⟨_, ht, rfl, rfl, rfl, rfl, hlen, fun hne => ?_⟩
      have houts : outs ≠ [] := List.ne_nil_of_length_pos (hlen ▸ List.length_pos_of_ne_nil hne)
      obtain ⟨o, rest, rfl⟩ := List.exists_cons_of_ne_nil houts
      rw [← hlast, List.getLastD_cons]
      exact List.getLast?_cons.trans (congrArg some List.getLastD_eq_getLast?.symm)
    · simp only [aloneOps, MidOp.inputs] at he
      rw [he]
      exact ht

end Sys2Proof.Machine

/-!
PROOFS. `LT_RECEIVE` and `LT_SEND` as polls of the rings (R142, R143, R239): in each case of `ltReceive_cases` and
`ltSend_cases`, what the ring operation of the same length leaves.
-/
namespace Sys2Proof.Machine

section
variable {n : Nat} {v : RingView} {lag : Nat} {r : Ring}

theorem Ring.read_of_lt {len : Nat} (hl : (r.refresh n v lag .reader).usedBy n .reader < len) :
    r.read n v lag len = (r.refresh n v lag .reader, Result.signal .wouldBlock) :=
  ((read_cases v lag len r).resolve_right fun hok => absurd hok.1 (Nat.not_le.mpr hl)).2

theorem Ring.write_of_lt {bytes : List Byte} (hl : (r.refresh n v lag .writer).freeBy n .writer < bytes.length) :
    r.write n v lag bytes = (r.refresh n v lag .writer, Result.signal .overflow) :=
  ((write_cases v lag bytes r).resolve_right fun hok => absurd hok.1 (Nat.not_le.mpr hl)).2

theorem Ring.write_of_le {bytes : List Byte} (hl : bytes.length ≤ (r.refresh n v lag .writer).freeBy n .writer) :
    r.write n v lag bytes =
      (publishW v ((r.w + bytes.length) % n) { r.refresh n v lag .writer with buf := putBytes n r.buf r.w bytes },
        Result.okWith (.nat bytes.length)) :=
  ((write_cases v lag bytes r).resolve_left fun hfew => absurd hfew.1 (Nat.not_lt.mpr hl)).2

end

theorem exec_ltReceive (size : Nat) (s : State) : exec (.ltReceive size) s =
    .next ((ltReceive s.inp.lagR size s).1.ret (ltReceive s.inp.lagR size s).2) := rfl

theorem exec_ltSend (bytes : List Byte) (s : State) : exec (.ltSend bytes) s =
    .next ((ltSend s.inp.lagW bytes s).1.ret (ltSend s.inp.lagW bytes s).2) := rfl

/-- Settles O22: the three cases of `ltReceive_cases`; in the connected ones the bytes the reader side sees decide the read
of `RXQ` alike. -/
theorem receivePollsTheInboundRing : Obligations.ReceivePollsTheInboundRing := by
  intro size s _
  rw [exec_ltReceive, exec_rbRead, State.ring_rxq]
  rcases ltReceive_cases s.inp.lagR size s with ⟨hc, e⟩ | ⟨hc, hfew, e⟩ | ⟨hc, hfit, e⟩ <;> rw [e]
  · exact ⟨fun _ => rfl, fun h => absurd h hc⟩
  · rw [Ring.read_of_lt hfew]
    refine ⟨fun h => absurd hc h, fun _ => ⟨_, [], ?_, rfl, nofun, fun _ => ⟨rfl, rfl, rfl⟩⟩⟩
    rfl
  · rw [Ring.read_of_le hfit]
    refine ⟨fun h => absurd hc h, fun _ => ⟨_, Ring.getBytes s.par.ringN s.rxq.buf s.rxq.r size, ?_, rfl,
      fun _ => ⟨rfl, Ring.getBytes_length ..⟩, fun h => absurd rfl h⟩⟩
    rfl

/-- Settles O23: the three cases of `ltSend_cases`; in the connected ones the room the writer side sees decides the write
of `TXQ` alike, and only the one that writes can kick the drain. -/
theorem sendWritesTheOutboundRing : Obligations.SendWritesTheOutboundRing := by
  intro bytes s _
  rw [exec_ltSend, exec_rbWrite, State.ring_txq]
  rcases ltSend_cases s.inp.lagW bytes s with ⟨hc, e⟩ | ⟨hc, hover, e⟩ | ⟨hc, hfit, e⟩ <;> rw [e]
  · exact ⟨fun _ => rfl, fun h => absurd h hc⟩
  · rw [Ring.write_of_lt hover]
    exact ⟨fun h => absurd hc h, fun _ => ⟨_, rfl, rfl, .inr ⟨rfl, rfl⟩⟩⟩
  · rw [Ring.write_of_le hfit]
    refine ⟨fun h => absurd hc h, fun _ => ⟨_, rfl, ?_, .inl rfl⟩⟩
    simp only [State.ret, State.setRing, okWith_st, true_and]
    rfl

end Sys2Proof.Machine

/-!
PROOFS. Host accesses (R92, R151 to R161): a register read stays within the mask of R93, and what a STATUS write does.
-/
namespace Sys2Proof.Machine

/-! ### Register reads -/

/-- A word below the power of two a mask ends at has no bit outside the mask. -/
theorem and_not_eq_zero {v mask : Word} {k : Nat} (hmask : mask.toNat = 2 ^ k - 1) (hv : v.toNat < 2 ^ k) :
    v &&& ~~~mask = 0 := by
  have hkept : v &&& mask = v := by
    apply BitVec.eq_of_toNat_eq
    rw [BitVec.toNat_and, hmask, Nat.and_two_pow_sub_one_of_lt_two_pow hv]
  rw [← hkept, BitVec.and_assoc]
  simp

/-- The stored STATUS and the two computed bits lie in the low four bits (R21, R151). -/
theorem toNat_statusValue_lt {p : Params} {x : Regs} (h : Regs.Within p x) : (statusValue x).toNat < 2 ^ 4 := by
  have hsync : ∀ b : Fin 2, (1#16 <<< b.val).toNat < 2 ^ 4 := by decide
  have hstored : x.status.toNat < 2 ^ 4 := by
    rcases h.status with e | e <;> rw [e]
    · decide
    · exact hsync p.syncBit
  rw [statusValue, BitVec.toNat_or, BitVec.toNat_or]
  refine Nat.or_lt_two_pow (Nat.or_lt_two_pow hstored ?_) ?_ <;> split <;> decide

/-- Bit 12, which a read of RXOFFSET sets, lies within its mask (R157). -/
theorem toNat_or_0x1000_lt {v : Word} (h : v.toNat ≤ 0x1fff) : (v ||| 0x1000).toNat < 2 ^ 13 := by
  rw [BitVec.toNat_or]
  exact Nat.or_lt_two_pow (Nat.lt_succ_of_le h) (by decide)

/-- Settles O3: each register lies within its mask (R20), and so do the bits a read of STATUS or RXOFFSET adds. -/
theorem hostReadsStayInsideTheMask : Obligations.HostReadsStayInsideTheMask := by
  intro m s hs
  have hx := hs.regs
  refine ⟨?_, fun addr => ⟨_, rfl⟩⟩
  simp only [List.forall_mem_cons]
  refine ⟨⟨_, rfl, and_not_eq_zero (k := 4) rfl (toNat_statusValue_lt hx), nofun⟩,
    ⟨_, rfl, and_not_eq_zero (k := 4) rfl (Nat.lt_succ_of_le hx.mode), nofun⟩,
    ⟨_, rfl, and_not_eq_zero (k := 2) rfl (Nat.lt_succ_of_le hx.control), nofun⟩,
    ⟨_, rfl, and_not_eq_zero (k := 2) rfl (Nat.lt_succ_of_le hx.start), nofun⟩,
    ⟨_, rfl, and_not_eq_zero (k := 8) rfl (Nat.lt_succ_of_le hx.rxSize), nofun⟩,
    ⟨_, rfl, and_not_eq_zero (k := 8) rfl (Nat.lt_succ_of_le hx.txSize), nofun⟩,
    ⟨_, rfl, and_not_eq_zero (k := 13) rfl (toNat_or_0x1000_lt hx.rxOffset), fun _ => ?_⟩,
    ⟨_, rfl, and_not_eq_zero (k := 13) rfl (Nat.lt_succ_of_le hx.txOffset), nofun⟩, nofun⟩
  simp

/-! ### The STATUS write -/

/-- Settles O6: a STATUS write is an acknowledge, which drops the data (R161). -/
theorem statusWriteAcknowledges : Obligations.StatusWriteAcknowledges := fun _ _ _ => rfl

end Sys2Proof.Machine

/-!
PROOFS. The timeline of one transmit (R166, R187, R188, R190, R194). What a tick with no background operation inside it
does to the transmit side is said once; the state after `k` ticks then follows, in each of the phases of R194.
-/
namespace Sys2Proof.Machine

variable {s t : State} {v k : Nat}

/-! ### One tick -/

@[simp] theorem tickCounters_par (s : State) : (tickCounters s).par = s.par := by rw [tickCounters_eq]
@[simp] theorem tickCounters_txq (s : State) : (tickCounters s).txq = s.txq := by rw [tickCounters_eq]
@[simp] theorem tickCounters_txConn (s : State) : (tickCounters s).txConn = s.txConn := by rw [tickCounters_eq]
@[simp] theorem tickCounters_linkId (s : State) : (tickCounters s).linkId = s.linkId := by rw [tickCounters_eq]

theorem tickCounters_txSize (h : s.txDelay = 0) : (tickCounters s).x.txSize = s.x.txSize := by
  rw [tickCounters_eq]
  simp [h]

/-- What the transmit side of a tick with no background operation inside it is: the counters of R187, then the pass. -/
structure TransmitStep (s t : State) : Prop where
  par     : t.par = s.par
  linkId  : t.linkId = s.linkId
  control : t.x.control = s.x.control
  txConn  : t.txConn = s.txConn
  txBlock : t.txBlock.toNat = s.txBlock.toNat - 1
  txSize  : t.x.txSize = if s.txDelay = 1 then 0 else s.x.txSize
  txq     : t.txq = (tickTransmit (tickCounters s)).txq
  txDelay : t.txDelay = (tickTransmit (tickCounters s)).txDelay

/-- Results kept from the tick before play no part (log entry 8). -/
theorem execTick_transmitStep (h : s.inp.mid = []) :
    ∃ t, execTick s = .next t ∧ TransmitStep { s with midOut := [] } t := by
  refine ⟨_, execTick_quiet h, ?_⟩
  generalize ({ s with midOut := [] } : State) = u
  obtain ⟨q, n, d, hbefore⟩ := tickTransmit_frame (tickCounters u)
  generalize hw : tickTransmit (tickCounters u) = w at hbefore ⊢
  obtain ⟨_, _, _, _, _, _, hreceive⟩ := tickReceive_frame w
  rw [tickCounters_eq] at hbefore
  rw [hreceive]
  constructor
  case txq => rw [hw]; rfl
  case txDelay => rw [hw]; rfl
  case txBlock => rw [hbefore]; exact toNat_countDown _
  all_goals rw [hbefore]; rfl

theorem runTicks_cons {inp : StepInput} (h : execTick { s with inp := inp } = .next t) (rest : List StepInput) :
    runTicks (inp :: rest) s = runTicks rest t := by
  have hexec : exec .tick { s with inp := inp } = .next t := h
  simp only [runTicks, List.map_cons, runOps, hexec]

/-- The transmit pass is open in the tick in which `txBlock` runs out, when `txDelay` is 0, the block is not halted and
there is something to send (R188). -/
theorem txGate_tickCounters (hblock : s.txBlock.toNat ≤ 1) (hdelay : s.txDelay = 0)
    (hrun : s.x.control.getLsbD 0 = false) (hsize : s.x.txSize ≠ 0) : txGate (tickCounters s) := by
  have hout : (if s.txBlock = 0 then 0 else s.txBlock - 1 : Word) = 0 := by
    apply BitVec.eq_of_toNat_eq
    rw [toNat_countDown]
    exact Nat.sub_eq_zero_of_le hblock
  rw [tickCounters_eq]
  refine ⟨hout, by simp [hdelay], hrun, ?_⟩
  simpa [hdelay] using hsize

/-- A frame is 1024 bytes and names the link and the word count (R95, R98). -/
theorem txFrame_spec (h : s.x.txSize.toNat ≤ 255) : (txFrame s).length = 1024 ∧ frameByte (txFrame s) 1022 = s.linkId ∧
    (frameByte (txFrame s) 1023).toNat = s.x.txSize.toNat :=
  ⟨buildFrame_length _ _ _ _ h, frameByte_id _ _ _ _ h, frameCount_buildFrame _ _ _ _ h⟩

/-- With the pass open, the role connected and room for a frame in the writer side's view, step 6 appends the frame and
loads the delay (R188 to R190). -/
theorem tickTransmit_of_room (hg : txGate s) (hc : s.txConn = .connected) (hq : s.txq.wf s.par.ringN = true)
    (hroom : (txFrame s).length ≤ s.txq.freeBy s.par.ringN .writer) :
    (tickTransmit s).txDelay = delayOf s.x.txSize.toNat ∧
    (tickTransmit s).txq.contents s.par.ringN = s.txq.contents s.par.ringN ++ txFrame s := by
  have hle := hroom.trans (Nat.sub_le_sub_left
    (Ring.usedBy_writer_refresh (v := s.par.ringView) (lag := s.inp.lagW) hq) (s.par.ringN - 1))
  rcases tickTransmit_cases s with ⟨hclosed, -⟩ | ⟨-, hidle, -⟩ | ⟨-, -, hfull, -⟩ | ⟨-, -, hl, e⟩
  · exact absurd hg hclosed
  · exact absurd hc hidle
  · exact absurd hle (Nat.not_le.mpr hfull)
  · have hcontents := Ring.write_ok_contents hq hl
    rw [Ring.write_of_le hl] at hcontents
    rw [e]
    exact ⟨rfl, hcontents⟩

namespace TransmitStep

/-- With the pass closed nothing is queued, and the delay runs on. -/
theorem of_closed (h : TransmitStep s t) (hg : ¬ txGate (tickCounters s)) :
    t.txq = s.txq ∧ t.txDelay.toNat = s.txDelay.toNat - 1 := by
  rw [h.txq, h.txDelay, tickTransmit_of_not_txGate hg, tickCounters_eq]
  exact ⟨rfl, toNat_countDown _⟩

end TransmitStep

/-! ### The state after `k` ticks -/

/-- Not halted, connected, and room for a frame in the writer side's view, so that a send succeeds (R188). -/
structure TransmitReady (s : State) : Prop where
  wf      : s.txq.wf s.par.ringN = true
  running : s.x.control.getLsbD 0 = false
  txConn  : s.txConn = .connected
  room    : 1024 ≤ s.txq.freeBy s.par.ringN .writer

/-- Where a transmit of `v` words stands `k` ticks after TXSIZE was written in state `s` (R194). -/
structure TransmitAt (s : State) (v k : Nat) (t : State) : Prop where
  par     : t.par = s.par
  linkId  : t.linkId = s.linkId
  control : t.x.control = s.x.control
  txConn  : t.txConn = s.txConn
  txBlock : t.txBlock.toNat = 12 * v - k
  waiting : k < 12 * v → t.txDelay = 0 ∧ t.x.txSize.toNat = v ∧ t.txq = s.txq
  sent    : 12 * v ≤ k → t.txDelay.toNat = 24 * v - k ∧ t.x.txSize.toNat = (if k = 24 * v then 0 else v) ∧
    ∃ f : List Byte, f.length = 1024 ∧ frameByte f 1022 = s.linkId ∧ (frameByte f 1023).toNat = v ∧
      t.txq.contents s.par.ringN = s.txq.contents s.par.ringN ++ f

namespace TransmitAt

variable {s0 : State}

/-- Neither the inputs of the next tick nor the results kept play a part. -/
theorem setInputs (h : TransmitAt s0 v k s) (inp : StepInput) (o : List Result) :
    TransmitAt s0 v k { s with inp := inp, midOut := o } := { h with }

/-- While TXSIZE waits for `txBlock` to run out, a tick queues nothing (R187). -/
theorem step_waiting (h : TransmitAt s0 v k s) (hk : k + 1 < 12 * v) (ht : TransmitStep s t) :
    t.txDelay = 0 ∧ t.x.txSize.toNat = v ∧ t.txq = s0.txq := by
  obtain ⟨hdelay, hsize, hq⟩ := h.waiting (by omega)
  have hblock : 1 < s.txBlock.toNat := by rw [h.txBlock]; omega
  obtain ⟨htq, htd⟩ := ht.of_closed (not_txGate_tickCounters (.inl hblock))
  refine ⟨?_, ?_, htq.trans hq⟩
  · rw [hdelay] at htd
    exact BitVec.eq_of_toNat_eq htd
  · rw [ht.txSize, hdelay]
    exact hsize

/-- The tick in which `txBlock` runs out sends the frame (R188 to R190). -/
theorem step_sends (h : TransmitAt s0 v k s) (hs : TransmitReady s0) (hv : v ≤ 255) (hk : k + 1 = 12 * v)
    (ht : TransmitStep s t) : t.txDelay.toNat = 12 * v ∧ t.x.txSize.toNat = v ∧
    ∃ f : List Byte, f.length = 1024 ∧ frameByte f 1022 = s0.linkId ∧ (frameByte f 1023).toNat = v ∧
      t.txq.contents s0.par.ringN = s0.txq.contents s0.par.ringN ++ f := by
  obtain ⟨hdelay, hsize, hq⟩ := h.waiting (by omega)
  have hblock : s.txBlock.toNat ≤ 1 := by rw [h.txBlock]; omega
  have hne : s.x.txSize ≠ 0 := by
    intro e
    rw [e] at hsize
    have : v = 0 := hsize.symm
    omega
  have hg := txGate_tickCounters hblock hdelay (h.control ▸ hs.running) hne
  have hcount := tickCounters_txSize hdelay
  obtain ⟨hlen, hlink, hwords⟩ := txFrame_spec (s := tickCounters s) (by rw [hcount, hsize]; exact hv)
  obtain ⟨hload, hcontents⟩ := tickTransmit_of_room hg
    (by simp [h.txConn, hs.txConn]) (by simp [h.par, hq, hs.wf]) (by simp [hlen, h.par, hq, hs.room])
  rw [hcount, hsize] at hload hwords
  rw [tickCounters_par, tickCounters_txq, h.par, hq] at hcontents
  rw [tickCounters_linkId, h.linkId] at hlink
  refine ⟨?_, ?_, _, hlen, hlink, hwords, ht.txq ▸ hcontents⟩
  · rw [ht.txDelay, hload, delayOf_toNat hv, Nat.mul_comm]
  · rw [ht.txSize, hdelay]
    exact hsize

/-- While `txDelay` runs nothing more is queued, and the tick in which it runs out clears TXSIZE (R187). -/
theorem step_delayed (h : TransmitAt s0 v k s) (hk : 12 * v ≤ k) (hk' : k < 24 * v) (ht : TransmitStep s t) :
    t.txDelay.toNat = 24 * v - (k + 1) ∧ t.x.txSize.toNat = (if k + 1 = 24 * v then 0 else v) ∧ t.txq = s.txq := by
  obtain ⟨hdelay, hsize, -⟩ := h.sent hk
  obtain ⟨htq, htd⟩ := ht.of_closed (not_txGate_tickCounters (.inr (.inl (by omega))))
  have hlast : s.txDelay = 1 ↔ k + 1 = 24 * v := by
    rw [← BitVec.toNat_inj, hdelay]
    change 24 * v - k = 1 ↔ k + 1 = 24 * v
    omega
  refine ⟨by omega, ?_, htq⟩
  rw [if_neg hk'.ne] at hsize
  rw [ht.txSize, apply_ite BitVec.toNat, hsize]
  exact if_congr hlast rfl rfl

/-- One tick on: waiting, sending or delayed. -/
theorem step (h : TransmitAt s0 v k s) (hs : TransmitReady s0) (hv : v ≤ 255) (hk : k < 24 * v) (ht : TransmitStep s t) :
    TransmitAt s0 v (k + 1) t where
  par := ht.par.trans h.par
  linkId := ht.linkId.trans h.linkId
  control := ht.control.trans h.control
  txConn := ht.txConn.trans h.txConn
  txBlock := by rw [ht.txBlock, h.txBlock]; rfl
  waiting hlt := h.step_waiting hlt ht
  sent hle := by
    rcases hle.eq_or_lt with heq | hlt
    · obtain ⟨hdelay, hsize, hframe⟩ := h.step_sends hs hv heq.symm ht
      exact ⟨by omega, by rw [hsize, if_neg (by omega)], hframe⟩
    · have hle' : 12 * v ≤ k := by omega
      obtain ⟨hdelay, hsize, htq⟩ := h.step_delayed hle' hk ht
      obtain ⟨-, -, hframe⟩ := h.sent hle'
      exact ⟨hdelay, hsize, htq ▸ hframe⟩

/-- A list of ticks on, within the 24 `v` ticks of R194. -/
theorem runTicks {inps : List StepInput} (h : TransmitAt s0 v k s) (hs : TransmitReady s0) (hv : v ≤ 255)
    (hquiet : ∀ inp ∈ inps, inp.mid = []) (hk : k + inps.length ≤ 24 * v) :
    ∃ t, runTicks inps s = .next t ∧ TransmitAt s0 v (k + inps.length) t := by
  induction inps generalizing k s with
  | nil => exact ⟨s, rfl, h⟩
  | cons inp rest ih =>
    obtain ⟨hfirst, hrest⟩ := List.forall_mem_cons.mp hquiet
    rw [List.length_cons] at hk
    obtain ⟨u, hu, hstep⟩ := execTick_transmitStep (s := { s with inp := inp }) hfirst
    obtain ⟨t, ht, hat⟩ := ih ((h.setInputs inp []).step hs hv (by omega) hstep) hrest (by omega)
    refine ⟨t, ?_, ?_⟩
    · exact (runTicks_cons hu rest).trans ht
    · rwa [List.length_cons, ← Nat.add_assoc, Nat.add_right_comm]

/-- The state right after TXSIZE was written (R166). -/
theorem of_wrTxSize {m : Bool} {d : Word} (hd : s.txDelay = 0) (hv : v = d.toNat % 256) (hpos : 1 ≤ v)
    (h : exec (.wrTxSize m d) s = .next t) : TransmitAt s v 0 t := by
  obtain ⟨b, hnext, hb⟩ := txSizeWriteLoadsTxBlock m d s
  rw [hnext] at h
  cases h
  have hsize : (d &&& 0x00ff).toNat = v := (maskSize_toNat d).trans hv.symm
  exact ⟨rfl, rfl, rfl, rfl, by dsimp only; omega, fun _ => ⟨hd, hsize, rfl⟩, fun _ => by omega⟩

end TransmitAt

/-- Settles O37: the write of TXSIZE starts the timeline (`TransmitAt.of_wrTxSize`), and each tick moves it on
(`TransmitAt.step`). -/
theorem transmitTimeline : Obligations.TransmitTimeline := by
  intro m d s s1 v inps hs hv hpos hd hrun hc hroom hwrite hquiet hlen
  have hready : TransmitReady s := ⟨hs.txq, hrun, hc, hroom⟩
  obtain ⟨t, ht, hat⟩ :=
    (TransmitAt.of_wrTxSize hd hv hpos hwrite).runTicks hready (by omega) hquiet (by rwa [Nat.zero_add])
  rw [Nat.zero_add] at hat
  refine ⟨t, ht, hat.txBlock, fun hlt => ?_, hat.sent⟩
  obtain ⟨hdelay, hsize, hq⟩ := hat.waiting hlt
  exact ⟨hdelay, hsize, by rw [hq]⟩

end Sys2Proof.Machine

/-!
PROOFS. What every tick does to the latch, MODE and the counters, whatever background operations fall inside it (R183 to
R187): steps 6 and 7 and the background leave them as steps 1 to 5 left them.
-/
namespace Sys2Proof.Machine

variable {s t : State}

/-- A tick leaves the interrupt, MODE and TXSIZE as steps 1 to 5 left them (`tickCounters_eq`), and each delay counter
that runs on is one lower. -/
structure TickCounted (s t : State) : Prop where
  irqLatch  : t.irqLatch = latchAfterPolicy s
  irqHold   : t.irqHold = if latchAfterPolicy s = latchAfterHold s then s.irqHold - 1 else 4
  irqEvents : t.irqEvents =
    if latchAfterPolicy s = latchAfterHold s then eventsAfterHold s else eventsAfterHold s ++ [policyNow s]
  mode      : t.x.mode = if policyNow s then 0x000f else s.x.mode
  txSize    : t.x.txSize = if s.txDelay = 1 then 0 else s.x.txSize
  txBlock   : t.txBlock.toNat = s.txBlock.toNat - 1
  txDelay   : s.txDelay ≠ 0 → t.txDelay.toNat = s.txDelay.toNat - 1
  rxDelay   : 1 < s.rxDelay.toNat → t.rxDelay.toNat = s.rxDelay.toNat - 1

/-- Step 7 leaves a receive counter that runs on (R191). -/
theorem tickReceive_rxDelay (h : s.rxDelay ≠ 0) : (tickReceive s).rxDelay = s.rxDelay := by
  rw [tickReceive_of_rxDelay h]

/-- While `txDelay` runs, step 6 sends nothing and so loads no delay (R188). -/
theorem tickTransmit_txDelay (h : s.txDelay ≠ 0) :
    (tickTransmit (tickCounters s)).txDelay.toNat = s.txDelay.toNat - 1 := by
  rw [tickTransmit_of_not_txGate fun hg => h (txDelay_eq_zero_of_txGate hg), tickCounters_eq]
  exact toNat_countDown _

theorem execTick_counted (h : execTick s = .next t) : TickCounted s t := by
  obtain ⟨u, hu, rfl⟩ := execTick_next h
  have hdelay := tickTransmit_txDelay (s := { s with midOut := [] })
  have hrunning := tickReceive_rxDelay (s := u)
  obtain ⟨_, _, _, _, _, _, hreceive⟩ := tickReceive_frame u
  obtain ⟨_, _, _, _, _, hmid⟩ := runMid_frame hu
  obtain ⟨_, _, _, hbefore⟩ := tickTransmit_frame (tickCounters { s with midOut := [] })
  rw [hreceive] at hrunning ⊢
  rw [tickBefore_eq] at hmid
  rw [hbefore] at hdelay hmid
  rw [tickCounters_eq] at hmid
  subst hmid
  exact {
    irqLatch := rfl
    irqHold := rfl
    irqEvents := rfl
    mode := rfl
    txSize := rfl
    txBlock := toNat_countDown _
    txDelay := hdelay
    rxDelay := fun hr => (congrArg BitVec.toNat (hrunning (countDown_ne_zero hr))).trans (toNat_countDown _) }

/-! ### The delay counters (R187) -/

/-- Settles O29: the counters that run on are those of `TickCounted`, and TXSIZE is cleared exactly where `txDelay` was 1. -/
theorem delayCountersCountDown : Obligations.DelayCountersCountDown := by
  intro s t h
  have ht := execTick_counted h
  have hone : s.txDelay = 1 ↔ s.txDelay.toNat = 1 := BitVec.toNat_inj.symm
  have hzero : s.txDelay = 0 ↔ s.txDelay.toNat = 0 := BitVec.toNat_inj.symm
  have hsize := ht.txSize
  have hdelay := ht.txDelay
  simp only [hone, ne_eq, hzero] at hsize hdelay
  refine ⟨ht.txBlock, fun hd => ⟨hdelay (by omega), ?_⟩, fun hd => ⟨?_, ?_⟩, fun hd => ?_, ht.rxDelay⟩
  · rw [hsize, if_neg (by omega)]
  · rw [hdelay (by omega), hd]
  · rw [hsize, if_pos hd]
  · rw [hsize, if_neg (by omega)]

/-! ### The latch (R183, R185, R186) -/

/-- Settles O28: `l1` and `e1` are the latch and the notifications after step 1, and the latch step 2 leaves differs from
`l1` exactly where the statement says so. -/
theorem latchAndHoldOverOneTick : Obligations.LatchAndHoldOverOneTick := by
  rintro s t h a l1 e1 rfl hl1 he1
  have ht := execTick_counted h
  have hlatch := ht.irqLatch
  have hhold := ht.irqHold
  have hevents := ht.irqEvents
  have hl : latchAfterHold s = l1 := hl1.symm
  have he : eventsAfterHold s = e1 := he1.symm
  rw [hl] at hhold hevents
  rw [he] at hevents
  refine ⟨fun hf => ?_, fun hf => ?_, ht.mode⟩
  · have hp : latchAfterPolicy s = policyNow s := by simp [latchAfterPolicy, hf]
    rw [hp] at hlatch hhold hevents
    exact ⟨hlatch, by rw [hhold, ite_not], by rw [hevents, ite_not]⟩
  · have hp : latchAfterPolicy s = (policyNow s || l1) := by simp [latchAfterPolicy, hf, hl]
    rw [hp] at hlatch hhold hevents
    refine ⟨hlatch, ?_, ?_⟩
    · rw [hhold]; cases policyNow s <;> cases l1 <;> rfl
    · rw [hevents]; cases policyNow s <;> cases l1 <;> rfl

/-! ### The policy table (R184) -/

/-- The rows of R184 as intervals of MODE. -/
theorem policy_eq_table : ∀ m < 16, ∀ rx0 tx0 sy : Bool, policy m rx0 tx0 sy =
    ((decide (m ≤ 3) && (rx0 || tx0)) || (decide (4 ≤ m ∧ m ≤ 5) && (rx0 || sy)) ||
      (decide (6 ≤ m ∧ m ≤ 7) && rx0) || (decide (8 ≤ m ∧ m ≤ 11) && tx0) || (decide (12 ≤ m ∧ m ≤ 13) && sy)) := by
  decide

/-- MODE stores no bit outside its mask (R20), so the policy reads it whole. -/
theorem policyNow_of_mode_le (h : s.x.mode.toNat ≤ 0x000f) :
    policyNow s = policy s.x.mode.toNat (decide (s.x.rxSize = 0)) (decide (s.x.txSize = 0))
      (s.x.status.getLsbD s.par.syncBit.val) := by
  have hmask : (s.x.mode &&& 0x000f).toNat = s.x.mode.toNat :=
    ((BitVec.toNat_and _ _).trans (Nat.and_two_pow_sub_one_eq_mod _ 4)).trans (Nat.mod_eq_of_lt (by omega))
  rw [policyNow, hmask]
  simp only [rxDone, txDone, syncFlag, Bool.beq_eq_decide_eq]

/-- From a latch that is false with the hold counter at 0, step 1 changes nothing, and both values of `IRQ_FOLLOW` agree
(R183, R185). -/
theorem TickCounted.of_silent (h : TickCounted s t) (hl : s.irqLatch = false) (hh : s.irqHold = 0) :
    t.irqLatch = policyNow s ∧ t.irqHold = (if policyNow s then 4 else 0) ∧
      t.irqEvents = if policyNow s then s.irqEvents ++ [true] else s.irqEvents := by
  have hhold : latchAfterHold s = false := by simp [latchAfterHold, hl]
  have hevents : eventsAfterHold s = s.irqEvents := by simp [eventsAfterHold, hl]
  have hpolicy : latchAfterPolicy s = policyNow s := by simp [latchAfterPolicy, hhold]
  rw [h.irqLatch, h.irqHold, h.irqEvents, hpolicy, hhold, hevents, hh]
  cases policyNow s <;> exact ⟨rfl, rfl, rfl⟩

/-- Settles O27: the policy is the table (`policy_eq_table`), MODE follows it in every tick, and the interrupt does where
it was silent (`TickCounted.of_silent`). -/
theorem policyTableDecidesAssertion : Obligations.PolicyTableDecidesAssertion := by
  rintro s t hs h m rx0 tx0 sy asserts rfl rfl rfl rfl hasserts
  have ht := execTick_counted h
  have hmode := hs.regs.mode
  have hpolicy : policyNow s = asserts := by
    rw [policyNow_of_mode_le hmode, policy_eq_table _ (Nat.lt_succ_of_le hmode), hasserts]
  refine ⟨hpolicy, hpolicy ▸ ht.mode, fun hl hh => ?_⟩
  obtain ⟨hlatch, hhold, hevents⟩ := ht.of_silent hl hh
  rw [hpolicy] at hlatch hhold hevents
  constructor
  · rintro rfl
    exact ⟨hlatch, hhold, hevents⟩
  · rintro rfl
    exact ⟨hlatch, hhold, hevents⟩

/-! ### Who sets the latch, and who writes MODE (R186, R237, R238) -/

/-- A tick that finds the latch false and leaves it true asserted (R185, R238). -/
theorem TickCounted.policyNow_of_set (h : TickCounted s t) (hl : s.irqLatch = false) (hl' : t.irqLatch = true) :
    policyNow s = true := by
  have hhold : latchAfterHold s = false := by simp [latchAfterHold, hl]
  rw [h.irqLatch] at hl'
  simpa [latchAfterPolicy, hhold] using hl'

/-- Beside the tick no operation sets the latch, and only the host's write and `RESET` write MODE. -/
theorem exec_irqLatch_mode {i : Instr} (hi : i ≠ .tick) (h : exec i s = .next t) :
    (t.irqLatch = s.irqLatch ∨ t.irqLatch = false) ∧
    (t.x.mode = s.x.mode ∨ (∃ m d, i = .wrMode m d) ∨ ∃ lh lp rh rp f, i = .reset lh lp rh rp f) := by
  cases i with
  | tick => exact absurd rfl hi
  | wrMode m d => cases h; exact ⟨.inl rfl, .inr (.inl ⟨m, d, rfl⟩)⟩
  | wrStatus m d => cases h; exact ⟨.inr rfl, .inl rfl⟩
  | reset lh lp rh rp fwd =>
    obtain ⟨-, rfl⟩ := execReset_next h
    exact ⟨.inr rfl, .inr (.inr ⟨lh, lp, rh, rp, fwd, rfl⟩)⟩
  | rdStatus | rdMode | rdControl | rdStart | rdRxSize | rdTxSize | rdRxOffset | rdTxOffset | rdRam | wrControl | wrStart
  | wrRxSize | wrTxSize | wrRxOffset | wrTxOffset | wrRam | stop | ltConnected =>
    cases h
    exact ⟨.inl rfl, .inl rfl⟩
  | rbWrite q | rbRead q | rbPeek q | rbUsed q | rbFree q | rbClear q =>
    cases q <;> cases h <;> exact ⟨.inl rfl, .inl rfl⟩
  | rbConsume q n =>
    obtain ⟨p, hp, rfl⟩ := execRbConsume_next h
    obtain ⟨r, -, rfl⟩ := rbConsume_some hp
    cases q <;> exact ⟨.inl rfl, .inl rfl⟩
  | ltReceive size =>
    cases h
    rcases ltReceive_cases (s.lag .reader) size s with ⟨-, e⟩ | ⟨-, -, e⟩ | ⟨-, -, e⟩ <;> rw [e] <;>
      exact ⟨.inl rfl, .inl rfl⟩
  | ltSend bytes =>
    cases h
    rcases ltSend_cases (s.lag .writer) bytes s with ⟨-, e⟩ | ⟨-, -, e⟩ | ⟨-, -, e⟩ <;> rw [e] <;>
      exact ⟨.inl rfl, .inl rfl⟩
  | envConn role c => cases role <;> cases h <;> exact ⟨.inl rfl, .inl rfl⟩

/-- Settles O40: only a tick sets the latch (`exec_irqLatch_mode`), and only one that asserts, which forces MODE. -/
theorem onlyAnAssertingTickSetsTheLatch : Obligations.OnlyAnAssertingTickSetsTheLatch := by
  intro i s t h hl hl'
  by_cases hi : i = .tick
  · subst hi
    have ht := execTick_counted h
    have hp := ht.policyNow_of_set hl hl'
    exact ⟨rfl, hp, by rw [ht.mode, if_pos hp]⟩
  · rcases (exec_irqLatch_mode hi h).1 with e | e
    · exact absurd (hl'.symm.trans (e.trans hl)) nofun
    · exact absurd (hl'.symm.trans e) nofun

/-- MODE 14 and 15 assert nothing (R184). -/
theorem policyNow_of_disarmed (h : s.x.mode = 14 ∨ s.x.mode = 15) : policyNow s = false := by
  rcases h with e | e <;> rw [policyNow, e] <;> rfl

/-- A disarmed and silent interrupt stays so over every operation but a MODE write and a `RESET`. -/
theorem exec_of_disarmed {i : Instr} (hm : s.x.mode = 14 ∨ s.x.mode = 15) (hl : s.irqLatch = false)
    (hwr : ∀ m d, i ≠ .wrMode m d) (hreset : ∀ lh lp rh rp f, i ≠ .reset lh lp rh rp f) (h : exec i s = .next t) :
    t.x.mode = s.x.mode ∧ t.irqLatch = false := by
  have hpolicy := policyNow_of_disarmed hm
  have hlatch : t.irqLatch = false := by
    rw [← Bool.not_eq_true]
    intro hl'
    obtain ⟨-, hp, -⟩ := onlyAnAssertingTickSetsTheLatch i s t h hl hl'
    exact absurd (hpolicy.symm.trans hp) nofun
  refine ⟨?_, hlatch⟩
  by_cases hi : i = .tick
  · subst hi
    rw [(execTick_counted h).mode, hpolicy]
    rfl
  · rcases (exec_irqLatch_mode hi h).2 with e | ⟨m, d, e⟩ | ⟨lh, lp, rh, rp, f, e⟩
    · exact e
    · exact absurd e (hwr m d)
    · exact absurd e (hreset lh lp rh rp f)

/-- Settles O41: by induction on the run, with `exec_of_disarmed` for each operation. -/
theorem disarmedModeStaysSilent : Obligations.DisarmedModeStaysSilent := by
  intro l
  induction l with
  | nil =>
    intro s t _ hl _ h
    cases h
    exact ⟨rfl, hl⟩
  | cons op rest ih =>
    intro s t hm hl hops h
    obtain ⟨i, inp⟩ := op
    obtain ⟨⟨hwr, hreset⟩, hrest⟩ := List.forall_mem_cons.mp hops
    unfold runOps at h
    split at h
    · next u hu =>
      obtain ⟨hmode, hlatch⟩ := exec_of_disarmed (s := { s with inp := inp }) hm hl hwr hreset hu
      obtain ⟨hmode', hlatch'⟩ := ih u t (hmode ▸ hm) hlatch hrest h
      exact ⟨hmode'.trans hmode, hlatch'⟩
    · cases h
    · cases h

end Sys2Proof.Machine

/-!
PROOFS. The two passes of a tick with no background operation inside it (R187 to R191, R196, R275).
-/
namespace Sys2Proof.Machine

variable {s t : State}

/-! ### The refreshed writer side (R126, R128) -/

section
variable {n lag : Nat} {v : RingView} {q : Ring}

/-- A refreshed writer side sees no less than there is. -/
theorem Ring.used_le_usedBy_writer_refresh (h : q.wf n = true) :
    q.used n ≤ (q.refresh n v lag .writer).usedBy n .writer := by
  simpa using used_le_usedBy_writer (refresh_wf (v := v) (lag := lag) (side := .writer) h)

/-- A refresh can only show the writer side more room. -/
theorem Ring.freeBy_writer_le_refresh (h : q.wf n = true) :
    q.freeBy n .writer ≤ (q.refresh n v lag .writer).freeBy n .writer :=
  Nat.sub_le_sub_left (usedBy_writer_refresh h) (n - 1)

/-- A refreshed writer side sees no more room than there is. -/
theorem Ring.freeBy_writer_refresh_le (h : q.wf n = true) :
    (q.refresh n v lag .writer).freeBy n .writer ≤ n - 1 - q.used n :=
  Nat.sub_le_sub_left (used_le_usedBy_writer_refresh h) (n - 1)

end

/-! ### Step 6 with the gate open (R188 to R190) -/

@[simp] theorem tickReceive_drainKicks (s : State) : (tickReceive s).drainKicks = s.drainKicks := by
  obtain ⟨_, _, _, _, _, _, e⟩ := tickReceive_frame s
  rw [e]

/-- Without a connection step 6 does nothing (R143). -/
theorem tickBefore_of_not_connected (hc : s.txConn ≠ .connected) : tickBefore s = tickCounters s := by
  rw [tickBefore_eq]
  rcases tickTransmit_cases (tickCounters s) with ⟨-, e⟩ | ⟨-, -, e⟩ | ⟨-, hc', -⟩ | ⟨-, hc', -⟩
  · exact e
  · exact e
  · exact absurd ((tickCounters_txConn s).symm.trans hc') hc
  · exact absurd ((tickCounters_txConn s).symm.trans hc') hc

/-- The frame built with the gate open is 1024 bytes (R95). -/
theorem txFrame_tickCounters_length (hd : s.txDelay = 0) (hx : s.x.txSize.toNat ≤ 255) :
    (txFrame (tickCounters s)).length = 1024 :=
  (txFrame_spec (by rw [tickCounters_txSize hd]; exact hx)).1

/-- Too little room in the refreshed view leaves that view alone (R190). -/
theorem tickBefore_of_full (hg : txGate (tickCounters s)) (hc : s.txConn = .connected) (hx : s.x.txSize.toNat ≤ 255)
    (hfull : (s.txq.refresh s.par.ringN s.par.ringView s.inp.lagW .writer).freeBy s.par.ringN .writer < 1024) :
    tickBefore s =
      { tickCounters s with txq := s.txq.refresh s.par.ringN s.par.ringView s.inp.lagW .writer } := by
  have hlen := txFrame_tickCounters_length (txDelay_eq_zero_of_txGate hg) hx
  have hfull' := hfull.trans_eq hlen.symm
  rw [tickBefore_eq]
  rcases tickTransmit_cases (tickCounters s) with ⟨hg', -⟩ | ⟨-, hc', -⟩ | ⟨-, -, -, e⟩ | ⟨-, -, hl, -⟩
  · exact absurd hg hg'
  · exact absurd ((tickCounters_txConn s).trans hc) hc'
  · rw [e, tickCounters_eq]
  · rw [tickCounters_eq] at hl hfull'
    exact absurd hl (Nat.not_le.mpr hfull')

/-- Room for a frame in the refreshed view: the frame is written and the delay loaded (R189, R190). -/
theorem tickBefore_of_room (hg : txGate (tickCounters s)) (hc : s.txConn = .connected) (hx : s.x.txSize.toNat ≤ 255)
    (hroom : 1024 ≤ (s.txq.refresh s.par.ringN s.par.ringView s.inp.lagW .writer).freeBy s.par.ringN .writer) :
    tickBefore s = { tickCounters s with
      txq := (s.txq.write s.par.ringN s.par.ringView s.inp.lagW (txFrame (tickCounters s))).1
      drainKicks := s.drainKicks +
        if (s.txq.refresh s.par.ringN s.par.ringView s.inp.lagW .writer).usedBy s.par.ringN .writer = 0 then 1 else 0
      txDelay := delayOf s.x.txSize.toNat } := by
  have hd := txDelay_eq_zero_of_txGate hg
  have hroom' := (txFrame_tickCounters_length hd hx).trans_le hroom
  rw [tickBefore_eq, Ring.write_of_le hroom', ← tickCounters_txSize hd]
  rcases tickTransmit_cases (tickCounters s) with ⟨hg', -⟩ | ⟨-, hc', -⟩ | ⟨-, -, hl, -⟩ | ⟨-, -, -, e⟩
  · exact absurd hg hg'
  · exact absurd ((tickCounters_txConn s).trans hc) hc'
  · generalize txFrame (tickCounters s) = f at hl hroom'
    rw [tickCounters_eq] at hl
    exact absurd hroom' (Nat.not_le.mpr hl)
  · rw [e]
    generalize txFrame (tickCounters s) = f
    rw [tickCounters_eq]

/-- What steps 1 to 6 leave of the transmit side when the pass sends, in terms of the state before the tick. -/
structure FrameSent (s u : State) : Prop where
  txDelay    : u.txDelay.toNat = s.x.txSize.toNat * 12
  contents   : u.txq.contents s.par.ringN = s.txq.contents s.par.ringN ++
    buildFrame (if policyNow s then false else !s.x.mode.getLsbD 0) s.linkId s.ram s.x.txOffset s.x.txSize.toNat
  w          : u.txq.w = (s.txq.w + 1024) % s.par.ringN
  r          : u.txq.r = s.txq.r
  rv         : u.txq.rv = (s.txq.refresh s.par.ringN s.par.ringView s.inp.lagW .writer).rv
  drainKicks : u.drainKicks =
    if (s.txq.refresh s.par.ringN s.par.ringView s.inp.lagW .writer).usedBy s.par.ringN .writer = 0
      then s.drainKicks + 1 else s.drainKicks

theorem tickBefore_sends (hq : s.txq.wf s.par.ringN = true) (hg : txGate (tickCounters s)) (hc : s.txConn = .connected)
    (hx : s.x.txSize.toNat ≤ 255)
    (hroom : 1024 ≤ (s.txq.refresh s.par.ringN s.par.ringView s.inp.lagW .writer).freeBy s.par.ringN .writer) :
    FrameSent s (tickBefore s) := by
  have hd := txDelay_eq_zero_of_txGate hg
  have hlen := txFrame_tickCounters_length hd hx
  have hfit := hlen.trans_le hroom
  rw [tickBefore_of_room hg hc hx hroom]
  exact {
    txDelay := delayOf_toNat hx
    contents := (Ring.write_ok_contents hq hfit).trans (congrArg (s.txq.contents s.par.ringN ++ ·) (txFrame_tickCounters hd))
    w := by rw [Ring.write_of_le hfit, hlen]; rfl
    r := Ring.write_r ..
    rv := Ring.write_rv ..
    drainKicks := apply_ite (s.drainKicks + ·) _ 1 0 }

/-- A tick with no background operation inside it goes from step 6 to step 7. -/
theorem execTick_of_quiet (h : s.inp.mid = []) :
    execTick s = .next (tickReceive (tickBefore { s with midOut := [] })).done :=
  execTick_quiet h

/-- Settles O32: with the gate open step 6 finds no connection, too little room, or room for the frame. -/
theorem transmitPassSendsOrRetries : Obligations.TransmitPassSendsOrRetries := by
  intro s hs hmid hblock hdelay hrun hsize
  have hx := hs.regs.txSize
  have hq : s.txq.wf s.par.ringN = true := hs.txq
  have hg := txGate_tickCounters (s := { s with midOut := [] }) hblock hdelay hrun hsize
  have hseen := Ring.used_le_usedBy_writer_refresh (v := s.par.ringView) (lag := s.inp.lagW) hq
  have hnewer := Ring.usedBy_writer_refresh (v := s.par.ringView) (lag := s.inp.lagW) hq
  have hdown : (tickCounters { s with midOut := [] }).txDelay = 0 := hg.2.1
  have hkicks : (tickCounters { s with midOut := [] }).drainKicks = s.drainKicks := by rw [tickCounters_eq]
  refine ⟨_, execTick_of_quiet hmid, ?_⟩
  simp only [State.done_x, State.done_txq, State.done_txDelay, State.done_drainKicks, tickReceive_txq,
    tickReceive_txDelay, tickReceive_txSize, tickReceive_drainKicks]
  refine ⟨by rw [tickBefore_txSize, hdelay]; rfl, ?_⟩
  by_cases hc : s.txConn = .connected
  · by_cases hroom :
        1024 ≤ (s.txq.refresh s.par.ringN s.par.ringView s.inp.lagW .writer).freeBy s.par.ringN .writer
    · have hsent := tickBefore_sends (s := { s with midOut := [] }) hq hg hc hx hroom
      rw [hsent.rv]
      exact ⟨hseen, hnewer, fun _ => ⟨hsent.txDelay, hsent.contents, hsent.w, hsent.r, hsent.drainKicks⟩,
        fun h => absurd ⟨hc, hroom⟩ h⟩
    · rw [tickBefore_of_full hg hc hx (Nat.not_le.mp hroom)]
      exact ⟨hseen, hnewer, fun h => absurd h.2 hroom, fun _ => ⟨hdown, rfl, hkicks⟩⟩
  · rw [tickBefore_of_not_connected (s := { s with midOut := [] }) hc, tickCounters_txq]
    exact ⟨Ring.used_le_usedBy_writer hq, le_refl _, fun h => absurd h.1 hc, fun _ => ⟨hdown, rfl, hkicks⟩⟩

/-! ### A closed gate (R188, R191) -/

/-- Settles O33: step 6 does nothing, so the transmit side is as steps 1 to 5 left it. -/
theorem closedTransmitGateSendsNothing : Obligations.ClosedTransmitGateSendsNothing := by
  intro s hmid hclosed
  have hg := not_txGate_tickCounters (s := { s with midOut := [] }) hclosed
  refine ⟨_, execTick_of_quiet hmid, ?_⟩
  rw [tickBefore_eq, tickTransmit_of_not_txGate hg, tickCounters_eq]
  simp only [State.done_txq, State.done_txDelay, State.done_drainKicks, tickReceive_txq, tickReceive_txDelay,
    tickReceive_drainKicks]
  exact ⟨trivial, trivial, toNat_countDown _⟩

/-- Settles O35: step 7 does nothing, and no step before it writes the receive side. -/
theorem runningReceiveDelayTakesNothing : Obligations.RunningReceiveDelayTakesNothing := by
  intro s hmid hdelay
  have ht := execTick_of_quiet hmid
  have hrunning : (tickBefore { s with midOut := [] }).rxDelay ≠ 0 := by
    rw [tickBefore_rxDelay]
    exact countDown_ne_zero hdelay
  obtain ⟨_, _, _, _, _, _, _, _, _, hbefore⟩ := tickBefore_frame { s with midOut := [] }
  rw [tickReceive_of_rxDelay hrunning, hbefore] at ht
  exact ⟨_, ht, rfl, rfl, rfl, rfl, rfl⟩

/-! ### At most one frame each way (R196) -/

/-- A tick queues nothing or one frame: the gate is closed (O33), or the pass sends or retries (O32). -/
theorem execTick_txq_contents (hs : s.Inv) (hmid : s.inp.mid = []) (h : execTick s = .next t) :
    t.txq.contents s.par.ringN = s.txq.contents s.par.ringN ∨
      ∃ f : List Byte, f.length = 1024 ∧ t.txq.contents s.par.ringN = s.txq.contents s.par.ringN ++ f := by
  by_cases hclosed : 1 < s.txBlock.toNat ∨ s.txDelay.toNat ≠ 0 ∨ s.x.control.getLsbD 0 = true ∨ s.x.txSize = 0
  · obtain ⟨t', ht', htq, -⟩ := closedTransmitGateSendsNothing s hmid hclosed
    cases h.symm.trans ht'
    exact .inl (by rw [htq])
  · simp only [not_or, not_not, Bool.not_eq_true, Nat.not_lt] at hclosed
    obtain ⟨hblock, hdelay, hrun, hsize⟩ := hclosed
    obtain ⟨t', ht', -, -, -, hsent, hretry⟩ :=
      transmitPassSendsOrRetries s hs hmid hblock (BitVec.eq_of_toNat_eq hdelay) hrun hsize
    cases h.symm.trans ht'
    by_cases hroom : s.txConn = .connected ∧ 1024 ≤ s.par.ringN - 1 - Ring.dist s.par.ringN t.txq.rv s.txq.w
    · obtain ⟨-, hcontents, -⟩ := hsent hroom
      exact .inr ⟨_, buildFrame_length _ _ _ _ hs.regs.txSize, hcontents⟩
    · obtain ⟨-, htq, -⟩ := hretry hroom
      exact .inl (by rw [htq]; rfl)

/-- A tick takes nothing or one frame: the receive counter runs on (O35), or the pass finds a frame or none (O34). -/
theorem execTick_rxq_contents (hs : s.Inv) (hmid : s.inp.mid = []) (h : execTick s = .next t) :
    t.rxq.contents s.par.ringN = s.rxq.contents s.par.ringN ∨ 1024 ≤ s.rxq.used s.par.ringN ∧
      t.rxq.contents s.par.ringN = (s.rxq.contents s.par.ringN).drop 1024 := by
  rcases Nat.lt_or_ge 1 s.rxDelay.toNat with hdelay | hdelay
  · obtain ⟨t', ht', hrq, -⟩ := runningReceiveDelayTakesNothing s hmid hdelay
    cases h.symm.trans ht'
    exact .inl (by rw [hrq])
  · obtain ⟨t', ht', -, hle, htaken, hnone⟩ := receivePassUnpacksOneFrame s hs hmid hdelay
    cases h.symm.trans ht'
    by_cases hframe : s.rxConn = .connected ∧ 1024 ≤ Ring.dist s.par.ringN s.rxq.r t.rxq.wv
    · obtain ⟨hcontents, -⟩ := htaken hframe _ _ rfl rfl
      exact .inr ⟨hframe.2.trans hle, hcontents⟩
    · obtain ⟨-, hrq, -⟩ := hnone hframe
      exact .inl (by rw [hrq]; rfl)

/-- Settles O36: one lemma for each direction. -/
theorem atMostOneFrameEachWayPerTick : Obligations.AtMostOneFrameEachWayPerTick := by
  intro s hs hmid
  have ht := execTick_of_quiet hmid
  exact ⟨_, ht, execTick_txq_contents hs hmid ht, execTick_rxq_contents hs hmid ht⟩

/-! ### A size written in flight (R275) -/

/-- As many ticks as `txDelay` holds run it out; nothing is sent, and TXSIZE is 0 at the end, cleared in the last of
them (R187). -/
theorem runTicks_of_txDelay {inps : List StepInput} (hquiet : ∀ inp ∈ inps, inp.mid = [])
    (hlen : inps.length = s.txDelay.toNat) (hsize : s.txDelay.toNat = 0 → s.x.txSize = 0) :
    ∃ t, runTicks inps s = .next t ∧ t.txDelay = 0 ∧ t.x.txSize = 0 ∧ t.txq = s.txq ∧ t.drainKicks = s.drainKicks := by
  induction inps generalizing s with
  | nil => exact ⟨s, rfl, BitVec.eq_of_toNat_eq hlen.symm, hsize hlen.symm, rfl, rfl⟩
  | cons inp rest ih =>
    obtain ⟨hfirst, hrest⟩ := List.forall_mem_cons.mp hquiet
    rw [List.length_cons] at hlen
    obtain ⟨u, hu, huq, hukicks, hudelay⟩ :=
      closedTransmitGateSendsNothing { s with inp := inp } hfirst (.inr (.inl (by dsimp only; omega)))
    have husize : u.txDelay.toNat = 0 → u.x.txSize = 0 := by
      obtain ⟨-, -, hlast, -⟩ := delayCountersCountDown { s with inp := inp } u hu
      exact fun h0 => (hlast (by dsimp only at hudelay ⊢; omega)).2
    obtain ⟨t, ht, hdelay, hx, hq, hkicks⟩ := ih (s := u) hrest (by dsimp only at hudelay; omega) husize
    exact ⟨t, (runTicks_cons hu rest).trans ht, hdelay, hx, hq.trans huq, hkicks.trans hukicks⟩

/-- Settles O38: the write leaves `txDelay` (O5), and the ticks run it out (`runTicks_of_txDelay`). -/
theorem txSizeWrittenInFlightIsLost : Obligations.TxSizeWrittenInFlightIsLost := by
  intro m d s s1 inps hdelay hwrite hquiet hlen
  obtain ⟨b, hnext, -⟩ := txSizeWriteLoadsTxBlock m d s
  cases hwrite.symm.trans hnext
  exact runTicks_of_txDelay hquiet hlen fun h0 => absurd h0 hdelay.ne'

end Sys2Proof.Machine

/-!
PROOFS. A background operation inside a tick falls after step 6 and before step 7 (R181, R182), by what it sees and
changes: a write completes the frame step 7 takes, a read sees the frame step 6 queued and makes no room for it.
-/
namespace Sys2Proof.Machine

variable {s t : State}

/-! ### The newest view (R128) -/

section
variable {n : Nat} {v : RingView} {q : Ring}

theorem Ring.observe_newest {view newest : Nat} (h : newest < n) : observe n v 0 view newest = newest := by
  cases v
  · simp [observe, Nat.mod_eq_of_lt h]
  · rfl

/-- With the newest view the reader side sees all the bytes waiting. -/
theorem Ring.usedBy_reader_newest (h : q.wf n = true) :
    (q.refresh n v 0 .reader).usedBy n .reader = q.used n := by
  rw [refresh_reader, observe_newest (wf_iff.mp h).1]
  rfl

/-- A read of no more than is waiting, with the newest view, returns it and takes it (R122). -/
theorem Ring.read_newest {len : Nat} (h : q.wf n = true) (hl : len ≤ q.used n) :
    (q.read n v 0 len).2 = Result.okWith (.bytes ((q.contents n).take len)) ∧
      (q.read n v 0 len).1.contents n = (q.contents n).drop len := by
  have hseen := hl.trans_eq (usedBy_reader_newest (v := v) h).symm
  refine ⟨?_, read_ok_contents h hseen⟩
  rw [read_of_le hseen, getBytes_eq_take hl]

end

/-! ### One background operation inside a tick -/

@[simp] theorem tickBefore_bgRunning (s : State) : (tickBefore s).bgRunning = s.bgRunning := by
  obtain ⟨_, _, _, _, _, _, _, _, _, e⟩ := tickBefore_frame s
  rw [e]

theorem runMid_singleton {m : MidOp} {p : State × Result} (hb : s.bgRunning = true) (h : runBgOp m s = .ok p) :
    runMid [m] s = .ok { p.1 with midOut := s.midOut ++ [p.2] } := by
  have hout : p.1.midOut = s.midOut := by
    obtain ⟨_, _, _, _, e⟩ := runBgOp_frame h
    rw [e]
  simp only [runMid, hb, h, hout, if_true]

/-- A tick with one background operation inside it that is not refused keeps its result (log entry 8). -/
theorem execTick_of_runBgOp {m : MidOp} {p : State × Result} (hmid : s.inp.mid = [m]) (hb : s.bgRunning = true)
    (hp : runBgOp m (tickBefore { s with midOut := [] }) = .ok p) :
    execTick s = .next (tickReceive { p.1 with midOut := [p.2] }).done := by
  have hrun := runMid_singleton ((tickBefore_bgRunning { s with midOut := [] }).trans hb) hp
  rw [tickBefore_midOut, List.nil_append, ← hmid] at hrun
  exact execTick_of_runMid hrun

/-- A counter at 0 or 1 is at 0 after this tick (R187). -/
theorem countDown_eq_zero {v : Word} (h : v.toNat ≤ 1) : (if v = 0 then 0 else v - 1 : Word) = 0 := by
  apply BitVec.eq_of_toNat_eq
  rw [toNat_countDown]
  exact Nat.sub_eq_zero_of_le h

/-- Steps 1 to 6 keep the invariant. -/
theorem tickBefore_inv (h : s.Inv) : (tickBefore s).Inv := tickTransmit_inv (tickCounters_inv h)

/-! ### A write of `RXQ`, before step 7 -/

/-- State `t` has taken the first frame off the bytes `waiting` in `RXQ`, from the registers of state `s` (R191 to R193). -/
structure FrameTaken (s : State) (waiting : List Byte) (t : State) : Prop where
  contents : t.rxq.contents s.par.ringN = waiting.drop 1024
  unpacked : ∀ (f : List Byte) (n : Nat), f = waiting.take 1024 → n = (f.getD 1023 0).toNat →
    t.x.rxSize.toNat = (256 + s.x.rxSize.toNat - n) % 256 ∧ t.rxDelay.toNat = n * 12 ∧
    ∀ i < n, Memory.read t.ram (0x1000 + (s.x.rxOffset.toNat + i) % 0x1000) =
      BitVec.ofNat 9 ((f.getD (2 * i) 0).toNat * 256 + (f.getD (2 * i + 1) 0).toNat)

/-- Step 7 with the newest view takes a frame where one is waiting. -/
theorem tickReceive_takes {waiting : List Byte} (hs : s.Inv) (hlag : s.inp.lagR = 0) (hd : s.rxDelay = 0)
    (hc : s.rxConn = .connected) (hw : s.rxq.contents s.par.ringN = waiting) (hlen : 1024 ≤ waiting.length) :
    FrameTaken s waiting (tickReceive s) := by
  subst hw
  rw [Ring.contents_length] at hlen
  have hq : s.rxq.wf s.par.ringN = true := hs.rxq
  have hall : frameBytes ≤ (s.rxq.refresh s.par.ringN s.par.ringView s.inp.lagR .reader).usedBy s.par.ringN .reader := by
    rw [hlag, Ring.usedBy_reader_newest hq]
    exact hlen
  rcases tickReceive_cases s with ⟨hd', -⟩ | ⟨-, hc', -⟩ | ⟨-, -, hl, -⟩ | ⟨-, -, hl, e⟩
  · exact absurd hd hd'
  · exact absurd hc hc'
  · exact absurd hall (Nat.not_le.mpr hl)
  · rw [e]
    refine ⟨Ring.advanced_contents hq hl, ?_⟩
    rintro f n hf rfl
    have hlt : frameCount f < 256 := frameCount_lt f
    rw [Ring.getBytes_eq_take hlen, ← hf]
    refine ⟨toNat_sub_and_0x00ff hs.regs.rxSize hlt, delayOf_toNat (Nat.le_of_lt_succ hlt), fun i hi => ?_⟩
    rw [← ramData_rxWord]
    exact read_unpackRam_same f s.x.rxOffset (by omega) hs.ram hi

/-- The background's write that completes a frame has it taken in the same tick. -/
theorem execTick_write_taken {bytes : List Byte} {lag : Nat} (hs : s.Inv) (hb : s.bgRunning = true)
    (hmid : s.inp.mid = [{ op := .write bytes, lag := lag }]) (hlag : s.inp.lagR = 0) (hd : s.rxDelay.toNat ≤ 1)
    (hc : s.rxConn = .connected) (hroom : bytes.length ≤ s.rxq.freeBy s.par.ringN .writer)
    (hwait : 1024 ≤ s.rxq.used s.par.ringN + bytes.length) :
    ∃ t, execTick s = .next t ∧ t.midOut = [Result.okWith (.nat bytes.length)] ∧
      FrameTaken s (s.rxq.contents s.par.ringN ++ bytes) t := by
  have hq : s.rxq.wf s.par.ringN = true := hs.rxq
  have hfit : bytes.length ≤ (s.rxq.refresh s.par.ringN s.par.ringView lag .writer).freeBy s.par.ringN .writer :=
    hroom.trans (Ring.freeBy_writer_le_refresh hq)
  have hres : (s.rxq.write s.par.ringN s.par.ringView lag bytes).2 = Result.okWith (.nat bytes.length) := by
    rw [Ring.write_of_le hfit]
  have hlen : 1024 ≤ (s.rxq.contents s.par.ringN ++ bytes).length := by
    rw [List.length_append, Ring.contents_length]
    exact hwait
  have hinv := (rbWrite_inv (tickBefore_inv (hs.setMidOut [])) .rxq lag bytes).setMidOut
    [(rbWrite .rxq lag bytes (tickBefore { s with midOut := [] })).2]
  have ht := execTick_of_runBgOp hmid hb rfl
  obtain ⟨_, _, _, _, _, _, _, _, _, e⟩ := tickBefore_frame { s with midOut := [] }
  rw [e] at hinv ht
  obtain ⟨hcontents, hunpacked⟩ :=
    tickReceive_takes hinv hlag (countDown_eq_zero hd) hc (Ring.write_ok_contents hq hfit) hlen
  refine ⟨_, ht, ?_, hcontents, hunpacked⟩
  rw [State.done_midOut, tickReceive_midOut]
  exact congrArg (fun r => [r]) hres

/-! ### A read of `TXQ`, after step 6 -/

/-- The background's read with the newest view takes from what steps 1 to 6 left, and step 7 leaves the transmit side. -/
theorem execTick_read {len : Nat} {u : State} (hs : s.Inv) (hb : s.bgRunning = true)
    (hmid : s.inp.mid = [{ op := .read len, lag := 0 }]) (hu : tickBefore { s with midOut := [] } = u)
    (hl : len ≤ u.txq.used s.par.ringN) : ∃ t, execTick s = .next t ∧
      t.midOut = [Result.okWith (.bytes ((u.txq.contents s.par.ringN).take len))] ∧
      t.txq.contents s.par.ringN = (u.txq.contents s.par.ringN).drop len ∧
      t.txDelay = u.txDelay ∧ t.x.txSize = u.x.txSize ∧ t.drainKicks = u.drainKicks := by
  have ht := execTick_of_runBgOp hmid hb rfl
  have hinv := tickBefore_inv (hs.setMidOut [])
  have hpar := tickBefore_par { s with midOut := [] }
  rw [hu] at ht hinv hpar
  rw [← hpar] at hl ⊢
  obtain ⟨hres, hcontents⟩ := Ring.read_newest (v := u.par.ringView) hinv.txq hl
  refine ⟨_, ht, ?_, ?_, ?_⟩
  · rw [State.done_midOut, tickReceive_midOut]
    exact congrArg (fun r => [r]) hres
  · rw [State.done_txq, tickReceive_txq]
    exact hcontents
  · simp only [State.done_x, State.done_txDelay, State.done_drainKicks, tickReceive_txDelay, tickReceive_txSize,
      tickReceive_drainKicks]
    exact ⟨rfl, rfl, rfl⟩

/-- Settles O26: a write stands before step 7 (`execTick_write_taken`); a read stands after step 6 (`execTick_read`), which
sent where the old view left room, and could not where even the newest leaves too little. -/
theorem tickRunsBackgroundOpsBetweenThePasses : Obligations.TickRunsBackgroundOpsBetweenThePasses := by
  constructor
  · intro bytes lag s hs hb hmid hlag hd hc hroom hwait
    obtain ⟨t, ht, hout, htaken⟩ := execTick_write_taken hs hb hmid hlag hd hc hroom hwait
    exact ⟨t, ht, hout, htaken.contents, htaken.unpacked⟩
  · intro len s hs hb hmid hblock hdelay hrun hsize hc
    have hx := hs.regs.txSize
    have hq : s.txq.wf s.par.ringN = true := hs.txq
    have hg := txGate_tickCounters (s := { s with midOut := [] }) hblock hdelay hrun hsize
    constructor
    · rintro hroom hlen f rfl
      have hsent := tickBefore_sends (s := { s with midOut := [] }) hq hg hc hx
        (hroom.trans (Ring.freeBy_writer_le_refresh hq))
      have hused : (tickBefore { s with midOut := [] }).txq.used s.par.ringN = s.txq.used s.par.ringN + 1024 := by
        rw [← Ring.contents_length, hsent.contents, List.length_append, Ring.contents_length,
          buildFrame_length _ _ _ _ hx]
      obtain ⟨t, ht, hout, hcontents, htd, -⟩ := execTick_read hs hb hmid rfl (hlen.trans_eq hused.symm)
      rw [hsent.contents] at hout hcontents
      exact ⟨t, ht, hout, hcontents, (congrArg BitVec.toNat htd).trans hsent.txDelay⟩
    · intro hfull hlen
      have hbefore := tickBefore_of_full (s := { s with midOut := [] }) hg hc hx
        ((Ring.freeBy_writer_refresh_le hq).trans_lt hfull)
      obtain ⟨t, ht, hout, hcontents, htd, htx, hkicks⟩ :=
        execTick_read hs hb hmid hbefore (hlen.trans_eq (Ring.refresh_used ..).symm)
      rw [Ring.refresh_contents] at hout hcontents
      refine ⟨t, ht, hout, hcontents, htd.trans hg.2.1, ?_, hkicks.trans ?_⟩
      · exact htx.trans (tickCounters_txSize (s := { s with midOut := [] }) hdelay)
      · rw [tickCounters_eq]

end Sys2Proof.Machine

/-!
PROOFS. `RESET`, `STOP` and `ENV_CONN` (spec/44_lifecycle_env.md): the link identifier bit by bit (R212), the refusals of
`RESET` (R210, R213), and who starts and stops the background (R211).
-/
namespace Sys2Proof.Machine

variable {s t : State}

/-! ### The link identifier (R212) -/

/-- A bit of a running exclusive-or is flipped once for each word that has it set. -/
theorem getLsbD_foldl_xor {w : Nat} (l : List (BitVec w)) (a : BitVec w) (k : Nat) :
    (l.foldl (fun id b => id ^^^ b) a).getLsbD k =
      (a.getLsbD k ^^ decide ((l.filter fun b => b.getLsbD k).length % 2 = 1)) := by
  induction l generalizing a with
  | nil => simp
  | cons b rest ih =>
    rw [List.foldl_cons, ih, BitVec.getLsbD_xor, Bool.xor_assoc]
    congr 1
    cases hb : b.getLsbD k with
    | false => simp [hb]
    | true => simp [hb, Nat.succ_mod_two_eq_one_iff, ← decide_not]

theorem linkIdOf_getLsbD (rh rp : List Byte) (k : Nat) : (linkIdOf rh rp).getLsbD k =
    decide (((rh ++ 0x3a#8 :: rp).filter fun b => b.getLsbD k).length % 2 = 1) := by
  rw [linkIdOf, getLsbD_foldl_xor]
  simp

/-- Settles O49: the identifier folds over the two remote strings alone, from 0 (`linkIdOf_getLsbD`). -/
theorem resetComputesTheLinkIdentifier : Obligations.ResetComputesTheLinkIdentifier := by
  intro lh lp rh rp s t h k _
  obtain ⟨-, rfl⟩ := execReset_next h
  exact linkIdOf_getLsbD rh rp k

/-! ### The refusals of `RESET` (R210, R213) -/

theorem execReset_forward {lh lp rh rp : List Byte} (h : ∀ b ∈ lh ++ lp ++ rh ++ rp, b.toNat < 128) (s : State) :
    execReset lh lp rh rp true s = .refused .forwardMode := by
  rw [execReset, if_pos (isAscii_strings_iff.mpr h), if_pos rfl]

theorem execReset_of_not_ascii {lh lp rh rp : List Byte} (h : ¬ ∀ b ∈ lh ++ lp ++ rh ++ rp, b.toNat < 128) (f : Bool)
    (s : State) : execReset lh lp rh rp f s = .refused .nonAscii := by
  rw [execReset, if_neg (mt isAscii_strings_iff.mp h)]

/-- Settles O50: the test of the strings comes first, then that of `fwd`. -/
theorem resetRefusals : Obligations.ResetRefusals :=
  fun _ _ _ _ f s => ⟨fun h => execReset_forward h s, fun h => execReset_of_not_ascii h f s⟩

/-! ### `STOP` and `ENV_CONN` (R211, R217) -/

/-- Settles O51: `execStop` writes these three fields, and `State.done` the result port. -/
theorem stopIdlesBothRoles : Obligations.StopIdlesBothRoles := fun _ => rfl

/-- Settles O53: `State.setConn` for each role (`exec_envConn`). -/
theorem envConnSetsTheRole : Obligations.EnvConnSetsTheRole :=
  fun c s => ⟨exec_envConn .rx c s, exec_envConn .tx c s⟩

/-! ### Who starts and stops the background (R211) -/

@[simp] theorem tickReceive_bgRunning (s : State) : (tickReceive s).bgRunning = s.bgRunning := by
  obtain ⟨_, _, _, _, _, _, e⟩ := tickReceive_frame s
  rw [e]

theorem runMid_bgRunning {l : List MidOp} (h : runMid l s = .ok t) : t.bgRunning = s.bgRunning := by
  obtain ⟨_, _, _, _, _, rfl⟩ := runMid_frame h
  rfl

/-- A tick neither starts nor stops the background, nor does any operation inside it. -/
theorem execTick_bgRunning (h : execTick s = .next t) : t.bgRunning = s.bgRunning := by
  obtain ⟨u, hu, rfl⟩ := execTick_next h
  simpa using runMid_bgRunning hu

@[simp] theorem ltReceive_bgRunning (lag size : Nat) (s : State) : (ltReceive lag size s).1.bgRunning = s.bgRunning := by
  rcases ltReceive_cases lag size s with ⟨-, e⟩ | ⟨-, -, e⟩ | ⟨-, -, e⟩ <;> rw [e]

@[simp] theorem ltSend_bgRunning (lag : Nat) (bytes : List Byte) (s : State) :
    (ltSend lag bytes s).1.bgRunning = s.bgRunning := by
  rcases ltSend_cases lag bytes s with ⟨-, e⟩ | ⟨-, -, e⟩ | ⟨-, -, e⟩ <;> rw [e]

/-- An operation keeps the background running or stopped, or is the `STOP` that stops it or the `RESET` that starts it. -/
theorem exec_bgRunning_cases {i : Instr} (h : exec i s = .next t) :
    t.bgRunning = s.bgRunning ∨ (i = .stop ∧ t.bgRunning = false) ∨
    ∃ lh lp rh rp f, i = .reset lh lp rh rp f ∧ t.bgRunning = true := by
  cases i with
  | stop => cases h; exact .inr (.inl ⟨rfl, rfl⟩)
  | reset lh lp rh rp fwd =>
    obtain ⟨-, rfl⟩ := execReset_next h
    exact .inr (.inr ⟨lh, lp, rh, rp, fwd, rfl, rfl⟩)
  | rdStatus | rdMode | rdControl | rdStart | rdRxSize | rdTxSize | rdRxOffset | rdTxOffset | rdRam | wrStatus | wrMode
  | wrControl | wrStart | wrRxSize | wrTxSize | wrRxOffset | wrTxOffset | wrRam | ltConnected =>
    cases h
    exact .inl rfl
  | tick => exact .inl (execTick_bgRunning h)
  | rbWrite q | rbRead q | rbPeek q | rbUsed q | rbFree q | rbClear q =>
    cases h
    exact .inl (State.setRing_bgRunning q _ s)
  | rbConsume q n =>
    obtain ⟨p, hp, rfl⟩ := execRbConsume_next h
    obtain ⟨r, -, rfl⟩ := rbConsume_some hp
    exact .inl (State.setRing_bgRunning q r.1 s)
  | ltReceive size => cases h; exact .inl (ltReceive_bgRunning _ size s)
  | ltSend bytes => cases h; exact .inl (ltSend_bgRunning _ bytes s)
  | envConn role c => cases h; exact .inl (State.setConn_bgRunning role c s)

/-- A stopped background stays stopped over every operation but a `RESET`. -/
theorem exec_of_stopped {i : Instr} (hb : s.bgRunning = false) (h : exec i s = .next t) :
    t.bgRunning = false ∨ ∃ lh lp rh rp f, i = .reset lh lp rh rp f := by
  rcases exec_bgRunning_cases h with e | ⟨-, e⟩ | ⟨lh, lp, rh, rp, f, rfl, -⟩
  · exact .inl (e.trans hb)
  · exact .inl e
  · exact .inr ⟨lh, lp, rh, rp, f, rfl⟩

theorem step_refused_of_stopped_bg {iss : Issue} {rest : List Issue} (hb : s.bgRunning = false)
    (hp : s.pending = iss :: rest) (ho : iss.agent = .bg) : ∃ r, step s = .refused r := by
  cases ha : admitted iss (s.take iss rest) with
  | error r => exact ⟨r, by simp [step, hp, ha]⟩
  | ok i =>
    obtain ⟨-, -, hrun⟩ := admitted_ok_iff.mp ha
    exact absurd (hb.symm.trans (hrun ho)) nofun

/-- A step that is no `RESET` leaves a stopped background stopped. -/
theorem step_of_stopped (hb : s.bgRunning = false) (h : step s = .next t) : t.bgRunning = false ∨
    ∃ (iss : Issue) (rest : List Issue) (lh lp rh rp : List Byte) (f : Bool),
      s.pending = iss :: rest ∧ decode iss.word = .ok (.reset lh lp rh rp f) := by
  rcases step_next_cases h with ⟨-, rfl⟩ | ⟨iss, rest, i, hp, ha, he⟩
  · exact .inl hb
  · obtain ⟨hd, -, -⟩ := admitted_ok_iff.mp ha
    rcases exec_of_stopped (s := s.take iss rest) hb he with e | ⟨lh, lp, rh, rp, f, rfl⟩
    · exact .inl e
    · exact .inr ⟨iss, rest, lh, lp, rh, rp, f, hp, hd⟩

/-- Settles O52: an issue of a stopped background is not admitted; a step that is no `RESET` leaves it stopped
(`step_of_stopped`), and the invariant, which the step keeps (O46), has both roles `Idle` then. -/
theorem stoppedUntilReset : Obligations.StoppedUntilReset := by
  refine ⟨fun iss rest s => step_refused_of_stopped_bg, fun s t hinv hb h => ?_⟩
  rcases step_of_stopped hb h with hb' | hreset
  · obtain ⟨hrx, htx⟩ := (stepKeepsTheInvariant s t hinv h).stopped hb'
    exact .inl ⟨hb', hrx, htx, hinv.stopped hb⟩
  · exact .inr hreset

end Sys2Proof.Machine

/-!
PROOFS. The length of an interrupt (R241). The first tick asserts and disarms MODE, so the policy is false from then on;
where the interrupt stands after `k` ticks follows from one tick to the next (R183, R185).
-/
namespace Sys2Proof.Machine

variable {s t : State} {k : Nat}

/-! ### A tick in which the policy is false -/

section

variable (h : TickCounted s t) (hp : policyNow s = false)
include h hp

/-- With the latch false, the hold counter only runs down. -/
theorem TickCounted.of_released (hl : s.irqLatch = false) :
    t.irqLatch = false ∧ t.irqHold = s.irqHold - 1 ∧ t.irqEvents = s.irqEvents := by
  rw [h.irqLatch, h.irqHold, h.irqEvents]
  simp [latchAfterPolicy, latchAfterHold, eventsAfterHold, hp, hl]

/-- The tick that runs the hold counter out drops the latch, under both values of `IRQ_FOLLOW` (R183). -/
theorem TickCounted.of_expiring (hl : s.irqLatch = true) (hh : s.irqHold = 1) :
    t.irqLatch = false ∧ t.irqHold = 0 ∧ t.irqEvents = s.irqEvents ++ [false] := by
  rw [h.irqLatch, h.irqHold, h.irqEvents]
  simp [latchAfterPolicy, latchAfterHold, eventsAfterHold, hp, hl, hh]

/-- With `IRQ_FOLLOW` the latch drops with the policy, and the hold counter is loaded again (R185). -/
theorem TickCounted.of_following (hf : s.par.irqFollow = true) (hl : s.irqLatch = true) (hh : s.irqHold ≠ 1) :
    t.irqLatch = false ∧ t.irqHold = 4 ∧ t.irqEvents = s.irqEvents ++ [false] := by
  rw [h.irqLatch, h.irqHold, h.irqEvents]
  simp [latchAfterPolicy, latchAfterHold, eventsAfterHold, hp, hf, hl, hh]

/-- Without `IRQ_FOLLOW` the latch stays while the hold counter runs (R185). -/
theorem TickCounted.of_holding (hf : s.par.irqFollow = false) (hl : s.irqLatch = true) (hh : s.irqHold ≠ 1) :
    t.irqLatch = true ∧ t.irqHold = s.irqHold - 1 ∧ t.irqEvents = s.irqEvents := by
  rw [h.irqLatch, h.irqHold, h.irqEvents]
  simp [latchAfterPolicy, latchAfterHold, eventsAfterHold, hp, hf, hl, hh]

end

/-! ### The state after `k` ticks -/

/-- Where the interrupt that state `s` asserts stands `k` ticks later, under each value of `IRQ_FOLLOW` (R241). -/
structure PulseAt (s : State) (k : Nat) (t : State) : Prop where
  par    : t.par = s.par
  mode   : t.x.mode = 0x000f
  follow : s.par.irqFollow = true → t.irqLatch = decide (k = 1) ∧ t.irqHold = (if k ≤ 2 then 4 else 6 - k) ∧
    t.irqEvents = s.irqEvents ++ (if k = 1 then [true] else [true, false])
  held   : s.par.irqFollow = false → t.irqLatch = decide (k ≤ 4) ∧ t.irqHold = 5 - k ∧
    t.irqEvents = s.irqEvents ++ (if k ≤ 4 then [true] else [true, false])

namespace PulseAt

variable {s0 : State}

/-- The inputs of the next tick play no part. -/
theorem setInp (h : PulseAt s0 k s) (inp : StepInput) : PulseAt s0 k { s with inp := inp } := { h with }

/-- The tick that asserts. -/
theorem of_policyNow (hp : policyNow s = true) (hl : s.irqLatch = false) (ht : execTick s = .next t) :
    PulseAt s 1 t := by
  obtain ⟨hfollow, hheld, hmode⟩ := latchAndHoldOverOneTick s t ht true false s.irqEvents hp.symm
    (by simp [hl]) (by simp [hl])
  exact ⟨(execTick_hostOnlyKept ht).par, hmode, hfollow, hheld⟩

/-- MODE `0x000f` asserts nothing (R184). -/
theorem policyNow_eq_false (h : PulseAt s0 k s) : policyNow s = false := policyNow_of_disarmed (.inr h.mode)

/-- With `IRQ_FOLLOW` the second tick drops the latch and loads the hold counter again; the later ones run it down. -/
theorem step_follow (h : PulseAt s0 k s) (hk : 1 ≤ k) (hf : s0.par.irqFollow = true) (ht : TickCounted s t) :
    t.irqLatch = decide (k + 1 = 1) ∧ t.irqHold = (if k + 1 ≤ 2 then 4 else 6 - (k + 1)) ∧
      t.irqEvents = s0.irqEvents ++ (if k + 1 = 1 then [true] else [true, false]) := by
  obtain ⟨hlatch, hhold, hevents⟩ := h.follow hf
  rcases hk.eq_or_lt with rfl | hlt
  · obtain ⟨hlatch', hhold', hevents'⟩ :=
      ht.of_following h.policyNow_eq_false (h.par ▸ hf) hlatch (hhold ▸ by decide)
    exact ⟨hlatch', hhold', by rw [hevents', hevents]; exact List.append_assoc ..⟩
  · rw [decide_eq_false hlt.ne'] at hlatch
    rw [if_neg hlt.ne'] at hevents
    obtain ⟨hlatch', hhold', hevents'⟩ := ht.of_released h.policyNow_eq_false hlatch
    rw [decide_eq_false (by omega), if_neg (by omega), if_neg (by omega)]
    exact ⟨hlatch', by rw [hhold', hhold]; split <;> omega, hevents'.trans hevents⟩

/-- Without `IRQ_FOLLOW` the latch stays until the hold counter runs out in the fifth tick. -/
theorem step_held (h : PulseAt s0 k s) (hf : s0.par.irqFollow = false) (ht : TickCounted s t) :
    t.irqLatch = decide (k + 1 ≤ 4) ∧ t.irqHold = 5 - (k + 1) ∧
      t.irqEvents = s0.irqEvents ++ (if k + 1 ≤ 4 then [true] else [true, false]) := by
  obtain ⟨hlatch, hhold, hevents⟩ := h.held hf
  rcases Nat.lt_trichotomy k 4 with hlt | rfl | hgt
  · rw [decide_eq_true hlt.le] at hlatch
    rw [if_pos hlt.le] at hevents
    obtain ⟨hlatch', hhold', hevents'⟩ := ht.of_holding h.policyNow_eq_false (h.par ▸ hf) hlatch (by omega)
    rw [decide_eq_true (by omega), if_pos (by omega)]
    exact ⟨hlatch', by omega, hevents'.trans hevents⟩
  · obtain ⟨hlatch', hhold', hevents'⟩ := ht.of_expiring h.policyNow_eq_false hlatch hhold
    exact ⟨hlatch', hhold', by rw [hevents', hevents]; exact List.append_assoc ..⟩
  · rw [decide_eq_false (by omega)] at hlatch
    rw [if_neg (by omega)] at hevents
    obtain ⟨hlatch', hhold', hevents'⟩ := ht.of_released h.policyNow_eq_false hlatch
    rw [decide_eq_false (by omega), if_neg (by omega)]
    exact ⟨hlatch', by omega, hevents'.trans hevents⟩

/-- A tick after the one that asserted: MODE is `0x000f`, so it asserts nothing (R184, R186). -/
theorem step (h : PulseAt s0 k s) (hk : 1 ≤ k) (ht : execTick s = .next t) : PulseAt s0 (k + 1) t where
  par := (execTick_hostOnlyKept ht).par.trans h.par
  mode := by
    rw [(execTick_counted ht).mode, h.policyNow_eq_false]
    exact h.mode
  follow hf := h.step_follow hk hf (execTick_counted ht)
  held hf := h.step_held hf (execTick_counted ht)

/-- A list of ticks on. -/
theorem runTicks {inps : List StepInput} (h : PulseAt s0 k s) (hk : 1 ≤ k) (hquiet : ∀ inp ∈ inps, inp.mid = []) :
    ∃ t, runTicks inps s = .next t ∧ PulseAt s0 (k + inps.length) t := by
  induction inps generalizing k s with
  | nil => exact ⟨s, rfl, h⟩
  | cons inp rest ih =>
    obtain ⟨hfirst, hrest⟩ := List.forall_mem_cons.mp hquiet
    have hu := execTick_of_quiet (s := { s with inp := inp }) hfirst
    obtain ⟨t, ht, hat⟩ := ih ((h.setInp inp).step hk hu) (Nat.succ_pos k) hrest
    refine ⟨t, (runTicks_cons hu rest).trans ht, ?_⟩
    rwa [List.length_cons, ← Nat.add_assoc, Nat.add_right_comm]

end PulseAt

/-- Settles O39: the first tick asserts (`PulseAt.of_policyNow`), and each later one moves the interrupt on
(`PulseAt.step`). -/
theorem interruptPulseWidth : Obligations.InterruptPulseWidth := by
  intro s inps hp hl hlen hquiet
  obtain ⟨inp, rest, rfl⟩ := List.exists_cons_of_length_pos hlen
  obtain ⟨hfirst, hrest⟩ := List.forall_mem_cons.mp hquiet
  have hu := execTick_of_quiet (s := { s with inp := inp }) hfirst
  obtain ⟨t, ht, hat⟩ := (PulseAt.of_policyNow (s := { s with inp := inp }) hp hl hu).runTicks le_rfl hrest
  rw [Nat.add_comm, ← List.length_cons (a := inp)] at hat
  exact ⟨t, (runTicks_cons hu rest).trans ht, hat.mode, hat.follow, hat.held⟩

end Sys2Proof.Machine
